-- ==== Sys2Proof/Word.lean ====
section
/-!
DEFINITION. The word types of LTCDEC (00_scope.md R13 to R15, 30_encoding.md R81, R88 to R91).
Bit 0 of every word is its least significant bit (R13).
-/

namespace Sys2Proof

/-- The command word on the command port: 68 bits, `op` in bits 67:64 and `arg` in bits 63:0 (R81). -/
abbrev CmdWord := BitVec 68

/-- The 64-bit argument field of a command word (R81). -/
abbrev Arg := BitVec 64

/-- One byte of a payload or of a record's byte layout (R91, R93). -/
abbrev Byte := BitVec 8

/-- One sample: an unsigned number 0 to 255 (R88). -/
abbrev Sample := BitVec 8

/-- A sample count: the width `CNT_BITS` of `cnt` (R10, R27). -/
abbrev Count := BitVec 32

/-- A raw period: an unsigned fixed-point number with 16 fractional bits in `PERIOD_BITS` bits (R10, R15, R89). -/
abbrev Raw := BitVec 64

/-- A sample position: `POS_BITS` bits, two's complement, all arithmetic modulo `2^64` (R10, R90,
R294). -/
abbrev Position := BitVec 64

/-- The payload register or a record's payload: ten bytes, payload bit `p` in byte `p >> 3` at bit `p & 7` (R91). -/
abbrev Payload := Vector Byte 10

/-- The tic ring, or its copy in a record: eighty raw periods (R31, R44). -/
abbrev TicRing := Vector Raw 80

end Sys2Proof
end

