-- ==== Sys2Proof/Syntax.lean ====
section
/-!
DEFINITION. The command set of LTCDEC: one constructor per row of spec/opcode_table.json (30_encoding.md R81 to R86).

The operand types are exactly the argument fields of R82 to R86, so every term is encodable.
A SAMPLE or POP word with a non-zero reserved argument bit selects no row of the table (R86): it is no term here;
the decoder rejects it by name and the block answers it `ILLEGAL` (Machine/Accept.lean).
-/

namespace Sys2Proof

/-- The commands and the reserved rows of the opcode table (R81, R86, R219). -/
inductive Instr where
  /-- INIT: construct the decoder (R82, R211). -/
  | init (seed : BitVec 48) (cap : BitVec 16)
  /-- SETPOS: set the position of the next sample (R83, R212). -/
  | setpos (p : Position)
  /-- SAMPLE: process one sample (R84, R213). -/
  | sample (v : Sample)
  /-- POP: retrieve the oldest unread record (R85, R214). -/
  | pop
  /-- Reserved `op = 0x0` (R86, R215). -/
  | illegalOp0 (x : Arg)
  /-- Reserved `op = 0x5` (R86, R215). -/
  | illegalOp5 (x : Arg)
  /-- Reserved `op = 0x6` (R86, R215). -/
  | illegalOp6 (x : Arg)
  /-- Reserved `op = 0x7` (R86, R215). -/
  | illegalOp7 (x : Arg)
  /-- Reserved `op = 0x8` (R86, R215). -/
  | illegalOp8 (x : Arg)
  /-- Reserved `op = 0x9` (R86, R215). -/
  | illegalOp9 (x : Arg)
  /-- Reserved `op = 0xA` (R86, R215). -/
  | illegalOpA (x : Arg)
  /-- Reserved `op = 0xB` (R86, R215). -/
  | illegalOpB (x : Arg)
  /-- Reserved `op = 0xC` (R86, R215). -/
  | illegalOpC (x : Arg)
  /-- Reserved `op = 0xD` (R86, R215). -/
  | illegalOpD (x : Arg)
  /-- Reserved `op = 0xE` (R86, R215). -/
  | illegalOpE (x : Arg)
  /-- Reserved `op = 0xF` (R86, R215). -/
  | illegalOpF (x : Arg)
  deriving DecidableEq, Repr

end Sys2Proof
end

