-- ==== Sys2Proof/Decode.lean ====
section
/-!
DEFINITION. The command decoder and the encoder (30_encoding.md R81 to R86), and the opcode table's mask and match
columns (spec/INDEX.md "Using opcode_table.json").

The decoder is total: every 68-bit word is one command of `Instr` or is rejected by name (R86).
-/

namespace Sys2Proof

/-- Why a command word selects no row of the opcode table (R86). -/
inductive DecodeError where
  /-- `op = 0x3` with a bit of `arg[63:8]` set (R84). -/
  | reservedSampleBits
  /-- `op = 0x4` with a bit of `arg[63:0]` set (R85). -/
  | reservedPopBits
  deriving DecidableEq, Repr

/-- `op = cmd[67:64]` (R81). -/
def opField (w : CmdWord) : BitVec 4 := w.extractLsb' 64 4

/-- `arg = cmd[63:0]` (R81). -/
def argField (w : CmdWord) : Arg := w.extractLsb' 0 64

/-- SAMPLE: `s = arg[7:0]`, and `arg[63:8]` must be zero (R84). -/
def decodeSample (arg : Arg) : Except DecodeError Instr :=
  if arg.extractLsb' 8 56 = 0#56 then .ok (.sample (arg.extractLsb' 0 8)) else .error .reservedSampleBits

/-- POP: `arg` must be zero (R85). -/
def decodePop (arg : Arg) : Except DecodeError Instr :=
  if arg = 0#64 then .ok .pop else .error .reservedPopBits

/-- The opcode map of R81 with the operands of R82 to R85. -/
def decodeFields (op : BitVec 4) (arg : Arg) : Except DecodeError Instr :=
  match op.toNat with
  | 0 => .ok (.illegalOp0 arg)
  | 1 => .ok (.init (arg.extractLsb' 0 48) (arg.extractLsb' 48 16))
  | 2 => .ok (.setpos arg)
  | 3 => decodeSample arg
  | 4 => decodePop arg
  | 5 => .ok (.illegalOp5 arg)
  | 6 => .ok (.illegalOp6 arg)
  | 7 => .ok (.illegalOp7 arg)
  | 8 => .ok (.illegalOp8 arg)
  | 9 => .ok (.illegalOp9 arg)
  | 10 => .ok (.illegalOpA arg)
  | 11 => .ok (.illegalOpB arg)
  | 12 => .ok (.illegalOpC arg)
  | 13 => .ok (.illegalOpD arg)
  | 14 => .ok (.illegalOpE arg)
  | _ => .ok (.illegalOpF arg)  -- a 4-bit number that is none of 0 to 14 is 15

/-- The decoder of a command word (R81 to R86). -/
def decode (w : CmdWord) : Except DecodeError Instr := decodeFields (opField w) (argField w)

/-- The `op` field of a command (R81, R86). -/
def opcode : Instr → BitVec 4
  | .illegalOp0 _ => 0x0#4
  | .init _ _ => 0x1#4
  | .setpos _ => 0x2#4
  | .sample _ => 0x3#4
  | .pop => 0x4#4
  | .illegalOp5 _ => 0x5#4
  | .illegalOp6 _ => 0x6#4
  | .illegalOp7 _ => 0x7#4
  | .illegalOp8 _ => 0x8#4
  | .illegalOp9 _ => 0x9#4
  | .illegalOpA _ => 0xA#4
  | .illegalOpB _ => 0xB#4
  | .illegalOpC _ => 0xC#4
  | .illegalOpD _ => 0xD#4
  | .illegalOpE _ => 0xE#4
  | .illegalOpF _ => 0xF#4

/-- The `arg` field of a command (R82 to R86). -/
def argument : Instr → Arg
  | .init seed cap => cap ++ seed
  | .setpos p => p
  | .sample v => v.setWidth 64
  | .pop => 0#64
  | .illegalOp0 x => x
  | .illegalOp5 x => x
  | .illegalOp6 x => x
  | .illegalOp7 x => x
  | .illegalOp8 x => x
  | .illegalOp9 x => x
  | .illegalOpA x => x
  | .illegalOpB x => x
  | .illegalOpC x => x
  | .illegalOpD x => x
  | .illegalOpE x => x
  | .illegalOpF x => x

/-- The command word of a command: `cmd = {op, arg}` (R81). -/
def encode (i : Instr) : CmdWord := opcode i ++ argument i

/-- One row of the opcode table: a word `w` selects it when `(w & mask) == match`. -/
structure TableRow where
  mask : CmdWord
  pattern : CmdWord
  deriving DecidableEq, Repr

/-- Does the word select the row? -/
def TableRow.selects (r : TableRow) (w : CmdWord) : Bool := w &&& r.mask == r.pattern

/-- The `mask` and `match` columns of spec/opcode_table.json, in the table's order. -/
def opcodeTable : List TableRow :=
  [⟨0xF0000000000000000#68, 0x10000000000000000#68⟩,  -- INIT
   ⟨0xF0000000000000000#68, 0x20000000000000000#68⟩,  -- SETPOS
   ⟨0xFFFFFFFFFFFFFFF00#68, 0x30000000000000000#68⟩,  -- SAMPLE
   ⟨0xFFFFFFFFFFFFFFFFF#68, 0x40000000000000000#68⟩]  -- POP
  ++
  [⟨0xF0000000000000000#68, 0x00000000000000000#68⟩,  -- ILLEGAL.op0
   ⟨0xF0000000000000000#68, 0x50000000000000000#68⟩,  -- ILLEGAL.op5
   ⟨0xF0000000000000000#68, 0x60000000000000000#68⟩,  -- ILLEGAL.op6
   ⟨0xF0000000000000000#68, 0x70000000000000000#68⟩,  -- ILLEGAL.op7
   ⟨0xF0000000000000000#68, 0x80000000000000000#68⟩,  -- ILLEGAL.op8
   ⟨0xF0000000000000000#68, 0x90000000000000000#68⟩]  -- ILLEGAL.op9
  ++
  [⟨0xF0000000000000000#68, 0xA0000000000000000#68⟩,  -- ILLEGAL.opA
   ⟨0xF0000000000000000#68, 0xB0000000000000000#68⟩,  -- ILLEGAL.opB
   ⟨0xF0000000000000000#68, 0xC0000000000000000#68⟩,  -- ILLEGAL.opC
   ⟨0xF0000000000000000#68, 0xD0000000000000000#68⟩,  -- ILLEGAL.opD
   ⟨0xF0000000000000000#68, 0xE0000000000000000#68⟩,  -- ILLEGAL.opE
   ⟨0xF0000000000000000#68, 0xF0000000000000000#68⟩]  -- ILLEGAL.opF

/-- The place of a command's row in `opcodeTable`. -/
def tableIndex : Instr → Nat
  | .init _ _ => 0
  | .setpos _ => 1
  | .sample _ => 2
  | .pop => 3
  | .illegalOp0 _ => 4
  | .illegalOp5 _ => 5
  | .illegalOp6 _ => 6
  | .illegalOp7 _ => 7
  | .illegalOp8 _ => 8
  | .illegalOp9 _ => 9
  | .illegalOpA _ => 10
  | .illegalOpB _ => 11
  | .illegalOpC _ => 12
  | .illegalOpD _ => 13
  | .illegalOpE _ => 14
  | .illegalOpF _ => 15

/-- The command port is 68 bits wide (R80), so of a number of `nbits` bits the low 68 reach the decoder
(DESIGN CHOICE, assumption log 2). -/
def portWord (nbits w : Nat) : CmdWord := BitVec.ofNat 68 (w % 2 ^ nbits)

/-- The instruction the decoder reads from a table word. -/
def decodeTableWord (nbits w : Nat) : Option Instr := (decode (portWord nbits w)).toOption

end Sys2Proof
end

