-- ==== Sys2Proof/Config.lean ====
section
/-!
DEFINITION. The parameters of LTCDEC (00_scope.md R10).

The parameters the spec calls `fixed`, and the widths it decides once (D3 to D6), are constants here.
The parameters a model is to take as an argument (93_implementation_defined.md U4, U6, U8: `SILENCE_MIN`,
`REV_SPAN_BITS`, `SYNC_FWD`, `CENTER`, `QUEUE_MAX`) are the fields of `Config`.
A `Config` travels in the state as plain data that no step changes, so a statement over all states holds for
every value of them (DESIGN CHOICE, assumption log 1).
The values this hardware takes stand in Machine/Defaults.lean; `SYNC_REV` is computed in Machine/Bits.lean.
The types of Word.lean and Machine/State.lean write the widths as literals; Laws/Widths.lean says that each is the
constant named here.
-/

namespace Sys2Proof

/-- The parameters of LTCDEC that a model takes as an argument (R10; U4, U6, U8). -/
structure Config where
  /-- `CENTER`, the sample value of the zero crossing (R10, D3). -/
  center : Sample
  /-- `SILENCE_MIN`, the minimum-silence-sample threshold (R10, R133, U4). -/
  silenceMin : Nat
  /-- `SYNC_FWD`, the forward sync pattern as held in `sync_word` (R10, R92, U8). -/
  syncFwd : BitVec 16
  /-- `QUEUE_MAX`, the records of queue memory built into the block (R10, D7, U8). -/
  queueMax : Nat
  /-- `REV_SPAN_BITS`, the bit-periods in the `reverse` magnitude: OPEN (R10, R159, D9, U6). -/
  revSpanBits : Nat
  deriving DecidableEq, Repr

namespace Config

/-- `N`, the bits in a frame (R10). -/
def frameBits : Nat := 80

/-- `NB`, the payload bytes (R10). -/
def payloadBytes : Nat := 10

/-- `SYNC_BITS`, the width of `sync_word` (R10). -/
def syncBits : Nat := 16

/-- `SAMPLE_BITS`, the width of a sample (R10). -/
def sampleBits : Nat := 8

/-- `SAMPLE_FS`, the full-scale divisor of the volume formula (R10). -/
def sampleFs : Nat := 255

/-- `F`, the fractional bits of `period` and `limit` (R10). -/
def fracBits : Nat := 16

/-- `CNT_BITS`, the width of `cnt` (R10, D5). -/
def cntBits : Nat := 32

/-- `PERIOD_BITS`, the width of `period`, `limit` and the ring entries (R10, D4). -/
def periodBits : Nat := 64

/-- `POS_BITS`, the width of every sample position (R10, D6). -/
def posBits : Nat := 64

/-- `ONE = 2^F`, one sample as a raw period (R15). -/
def one : Nat := 65536

/-- `CNT_MAX = 2^CNT_BITS - 1`, where `cnt` saturates (R27, R137). -/
def cntMax : Nat := 2 ^ cntBits - 1

/-- `DECAY_NUM`, of the envelope decay factor 15/16 (R10). -/
def decayNum : Int := 15

/-- `DECAY_DEN`, of the envelope decay factor 15/16 (R10). -/
def decayDen : Int := 16

/-- `THR_NUM`, of the threshold point 8/16 (R10). -/
def thrNum : Int := 8

/-- `THR_DEN`, of the threshold point 8/16 (R10). -/
def thrDen : Int := 16

end Config

end Sys2Proof
end

