-- ==== Sys2Proof/Machine/Bits.lean ====
section
/-!
DEFINITION. Pure bit and byte functions: bit reversal, payload bit packing, the resync shift, the reverse-frame
normalisation and the sync window shift (00_scope.md R16, 30_encoding.md R91 and R92, 42_bit_synchronizer.md R157,
R162, R163).
-/

namespace Sys2Proof

/-- `bitrev8(b)[i] = b[7 - i]` (R16, R162). -/
def bitrev8 (b : Byte) : Byte := b.reverse

/-- `bitrev16(w)[i] = w[15 - i]` (R16). -/
def bitrev16 (w : BitVec 16) : BitVec 16 := w.reverse

/-- `SYNC_REV = bitrev16(SYNC_FWD)` (R10, R11, R92). -/
def Config.syncRev (c : Config) : BitVec 16 := bitrev16 c.syncFwd

/-- Payload bit `p`: bit `p & 7` of byte `p >> 3` (R91). -/
def payloadBit (f : Payload) (p : Fin 80) : Bool := (f[p.val / 8]'(by omega)).getLsbD (p.val % 8)

/-- The payload register with bit `p` set: `frame[p >> 3] <- frame[p >> 3] | (1 << (p & 7))` (R157). -/
def setPayloadBit (f : Payload) (p : Fin 80) : Payload :=
  f.set (p.val / 8) ((f[p.val / 8]'(by omega)) ||| (1#8 <<< (p.val % 8))) (by omega)

/-- The resync shift (R163): byte `k` becomes `(f[k] >> 1) | ((f[k+1] & 1) << 7)`, and byte 9 `f[9] >> 1`. -/
def shift1 (f : Payload) : Payload :=
  Vector.ofFn fun k : Fin 10 =>
    (f[k.val] >>> 1) ||| (if h : k.val + 1 < 10 then (f[k.val + 1] &&& 1#8) <<< 7 else 0#8)

/-- The reverse-frame normalisation (R162): bytes 0 to 7 bit-reversed and in opposite order, bytes 8 and 9
bit-reversed in place. -/
def unreverse (f : Payload) : Payload :=
  Vector.ofFn fun k : Fin 10 => if k.val < 8 then bitrev8 (f[7 - k.val]'(by omega)) else bitrev8 f[k.val]

/-- The sync window taking one bit in: `((sync_word << 1) | b)[15:0]` (R92, R157). -/
def shiftIn (w : BitVec 16) (b : Bool) : BitVec 16 := (w <<< 1) ||| (BitVec.ofBool b).setWidth 16

end Sys2Proof
end

