-- ==== Sys2Proof/Machine/Operands.lean ====
section
/-!
DEFINITION. Operand conversions and the exact arithmetic of the registers: sample counts and raw periods (00_scope.md
R14, R15), positions (30_encoding.md R90), the envelope (40_level_tracker.md R111 to R113), the period estimator
(41_edge_classifier.md R131 to R137), the positions of ticks and bits (42_bit_synchronizer.md R151, R154, R156, R159),
and the modular indices (20_memory.md R62).

Every rule is evaluated exactly in `Int` or `Nat` and narrowed once, at the register it is stored in (R14).
`/` on `Int` with a positive divisor is `floor` (R14).
-/

namespace Sys2Proof.Machine

/-- A sample as an integer (R88: unsigned). -/
def sampleInt (v : Sample) : Int := (v.toNat : Int)

/-- The seed operand of INIT, a 48-bit raw period, as the 64-bit register value (R82, R89). -/
def seedRaw (seed : BitVec 48) : Raw := seed.setWidth 64

/-- `env_min` decayed: `CENTER - floor((CENTER - env_min) * 15 / 16)` (R111). -/
def decayMin (c : Config) (lo : Sample) : Int :=
  sampleInt c.center - (sampleInt c.center - sampleInt lo) * Config.decayNum / Config.decayDen

/-- `env_max` decayed: `CENTER + floor((env_max - CENTER) * 15 / 16)` (R111). -/
def decayMax (c : Config) (hi : Sample) : Int :=
  sampleInt c.center + (sampleInt hi - sampleInt c.center) * Config.decayNum / Config.decayDen

/-- `env_min` after decay and clamp (R111, R112). -/
def envMinNext (c : Config) (lo v : Sample) : Sample :=
  BitVec.ofInt 8 (if sampleInt v < decayMin c lo then sampleInt v else decayMin c lo)

/-- `env_max` after decay and clamp (R111, R112). -/
def envMaxNext (c : Config) (hi v : Sample) : Sample :=
  BitVec.ofInt 8 (if decayMax c hi < sampleInt v then sampleInt v else decayMax c hi)

/-- `thr_lo = CENTER - floor((CENTER - env_min) * 8 / 16)` (R113). -/
def thrLo (c : Config) (lo : Sample) : Int :=
  sampleInt c.center - (sampleInt c.center - sampleInt lo) * Config.thrNum / Config.thrDen

/-- `thr_hi = CENTER + floor((env_max - CENTER) * 8 / 16)` (R113). -/
def thrHi (c : Config) (hi : Sample) : Int :=
  sampleInt c.center + (sampleInt hi - sampleInt c.center) * Config.thrNum / Config.thrDen

/-- A sample count scaled to a raw period: `c * ONE` (R15). -/
def countRaw (n : Nat) : Nat := n * Config.one

/-- The classified count `c`: `cnt` for a long interval, `2 * cnt` for a short one (R131, R132). -/
def classifiedCount (long : Bool) (cnt : Count) : Nat := if long then cnt.toNat else 2 * cnt.toNat

/-- The updated period: `floor((3 * P + c * ONE) / 4)` (R134); a weighted mean, so it fits the register. -/
def nextPeriod (p : Raw) (n : Nat) : Raw := BitVec.ofNat 64 ((3 * p.toNat + countRaw n) / 4)

/-- The limit of a period: `floor(3 * P / 4)` (R135, R211). -/
def limitOf (p : Raw) : Raw := BitVec.ofNat 64 (3 * p.toNat / 4)

/-- `cnt <- min(cnt + 1, CNT_MAX)` (R137). -/
def nextCnt (cnt : Count) : Count := BitVec.ofNat 32 (min (cnt.toNat + 1) Config.cntMax)

/-- `ceil(P / ONE) = floor((P + ONE - 1) / ONE)`, a period rounded up to whole samples (R156). -/
def ceilSamples (n : Nat) : Nat := (n + Config.one - 1) / Config.one

/-- The position a tick hands to its bit (R151): `pos`, and after a short interval
`wrap64(pos + floor((c * ONE - P) / ONE))`. -/
def tickPosition (pos : Position) (n : Nat) (p : Raw) (short : Bool) : Position :=
  if short then pos + BitVec.ofInt 64 (((countRaw n : Int) - (p.toNat : Int)) / (Config.one : Int)) else pos

/-- `wrap64(x + ceil(P / ONE))`: the advance of `frame_start` on a shift-resync (R156). -/
def advanceByPeriod (x : Position) (p : Raw) : Position := x + BitVec.ofNat 64 (ceilSamples p.toNat)

/-- `wrap64(x - ceil(P / ONE))`, the floor of `x - period` (R154, D30). -/
def backByPeriod (x : Position) (p : Raw) : Position := x - BitVec.ofNat 64 (ceilSamples p.toNat)

/-- `sh = ceil(16 * P / ONE)`: the backward shift of a reverse frame's offsets (R159). -/
def reverseShift (p : Raw) : Position := BitVec.ofNat 64 (ceilSamples (Config.syncBits * p.toNat))

/-- `rev = floor(REV_SPAN_BITS * P / ONE)`: the `reverse` magnitude (R95, R159). -/
def reverseSpan (c : Config) (p : Raw) : BitVec 64 :=
  BitVec.ofNat 64 (c.revSpanBits * p.toNat / Config.one)

/-- The next ring index: `(tic + 1) mod N` (R62, R150). -/
def nextTic (t : Fin 80) : Fin 80 := ⟨(t.val + 1) % 80, Nat.mod_lt _ (by decide)⟩

/-- The next queue index: `(q + 1) mod q_cap` (R62); `q_cap = 0` is never reached (DESIGN CHOICE, assumption log 11). -/
def nextSlot (q cap : BitVec 16) : BitVec 16 := BitVec.ofNat 16 ((q.toNat + 1) % cap.toNat)

/-- Where the next bit is stored: `bit_cnt`, which is at most `N - 1` once the shift-resync of R156 has made room
(R157, R161). -/
def storeIndex (n : Fin 81) : Fin 80 := if h : n.val < 80 then ⟨n.val, h⟩ else 79

end Sys2Proof.Machine
end

