-- ==== Sys2Proof/Machine/Defaults.lean ====
section
/-!
DEFINITION. The parameter values this hardware takes (00_scope.md R10; 92_eei_decisions.md D3, D7, D8, D9).
-/

namespace Sys2Proof.Machine

/-- The values of R10: `CENTER = 128`, `SILENCE_MIN = 16`, `SYNC_FWD = 0x3FFD`, `QUEUE_MAX = 32` and the default
`REV_SPAN_BITS = 80`. The last is OPEN in the spec (D9): no statement rests on it
(DESIGN CHOICE, assumption log 1). -/
def defaultConfig : Config where
  center := 128#8
  silenceMin := 16
  syncFwd := 0x3FFD#16
  queueMax := 32
  revSpanBits := 80

end Sys2Proof.Machine
end

