-- ==== Sys2Proof/Machine/State.lean ====
section
/-!
DEFINITION. The state of LTCDEC (10_state.md R20 to R44), plain data, with the frame record, the responses, the host's
inputs, the reasons a step can stop, and the state after reset (70_reset_and_hazards.md R280).
-/

namespace Sys2Proof.Machine

/-- The two values of `biphase_state` (R32, D28): `MID = 0`, `BOUNDARY = 1`. -/
inductive Parity where
  | mid
  | boundary
  deriving DecidableEq, Repr

/-- A frame record, the entity written to the queue (R44). -/
structure FrameRecord where
  /-- `payload[0..9]`, canonical bit order for both directions. -/
  payload : Payload
  /-- `off_start`, the first sample position of the frame. -/
  offStart : Position
  /-- `off_end`, the last sample position of the frame. -/
  offEnd : Position
  /-- `reverse`: 0 for a forward frame, else a magnitude (R95). -/
  reverse : BitVec 64
  /-- `volume`: an IEEE 754 binary64 bit pattern (R94, R244). -/
  volume : BitVec 64
  /-- `sample_min`: `env_min` at detection. -/
  sampleMin : Sample
  /-- `sample_max`: `env_max` at detection. -/
  sampleMax : Sample
  /-- `hist[0..79]`: the tic ring, oldest entry first (R63). -/
  hist : TicRing
  deriving DecidableEq, Repr

/-- The response statuses (R87, R255); codes 5 to 7 are never produced (U2). -/
inductive Status where
  | ok
  | empty
  | notConfigured
  | configError
  | illegal
  deriving DecidableEq, Repr

/-- The one response of an accepted command (R87): a status and, for a POP that found a record, the record. -/
structure Response where
  status : Status
  record : Option FrameRecord
  deriving DecidableEq, Repr

/-- What the host presents, in the order it presents it (R8, R70): a command word, or the `rst` input (R280). -/
inductive HostInput where
  | command (w : CmdWord)
  | hardReset
  deriving DecidableEq, Repr

/-- The queue memory (R43, R60): the slots that hold a record, by slot index, strictly rising.
An index that is not listed is a slot whose contents are unspecified (R43, R280, U3): reading it gives no value
(DESIGN CHOICE, assumption log 5). -/
abbrev Memory := List (Nat × FrameRecord)

/-- The canonical form of the queue memory: strictly rising slot indices. -/
abbrev Memory.wf (m : Memory) : Prop := (m.map Prod.fst).Pairwise (· < ·)

/-- Why the machine stops with a fault. The error statuses of R255 are responses, after which the block goes on
(R259): none of them is a fault here (DEDUCED, assumption log 9). -/
inductive Fault where
  /-- Raised by POP when `q_count` says a record is unread and the slot at `q_rd` holds no value.
  Safe: R43 says no command can read a slot before PUSH has written it, and no state that meets
  `Sys2Proof.Invariant` raises it. -/
  | unwrittenSlot
  deriving DecidableEq, Repr

/-- Why a step has no meaning. -/
inductive Refusal where
  /-- Raised by an arm of `exec` that has no meaning yet. Safe: the step does not happen. -/
  | notModelled (mnemonic : String)
  /-- Raised by `step` when the configuration breaks R11 ("a model refuses any other configuration").
  Safe: the step does not happen. -/
  | configIllFormed
  deriving DecidableEq, Repr

/-- The state of LTCDEC: every register and memory of R20 to R43, in the spec's six groups, and three fields of the
model's own (`cfg`, `inputs`, `rsp`; DESIGN CHOICE, assumption log 1, 3 and 4). -/
structure State where
  /-- MODEL'S OWN: the parameters of R10, which no step changes. -/
  cfg : Config
  /-- MODEL'S OWN: what the host has still to present, in order (R47, R70). -/
  inputs : List HostInput
  /-- MODEL'S OWN: the response outputs of the last step (R80, R87): `none` when it accepted no command. -/
  rsp : Option Response
  /-- `cfg_ok` (R21). -/
  cfgOk : Bool
  /-- `cfg_err` (R22). -/
  cfgErr : Bool
  /-- `q_cap` (R23). -/
  qCap : BitVec 16
  /-- `env_min` (R24). -/
  envMin : Sample
  /-- `env_max` (R25). -/
  envMax : Sample
  /-- `level` (R26): the side on which the next crossing is awaited (R118). -/
  level : Bool
  /-- `cnt` (R27). -/
  cnt : Count
  /-- `period`, raw (R28). -/
  period : Raw
  /-- `limit`, raw (R29). -/
  limit : Raw
  /-- `tic`, 7 bits, `0 .. 79` (R30; its legal range is its type: DESIGN CHOICE, assumption log 10). -/
  tic : Fin 80
  /-- `tics[0 .. 79]`, the tic ring (R31). -/
  tics : TicRing
  /-- `biphase_state` (R32). -/
  biphaseState : Parity
  /-- `biphase_prev` (R33). -/
  biphasePrev : Bool
  /-- `bit_cnt`, 7 bits, `0 .. 80` (R34; its legal range is its type: DESIGN CHOICE, assumption log 10). -/
  bitCnt : Fin 81
  /-- `frame[0 .. 9]`, the in-progress payload register (R35). -/
  frame : Payload
  /-- `sync_word` (R36). -/
  syncWord : BitVec 16
  /-- `frame_start` (R37). -/
  frameStart : Position
  /-- `last_bit_pos` (R38). -/
  lastBitPos : Position
  /-- `last_bit_valid` (R38). -/
  lastBitValid : Bool
  /-- `pos` (R39). -/
  pos : Position
  /-- `q_wr` (R40). -/
  qWr : BitVec 16
  /-- `q_rd` (R41). -/
  qRd : BitVec 16
  /-- `q_count` (R42). -/
  qCount : BitVec 16
  /-- `slot[0 .. QUEUE_MAX-1]`, the queue memory (R43). -/
  slots : Memory
  deriving DecidableEq, Repr

/-- The hard-reset value of every register (R280), for a block with parameters `c` and a host that has `ins` still to
present. No slot has a value, and there is no response (`rsp_valid = 0`). -/
def State.hardResetValue (c : Config) (ins : List HostInput) : State where
  cfg := c
  inputs := ins
  rsp := none
  cfgOk := false
  cfgErr := false
  qCap := 0#16
  envMin := c.center
  envMax := c.center
  level := false
  cnt := 0#32
  period := 0#64
  limit := 0#64
  tic := 0
  tics := Vector.replicate 80 0#64
  biphaseState := .mid
  biphasePrev := false
  bitCnt := 0
  frame := Vector.replicate 10 0#8
  syncWord := 0#16
  frameStart := 0#64
  lastBitPos := 0#64
  lastBitValid := false
  pos := 0#64
  qWr := 0#16
  qRd := 0#16
  qCount := 0#16
  slots := []

/-- The machine right after reset (R280), with the parameter values of R10 and nothing presented by the host. -/
def State.reset : State := State.hardResetValue defaultConfig []

end Sys2Proof.Machine
end

