-- ==== Sys2Proof/Machine/Flags.lean ====
section
/-!
DEFINITION. Every one-bit computation of the spec: the change test (40_level_tracker.md R114), the classification and the
silence test (41_edge_classifier.md R131 to R133), the parity table (42_bit_synchronizer.md R152), the sync matches
(R158, R159), the INIT check (44_host_commands.md R211) and the level output `frame_avail` (60_exceptions.md R262).
-/

namespace Sys2Proof.Machine

/-- The change test (R114), with the thresholds of the envelope `lo`, `hi` (R113). -/
def levelChange (c : Config) (level : Bool) (lo hi v : Sample) : Bool :=
  (level && decide (thrHi c hi < sampleInt v)) || (!level && decide (sampleInt v < thrLo c lo))

/-- A long interval: `cnt * ONE > L` (R131). -/
def isLong (cnt : Count) (limit : Raw) : Bool := decide (limit.toNat < countRaw cnt.toNat)

/-- Silence: `c * ONE > 4 * P and c > SILENCE_MIN` (R133). -/
def isSilence (c : Config) (p : Raw) (n : Nat) : Bool :=
  decide (4 * p.toNat < countRaw n) && decide (c.silenceMin < n)

/-- The parity and the decoded bit of a tick, the table of R152. -/
def parityStep (level prev : Bool) (st : Parity) : Parity × Option Bool :=
  if level = prev then (.boundary, some false)
  else match st with
    | .boundary => (.mid, none)
    | .mid => (.boundary, some true)

/-- `sync_word = SYNC_FWD` (R158). -/
def syncForward (c : Config) (w : BitVec 16) : Bool := w == c.syncFwd

/-- `sync_word = SYNC_REV` (R159). -/
def syncReverse (c : Config) (w : BitVec 16) : Bool := w == c.syncRev

/-- INIT is valid when `seed != 0` and `1 <= cap <= QUEUE_MAX` (R82, R211). -/
def initValid (c : Config) (seed : BitVec 48) (cap : BitVec 16) : Bool :=
  decide (seed ≠ 0#48) && decide (1 ≤ cap.toNat) && decide (cap.toNat ≤ c.queueMax)

/-- `frame_avail = (cfg_ok = 1 and q_count != 0)` (R196, R262). -/
def State.frameAvail (s : State) : Bool := s.cfgOk && decide (s.qCount ≠ 0#16)

end Sys2Proof.Machine
end

