-- ==== Sys2Proof/Machine/Volume.lean ====
section
/-!
DEFINITION. The volume function (45_volume_table.md R240 to R243): the constant table of IEEE 754 binary64 bit patterns
indexed by `env_max - env_min`. The bit patterns are normative (R243).
-/

namespace Sys2Proof.Machine

/-- Entries 0 to 15 of the table of R243. -/
def volRow0 : List (BitVec 64) :=
  [0xFFF0000000000000#64, 0xC04810BE2C32BCDE#64, 0xC0450E1B2799D1CE#64, 0xC0434B4FFCB6436F#64,
   0xC0420B782300E6BF#64, 0xC041136130CBA7EE#64, 0xC04048ACF81D585F#64, 0xC03F3A957139FA15#64,
   0xC03E11AA3CCFF75D#64, 0xC03D0BC39A7393FE#64, 0xC03C217C586579BC#64, 0xC03B4D8E200082F2#64,
   0xC03A8C13E708DA9E#64, 0xC039DA1883BA62D9#64, 0xC039354F680823F5#64, 0xC0389BE6029E5CFD#64]

/-- Entries 16 to 31 of the table of R243. -/
def volRow1 : List (BitVec 64) :=
  [0xC0380C64339E213E#64, 0xC037859655C71CBF#64, 0xC037067D9141BDDF#64, 0xC0368E446CEAC868#64,
   0xC0361C364F33A39D#64, 0xC035AFB912410736#64, 0xC035484816CEACD3#64, 0xC034E5706FA281DD#64,
   0xC03486CDDDD7047E#64, 0xC0342C086AC925FC#64, 0xC033D4D27A888CBA#64, 0xC03380E73B7AA11F#64,
   0xC03330095ED64DD6#64, 0xC032E2020A9F3CD8#64, 0xC032969FF96C86DD#64, 0xC0324DB6BEF6F7DD#64]

/-- Entries 32 to 47 of the table of R243. -/
def volRow2 : List (BitVec 64) :=
  [0xC032071E2A6C4B1E#64, 0xC031C2B1C1079013#64, 0xC03180504C9546A0#64, 0xC0313FDB7A6BD035#64,
   0xC0310137880FE7BF#64, 0xC030C44AFB45811C#64, 0xC03088FE63B8F248#64, 0xC0304F3C24C16FFA#64,
   0xC03016F04601CD7D#64, 0xC02FC01093C5D49C#64, 0xC02F54E6121E622C#64, 0xC02EEC4124747913#64,
   0xC02E86041B39AD66#64, 0xC02E2213474AD43C#64, 0xC02DC054CCE1577C#64, 0xC02D60B07B5D20EE#64]

/-- Entries 48 to 63 of the table of R243. -/
def volRow3 : List (BitVec 64) :=
  [0xC02D030FA94A5CBD#64, 0xC02CA75D141CF4DB#64, 0xC02C4D84C32E9FB8#64, 0xC02BF573ED9C53C1#64,
   0xC02B9F18E2AD6D34#64, 0xC02B4A62F47A41D0#64, 0xC02AF742649195FF#64, 0xC02AA5A85264B224#64,
   0xC02A5586AB48EF6C#64, 0xC02A06D01BE3AB12#64, 0xC029B97802DACD70#64, 0xC0296D7264A89926#64,
   0xC02922B3E075617B#64, 0xC028D931A5DD2DA2#64, 0xC02890E16B8A437A#64, 0xC02849B9669028AE#64]

/-- Entries 64 to 79 of the table of R243. -/
def volRow4 : List (BitVec 64) :=
  [0xC02803B04274E9FD#64, 0xC027BEBD19D871F2#64, 0xC0277AD76FAB73E7#64, 0xC02737F728E8F686#64,
   0xC026F61486C6E100#64, 0xC026B52821531DFD#64, 0xC026752AE273F42A#64, 0xC0263616014322A9#64,
   0xC025F7E2FDBC233E#64, 0xC025BA8B9CB6B07F#64, 0xC0257E09E42755F9#64, 0xC025425817A06639#64,
   0xC0250770B50E3851#64, 0xC024CD4E71AA0695#64, 0xC02493EC371F33B5#64, 0xC0245B4520DF1BE5#64]

/-- Entries 80 to 95 of the table of R243. -/
def volRow5 : List (BitVec 64) :=
  [0xC0242354799FEEBB#64, 0xC023EC15B9035C80#64, 0xC023B5848162285D#64, 0xC0237F9C9DB9F05B#64,
   0xC0234A59FFBAB5ED#64, 0xC02315B8BDF1E5BE#64, 0xC022E1B51210CCD4#64, 0xC022AE4B574C93F2#64,
   0xC0227B7808D60126#64, 0xC0224937C06762DA#64, 0xC022178734E727FC#64, 0xC021E663391DC664#64,
   0xC021B5C8BA7DAB3C#64, 0xC02185B4BFFC09FB#64, 0xC021562468F974AF#64, 0xC0212714EC393D0F#64]

/-- Entries 96 to 111 of the table of R243. -/
def volRow6 : List (BitVec 64) :=
  [0xC020F88396E6B07E#64, 0xC020CA6DCBA75275#64, 0xC0209CD101B9489C#64, 0xC0206FAAC41D3A68#64,
   0xC02042F8B0CAF379#64, 0xC02016B877F02432#64, 0xC01FD5CFB6714F03#64, 0xC01F7F095A3F7E21#64,
   0xC01F2919A09381E9#64, 0xC01ED3FC6DCB7556#64, 0xC01E7FADC42D2B21#64, 0xC01E2C29C2C6A11B#64,
   0xC01DD96CA45BD37F#64, 0xC01D8772BE6132ED#64, 0xC01D363880020BC9#64, 0xC01CE5BA713238F5#64]

/-- Entries 112 to 127 of the table of R243. -/
def volRow7 : List (BitVec 64) :=
  [0xC01C95F531CA8659#64, 0xC01C46E578AF313F#64, 0xC01BF88812FFFDA4#64, 0xC01BAAD9E3515FF4#64,
   0xC01B5DD7E0EE4262#64, 0xC01B117F1721F46D#64, 0xC01AC5CCA489D9CE#64, 0xC01A7ABDBA6E7460#64,
   0xC01A304F9C236A78#64, 0xC019E67F9E6E30A0#64, 0xC0199D4B26F302C5#64, 0xC01954AFABA7DDBC#64,
   0xC0190CAAB24D2E75#64, 0xC018C539CFEBF06E#64, 0xC0187E5AA858F8DC#64, 0xC018380AEDBD2FC2#64]

/-- Entries 128 to 143 of the table of R243. -/
def volRow8 : List (BitVec 64) :=
  [0xC017F24860227B7B#64, 0xC017AD10CD0526AA#64, 0xC01768620EE98B65#64, 0xC017243A0CF5D15A#64,
   0xC016E096BA8F8F4F#64, 0xC0169D7616FD2301#64, 0xC0165AD62D0A948D#64, 0xC01618B512B1DCFB#64,
   0xC015D710E8C66982#64, 0xC01595E7DAA3B70C#64, 0xC01555381DDEE37B#64, 0xC01514FFF1FB13C7#64,
   0xC014D53DA0208FD5#64, 0xC01495EF7AD67661#64, 0xC0145713DDBEECD3#64, 0xC01418A92D55B03D#64]

/-- Entries 144 to 159 of the table of R243. -/
def volRow9 : List (BitVec 64) :=
  [0xC013DAADD6B0EDFE#64, 0xC0139D204F444BDE#64, 0xC0135FFF14A6087F#64, 0xC0132348AC561E39#64,
   0xC012E6FBA3875374#64, 0xC012AB168EEA247D#64, 0xC0126F980A7973F4#64, 0xC012347EB948EF94#64,
   0xC011F9C945551823#64, 0xC011BF765F54DC05#64, 0xC0118584BE8CB4AC#64, 0xC0114BF320A337F1#64,
   0xC01112C049770EEC#64, 0xC010D9EB02F6449C#64, 0xC010A1721CF6DF4C#64, 0xC01069546D10B824#64]

/-- Entries 160 to 175 of the table of R243. -/
def volRowA : List (BitVec 64) :=
  [0xC0103190CE7884F7#64, 0xC00FF44C43B811B0#64, 0xC00F86269A7EC103#64, 0xC00F18AE77B6C031#64,
   0xC00EABE1BBF9F077#64, 0xC00E3FBE51CB3196#64, 0xC00DD4422D59106E#64, 0xC00D696B4C424CF4#64,
   0xC00CFF37B55C26B7#64, 0xC00C95A5787A5FB3#64, 0xC00C2CB2AE38E5FB#64, 0xC00BC45D77C7154D#64,
   0xC00B5CA3FEB48252#64, 0xC00AF58474BF41D2#64, 0xC00A8EFD13A39EC9#64, 0xC00A290C1CED32A2#64]

/-- Entries 176 to 191 of the table of R243. -/
def volRowB : List (BitVec 64) :=
  [0xC009C3AFD9C9539C#64, 0xC0095EE69ADACDA0#64, 0xC008FAAEB80EDA6A#64, 0xC008970690734E42#64,
   0xC00833EC8A0DEEF5#64, 0xC007D15F11B4EB2D#64, 0xC0076F5C9AE86892#64, 0xC0070DE39FAD1F8F#64,
   0xC006ACF2A067FBF3#64, 0xC0064C8823BAB9E0#64, 0xC005ECA2B66176EF#64, 0xC0058D40EB112FAA#64,
   0xC0052E615A5721BF#64, 0xC004D002A2790BBE#64, 0xC00472236756433F#64, 0xC00414C252499ACC#64]

/-- Entries 192 to 207 of the table of R243. -/
def volRowC : List (BitVec 64) :=
  [0xC003B7DE120C10FA#64, 0xC0035B755A984270#64, 0xC002FF86E50E98D6#64, 0xC002A4116F9A30D0#64,
   0xC0024913BD567171#64, 0xC001EE8C96354FAE#64, 0xC001947AC6E638A3#64, 0xC0013ADD20BD9D97#64,
   0xC000E1B2799D1CE6#64, 0xC00088F9ABDC431F#64, 0xC00030B19631DFCC#64, 0xBFFFB1B2373BD306#64,
   0xBFFF02DE46A7DA10#64, 0xBFFE54E5314C06DD#64, 0xBFFDA7C4D5E0968A#64, 0xBFFCFB7B1B09C1F5#64]

/-- Entries 208 to 223 of the table of R243. -/
def volRowD : List (BitVec 64) :=
  [0xBFFC5005EF30A5AB#64, 0xBFFBA563485D19DA#64, 0xBFFAFB912410735E#64, 0xBFFA528D8721274A#64,
   0xBFF9AA567D974A8B#64, 0xBFF902EA1A89E755#64, 0xBFF85C4677FD2273#64, 0xBFF7B669B6C12A93#64,
   0xBFF71151FE51EC03#64, 0xBFF66CFD7CB78353#64, 0xBFF5C96A666769BB#64, 0xBFF52696F6265604#64,
   0xBFF484816CEACD28#64, 0xBFF3E32811C05DC6#64, 0xBFF3428931AB81D9#64, 0xBFF2A2A31F8E2235#64]

/-- Entries 224 to 239 of the table of R243. -/
def volRowE : List (BitVec 64) :=
  [0xBFF20374340CB769#64, 0xBFF164FACD7403D9#64, 0xBFF0C7354F9F6300#64, 0xBFF02A2223DFA9D4#64,
   0xBFEF1B7F71C5292D#64, 0xBFEDE41905357C72#64, 0xBFECAE0DF4503BAE#64, 0xBFEB795B3B820D75#64,
   0xBFEA45FDE1374F1B#64, 0xBFE913F2F5B00ADD#64, 0xBFE7E33792D4DF72#64, 0xBFE6B3C8DC0CD2DD#64,
   0xBFE585A3FE140A79#64, 0xBFE458C62ED36272#64, 0xBFE32D2CAD38DF08#64, 0xBFE202D4C110F21F#64]

/-- Entries 240 to 255 of the table of R243. -/
def volRowF : List (BitVec 64) :=
  [0xBFE0D9BBBAE08FCA#64, 0xBFDF63BDE780194C#64, 0xBFDD16779A6D8216#64, 0xBFDACB9F622ED842#64,
   0xBFD8833022BAA46A#64, 0xBFD63D24D0142347#64, 0xBFD3F9786E0853DB#64, 0xBFD1B8260FEC6134#64,
   0xBFCEF251B0BABED3#64, 0xBFCA78F7F202A734#64, 0xBFC604356492FDDE#64, 0xBFC19400A66BC9F8#64,
   0xBFBA50A0E468176E#64, 0xBFB182373D8B133D#64, 0xBFA179647AEBA1BE#64, 0x0000000000000000#64]

/-- The 256-entry table of R243, entry `d` at index `d`. -/
def volTable : List (BitVec 64) :=
  volRow0 ++ volRow1 ++ volRow2 ++ volRow3 ++ volRow4 ++ volRow5 ++ volRow6 ++ volRow7
  ++ volRow8 ++ volRow9 ++ volRowA ++ volRowB ++ volRowC ++ volRowD ++ volRowE ++ volRowF

/-- Negative infinity, the value where `max <= min` (R94, R240). -/
def volNegInf : BitVec 64 := 0xFFF0000000000000#64

/-- `vol_db(d)` (R240, R243). The index never exceeds 255: it is a difference of two bytes. -/
def volDb (d : Nat) : BitVec 64 := volTable.getD d volNegInf

/-- The volume of an envelope: `vol_db(env_max - env_min)` (R115).
The subtraction is truncated at 0, so an envelope with `max <= min` has volume negative infinity, as R240 says
(DEDUCED, assumption log 13). -/
def volume (lo hi : Sample) : BitVec 64 := volDb (hi.toNat - lo.toNat)

end Sys2Proof.Machine
end

