-- ==== Sys2Proof/Machine/Ops.lean ====
section
/-!
DEFINITION. The named operations over the registers, the tic ring and the queue memory; the response of a command, which
is how this block reports an error (60_exceptions.md R255, R258: there is no trap entry); and hard reset
(70_reset_and_hazards.md R280).

Every change of state in the model goes through one of these.
-/

namespace Sys2Proof.Machine

/-- Reading a slot: its record, or no value where its contents are unspecified (R16 `SlotRead`, R43). -/
def Memory.read : Memory → Nat → Option FrameRecord
  | [], _ => none
  | (a, q) :: m, i => if a = i then some q else Memory.read m i

/-- Writing a whole record into a slot (R16 `SlotWrite`, R67), keeping the canonical form. -/
def Memory.write : Memory → Nat → FrameRecord → Memory
  | [], i, r => [(i, r)]
  | (a, q) :: m, i, r =>
    if i < a then (i, r) :: (a, q) :: m
    else if i = a then (i, r) :: m
    else (a, q) :: Memory.write m i r

/-- The end of a command: `respond <Status>(data)` (R16, R87). An error status is reported here and nowhere else: no
state is saved, no mode changes and control goes nowhere (R258). -/
def State.respond (s : State) (st : Status) (rec : Option FrameRecord) : State :=
  { s with rsp := some { status := st, record := rec } }

/-- A response without a record; `rsp_record` is then all zeros (R87). -/
def State.respondStatus (s : State) (st : Status) : State := s.respond st none

/-- Hard reset: every register takes its hard-reset value and no response is given (R280). The parameters are not state
and what the host has still to present is not touched. -/
def State.hardReset (s : State) : State := State.hardResetValue s.cfg s.inputs

/-- The state after a failed INIT, before its response (R211, R282): hard reset, then `cfg_err <- 1`.
R16's sentence that an error changes no state gives way to R211 and R256 (DEDUCED, assumption log 15). -/
def State.failInit (s : State) : State := { s.hardReset with cfgErr := true }

/-- The state after a valid INIT, before its response (R211, R281). The slots are not changed (R211). -/
def State.construct (s : State) (seed : BitVec 48) (cap : BitVec 16) : State :=
  { s.hardReset with
    slots := s.slots
    cfgOk := true
    cfgErr := false
    qCap := cap
    period := seedRaw seed
    limit := limitOf (seedRaw seed) }

/-- `pos <- p` (R212). -/
def State.setPos (s : State) (p : Position) : State := { s with pos := p }

/-- `env_min <- lo` and `env_max <- hi`. -/
def State.setEnvelope (s : State) (lo hi : Sample) : State := { s with envMin := lo, envMax := hi }

/-- `env_min` and `env_max` after decay and clamp by the sample (R111, R112). -/
def State.trackEnvelope (s : State) (v : Sample) : State :=
  s.setEnvelope (envMinNext s.cfg s.envMin v) (envMaxNext s.cfg s.envMax v)

/-- `RingWrite(tic, P)` and `tic <- (tic + 1) mod N` (R150). -/
def State.ringWrite (s : State) : State :=
  { s with tics := s.tics.set s.tic.val s.period s.tic.isLt, tic := nextTic s.tic }

/-- `biphase_state <- p` (R152). -/
def State.setParity (s : State) (p : Parity) : State := { s with biphaseState := p }

/-- `biphase_prev <- level` (R153). -/
def State.rememberLevel (s : State) : State := { s with biphasePrev := s.level }

/-- The start of a frame (R154): the payload register is cleared and `frame_start` is the previous bit's position if
there has been one since INIT, else the floor of `bpos - period`. -/
def State.startFrame (s : State) (bpos : Position) : State :=
  { s with
    frame := Vector.replicate 10 0#8
    frameStart := if s.lastBitValid then s.lastBitPos else backByPeriod bpos s.period }

/-- `last_bit_pos <- bpos` and `last_bit_valid <- 1` (R155). -/
def State.markBit (s : State) (bpos : Position) : State := { s with lastBitPos := bpos, lastBitValid := true }

/-- The shift-resync (R156). -/
def State.resync (s : State) : State :=
  { s with frame := shift1 s.frame, frameStart := advanceByPeriod s.frameStart s.period, bitCnt := 79 }

/-- Taking the bit in (R157). -/
def State.takeBit (s : State) (b : Bool) : State :=
  { s with
    syncWord := shiftIn s.syncWord b
    frame := if b then setPayloadBit s.frame (storeIndex s.bitCnt) else s.frame
    bitCnt := (storeIndex s.bitCnt).succ }

/-- `bit_cnt <- 0` (R133, R160). -/
def State.clearBitCnt (s : State) : State := { s with bitCnt := 0 }

/-- `period <- p` and `limit <- l`, written in one step (R135). -/
def State.setPeriod (s : State) (p l : Raw) : State := { s with period := p, limit := l }

/-- `period` and `limit` after a valid transition with classified count `n` (R134, R135). -/
def State.updatePeriod (s : State) (n : Nat) : State :=
  s.setPeriod (nextPeriod s.period n) (limitOf (nextPeriod s.period n))

/-- The end of EDGE: `cnt <- 0` and `level <- 1 - level` (R136). -/
def State.endEdge (s : State) : State := { s with cnt := 0#32, level := !s.level }

/-- The end of SAMPLE: `cnt <- min(cnt + 1, CNT_MAX)` and `pos <- wrap64(pos + 1)` (R137, R213). -/
def State.endSample (s : State) : State := { s with cnt := nextCnt s.cnt, pos := s.pos + 1#64 }

/-- The record PUSH builds from BIT's operands and the state (R191). -/
def State.makeRecord (s : State) (payload : Payload) (offStart offEnd : Position) (reverse : BitVec 64) : FrameRecord where
  payload := payload
  offStart := offStart
  offEnd := offEnd
  reverse := reverse
  volume := volume s.envMin s.envMax
  sampleMin := s.envMin
  sampleMax := s.envMax
  hist := Vector.ofFn fun i : Fin 80 => s.tics[(s.tic.val + i.val) % 80]'(Nat.mod_lt _ (by decide))

/-- The queue part of PUSH (R191, R193): the record goes to the slot at `q_wr`, `q_wr` moves on, and either `q_count`
grows or, in a full queue, `q_rd` moves on too. -/
def State.enqueue (s : State) (r : FrameRecord) : State :=
  { s with
    slots := s.slots.write s.qWr.toNat r
    qWr := nextSlot s.qWr s.qCap
    qRd := if s.qCount = s.qCap then nextSlot s.qRd s.qCap else s.qRd
    qCount := if s.qCount = s.qCap then s.qCount else s.qCount + 1#16 }

/-- The queue part of a POP that found a record (R192): `q_rd` moves on and `q_count` falls by 1. The slot is not
cleared. -/
def State.dequeue (s : State) : State := { s with qRd := nextSlot s.qRd s.qCap, qCount := s.qCount - 1#16 }

/-- The state with other inputs still to be presented by the host. -/
def State.withInputs (s : State) (ins : List HostInput) : State := { s with inputs := ins }

/-- A step that accepts no command gives no response (R80 `rsp_valid`, R218). -/
def State.noResponse (s : State) : State := { s with rsp := none }

end Sys2Proof.Machine
end

