-- ==== Sys2Proof/Machine/Queue.lean ====
section
/-!
DEFINITION. The Frame Queue: operation PUSH and the queue part of POP (43_frame_queue.md R190 to R193).
-/

namespace Sys2Proof.Machine

/-- PUSH (R191): build the record from the operands, the ring and the envelope, and enqueue it. It always succeeds. -/
def push (s : State) (payload : Payload) (offStart offEnd : Position) (reverse : BitVec 64) : State :=
  s.enqueue (s.makeRecord payload offStart offEnd reverse)

/-- The queue part of POP (R192): `EMPTY`, or the oldest unread record. A slot that `q_count` counts as unread and that
holds no value is met by no reachable state (R43). -/
def popQueue (s : State) : Host.Outcome State Fault Refusal :=
  if s.qCount = 0#16 then .next (s.respondStatus .empty)
  else
    match s.slots.read s.qRd.toNat with
    | some rec => .next (s.dequeue.respond .ok (some rec))
    | none => .fault .unwrittenSlot

end Sys2Proof.Machine
end

