-- ==== Sys2Proof/Machine/Bit.lean ====
section
/-!
DEFINITION. The Bit Synchronizer: operations BIT (42_bit_synchronizer.md R154 to R160) and TICK (R150 to R153).
-/

namespace Sys2Proof.Machine

/-- The publication of a forward frame (R158). -/
def publishForward (s : State) (bpos : Position) : State :=
  push s s.frame s.frameStart (bpos - 1#64) 0#64

/-- The publication of a reverse frame (R159). -/
def publishReverse (s : State) (bpos : Position) : State :=
  push s (unreverse s.frame) (s.frameStart - reverseShift s.period) (bpos - 1#64 - reverseShift s.period)
    (reverseSpan s.cfg s.period)

/-- The forward sync test (R158) and the clearing of the count (R160). -/
def finishForward (s : State) (bpos : Position) : State :=
  if syncForward s.cfg s.syncWord then (if s.bitCnt = 80 then publishForward s bpos else s).clearBitCnt else s

/-- The reverse sync test (R159) and the clearing of the count (R160). -/
def finishReverse (s : State) (bpos : Position) : State :=
  if syncReverse s.cfg s.syncWord then (if s.bitCnt = 80 then publishReverse s bpos else s).clearBitCnt else s

/-- The first half of BIT: the start of a frame (R154), the bit's position (R155) and the shift-resync (R156). -/
def makeRoom (s : State) (bpos : Position) : State :=
  let started := (if s.bitCnt = 0 then s.startFrame bpos else s).markBit bpos
  if started.bitCnt = 80 then started.resync else started

/-- BIT, the frame assembler, for one decoded bit `b` at position `bpos` (R154 to R160, in that order). -/
def bit (s : State) (b : Bool) (bpos : Position) : State :=
  finishReverse (finishForward ((makeRoom s bpos).takeBit b) bpos) bpos

/-- The bit a tick decoded, if any, given to BIT (R152). -/
def feedBit (s : State) (b : Option Bool) (bpos : Position) : State :=
  match b with
  | none => s
  | some v => bit s v bpos

/-- TICK (R150 to R153), for the classified count `n` of the interval that ended and whether it was short. -/
def tick (s : State) (n : Nat) (short : Bool) : State :=
  let bpos := tickPosition s.pos n s.period short
  let dec := parityStep s.level s.biphasePrev s.biphaseState
  (feedBit (s.ringWrite.setParity dec.1) dec.2 bpos).rememberLevel

end Sys2Proof.Machine
end

