-- ==== Sys2Proof/Machine/Edge.lean ====
section
/-!
DEFINITION. The Edge Classifier and Period Estimator: operation EDGE (41_edge_classifier.md R130 to R136).
-/

namespace Sys2Proof.Machine

/-- The ticks of an interval: two for a long one, with the unmodified count (R131); one for a short one, with the doubled
count (R132). -/
def edgeTicks (s : State) (long : Bool) (n : Nat) : State :=
  if long then tick (tick s n false) n false else tick s n true

/-- Silence rejection, or the period update (R133 to R135). No tick writes `period`. -/
def edgePeriod (s : State) (n : Nat) : State :=
  if isSilence s.cfg s.period n then s.clearBitCnt else s.updatePeriod n

/-- EDGE (R130): classify, tick, judge the interval, then clear `cnt` and toggle `level`. -/
def edge (s : State) : State :=
  let long := isLong s.cnt s.limit
  let n := classifiedCount long s.cnt
  (edgePeriod (edgeTicks s long n) n).endEdge

end Sys2Proof.Machine
end

