-- ==== Sys2Proof/Machine/Level.lean ====
section
/-!
DEFINITION. The Level Tracker, operation LEVEL (40_level_tracker.md R110 to R114), and the per-sample pipeline of SAMPLE
(44_host_commands.md R213).
-/

namespace Sys2Proof.Machine

/-- Does the sample signal a change? The thresholds are taken from the envelope after decay and clamp (R113, R114). -/
def levelSignals (s : State) (v : Sample) : Bool :=
  levelChange s.cfg s.level (envMinNext s.cfg s.envMin v) (envMaxNext s.cfg s.envMax v) v

/-- One sample through LEVEL, EDGE if a change is signalled, and the counters (R213). -/
def processSample (s : State) (v : Sample) : State :=
  (if levelSignals s v then edge (s.trackEnvelope v) else s.trackEnvelope v).endSample

end Sys2Proof.Machine
end

