-- ==== Sys2Proof/Machine/Commands.lean ====
section
/-!
DEFINITION. The meanings of the four host commands (44_host_commands.md R210 to R214).

An error status is a response after which the block goes on (60_exceptions.md R255 to R259), so it is a next state.
-/

namespace Sys2Proof.Machine

/-- INIT (R211): construct the decoder, or refuse the parameters and leave the block unconfigured. -/
def execInit (seed : BitVec 48) (cap : BitVec 16) (s : State) : Host.Outcome State Fault Refusal :=
  if initValid s.cfg seed cap then .next ((s.construct seed cap).respondStatus .ok)
  else .next (s.failInit.respondStatus .configError)

/-- SETPOS (R212). -/
def execSetpos (p : Position) (s : State) : Host.Outcome State Fault Refusal :=
  if s.cfgOk then .next ((s.setPos p).respondStatus .ok) else .next (s.respondStatus .notConfigured)

/-- SAMPLE (R213). -/
def execSample (v : Sample) (s : State) : Host.Outcome State Fault Refusal :=
  if s.cfgOk then .next ((processSample s v).respondStatus .ok) else .next (s.respondStatus .notConfigured)

/-- POP (R214). -/
def execPop (s : State) : Host.Outcome State Fault Refusal :=
  if s.cfgOk then popQueue s else .next (s.respondStatus .notConfigured)

end Sys2Proof.Machine
end

