-- ==== Sys2Proof/Machine/Illegal.lean ====
section
/-!
DEFINITION. The reserved opcodes (30_encoding.md R86, 44_host_commands.md R215): each responds `ILLEGAL` and changes no
register, whatever `cfg_ok` is. One definition per row of the opcode table, over one shared operation.
-/

namespace Sys2Proof.Machine

/-- An illegal command word: the response `ILLEGAL`, and no register changes (R215). -/
def respondIllegal (s : State) : Host.Outcome State Fault Refusal := .next (s.respondStatus .illegal)

/-- Reserved `op = 0x0`; the argument is ignored (R86, R215). -/
def execIllegalOp0 (_x : Arg) (s : State) : Host.Outcome State Fault Refusal := respondIllegal s

/-- Reserved `op = 0x5`; the argument is ignored (R86, R215). -/
def execIllegalOp5 (_x : Arg) (s : State) : Host.Outcome State Fault Refusal := respondIllegal s

/-- Reserved `op = 0x6`; the argument is ignored (R86, R215). -/
def execIllegalOp6 (_x : Arg) (s : State) : Host.Outcome State Fault Refusal := respondIllegal s

/-- Reserved `op = 0x7`; the argument is ignored (R86, R215). -/
def execIllegalOp7 (_x : Arg) (s : State) : Host.Outcome State Fault Refusal := respondIllegal s

/-- Reserved `op = 0x8`; the argument is ignored (R86, R215). -/
def execIllegalOp8 (_x : Arg) (s : State) : Host.Outcome State Fault Refusal := respondIllegal s

/-- Reserved `op = 0x9`; the argument is ignored (R86, R215). -/
def execIllegalOp9 (_x : Arg) (s : State) : Host.Outcome State Fault Refusal := respondIllegal s

/-- Reserved `op = 0xA`; the argument is ignored (R86, R215). -/
def execIllegalOpA (_x : Arg) (s : State) : Host.Outcome State Fault Refusal := respondIllegal s

/-- Reserved `op = 0xB`; the argument is ignored (R86, R215). -/
def execIllegalOpB (_x : Arg) (s : State) : Host.Outcome State Fault Refusal := respondIllegal s

/-- Reserved `op = 0xC`; the argument is ignored (R86, R215). -/
def execIllegalOpC (_x : Arg) (s : State) : Host.Outcome State Fault Refusal := respondIllegal s

/-- Reserved `op = 0xD`; the argument is ignored (R86, R215). -/
def execIllegalOpD (_x : Arg) (s : State) : Host.Outcome State Fault Refusal := respondIllegal s

/-- Reserved `op = 0xE`; the argument is ignored (R86, R215). -/
def execIllegalOpE (_x : Arg) (s : State) : Host.Outcome State Fault Refusal := respondIllegal s

/-- Reserved `op = 0xF`; the argument is ignored (R86, R215). -/
def execIllegalOpF (_x : Arg) (s : State) : Host.Outcome State Fault Refusal := respondIllegal s

end Sys2Proof.Machine
end

