-- ==== Sys2Proof/Machine/Dispatch.lean ====
section
/-! DEFINITION. The dispatch of a command to its meaning (44_host_commands.md R210). -/

namespace Sys2Proof.Machine

def exec (i : Instr) (s : State) : Host.Outcome State Fault Refusal :=
  match i with
  | .init seed cap => Sys2Proof.Machine.execInit seed cap s
  | .setpos p => Sys2Proof.Machine.execSetpos p s
  | .sample v => Sys2Proof.Machine.execSample v s
  | .pop => Sys2Proof.Machine.execPop s
  | .illegalOp0 x => Sys2Proof.Machine.execIllegalOp0 x s
  | .illegalOp5 x => Sys2Proof.Machine.execIllegalOp5 x s
  | .illegalOp6 x => Sys2Proof.Machine.execIllegalOp6 x s
  | .illegalOp7 x => Sys2Proof.Machine.execIllegalOp7 x s
  | .illegalOp8 x => Sys2Proof.Machine.execIllegalOp8 x s
  | .illegalOp9 x => Sys2Proof.Machine.execIllegalOp9 x s
  | .illegalOpA x => Sys2Proof.Machine.execIllegalOpA x s
  | .illegalOpB x => Sys2Proof.Machine.execIllegalOpB x s
  | .illegalOpC x => Sys2Proof.Machine.execIllegalOpC x s
  | .illegalOpD x => Sys2Proof.Machine.execIllegalOpD x s
  | .illegalOpE x => Sys2Proof.Machine.execIllegalOpE x s
  | .illegalOpF x => Sys2Proof.Machine.execIllegalOpF x s

end Sys2Proof.Machine
end

