-- ==== Sys2Proof/WellFormed.lean ====
section
/-!
DEFINITION. Well-formedness of a configuration (00_scope.md R11).

An `Instr` has no ill-formed terms: its operand types are exactly the argument fields of R82 to R86, so there is
nothing to check on one, and statements about encodings hold for every `Instr`.
What can be ill-formed is a configuration: "a model refuses any other configuration" (R11); `step` refuses it.
-/

namespace Sys2Proof.Config

/-- `N = 8 * NB` (R11). -/
def frameFits : Bool := frameBits == 8 * payloadBytes

/-- `SYNC_BITS = 16 <= N` (R11). -/
def syncFits : Bool := syncBits == 16 && decide (syncBits ≤ frameBits)

/-- `SAMPLE_FS = 2^SAMPLE_BITS - 1` (R11). -/
def fullScaleFits : Bool := sampleFs == 2 ^ sampleBits - 1

/-- `F` a multiple of 2 (R11), and `ONE = 2^F` (R15). -/
def fractionFits : Bool := fracBits % 2 == 0 && one == 2 ^ fracBits

/-- `0 < CENTER <= SAMPLE_FS` (R11). -/
def centerOk (c : Config) : Bool := decide (0 < c.center.toNat) && decide (c.center.toNat ≤ sampleFs)

/-- `QUEUE_MAX >= 1` (R11). -/
def queueMaxOk (c : Config) : Bool := decide (1 ≤ c.queueMax)

/-- `SYNC_REV != SYNC_FWD` (R11); `SYNC_REV = bitrev16(SYNC_FWD)` holds by the definition of `syncRev`. -/
def syncOk (c : Config) : Bool := c.syncRev != c.syncFwd

/-- The constraints of R11 on the parameters of a `Config` and on the fixed ones. `SILENCE_MIN >= 0` is its type. -/
def wellFormed (c : Config) : Bool :=
  frameFits && syncFits && fullScaleFits && fractionFits && c.centerOk && c.queueMaxOk && c.syncOk

end Sys2Proof.Config
end

