-- ==== Sys2Proof/Machine/Accept.lean ====
section
/-!
DEFINITION. What a step does with what the host presents: accept and execute a command word (44_host_commands.md R210),
take the hard reset (70_reset_and_hazards.md R280), or idle (R218); and the refusal of an ill-formed configuration
(00_scope.md R11).
-/

namespace Sys2Proof.Machine

/-- An accepted command word: decoded and executed, or answered `ILLEGAL` where it selects no row of the opcode table
(R86, R210; DEDUCED, assumption log 14). -/
def acceptWord (w : CmdWord) (s : State) : Host.Outcome State Fault Refusal :=
  match decode w with
  | .ok i => exec i s
  | .error _ => respondIllegal s

/-- One input of the host: the next one it presents, or none. With none presented no register changes (R218).
A hard reset stands between two commands (DEDUCED, assumption log 6). -/
def serve (s : State) : Host.Outcome State Fault Refusal :=
  match s.inputs with
  | [] => .next s.noResponse
  | .command w :: rest => acceptWord w (s.withInputs rest)
  | .hardReset :: rest => .next (s.withInputs rest).hardReset

/-- One step; a configuration that breaks R11 is refused (DESIGN CHOICE, assumption log 8). -/
def stepOnce (s : State) : Host.Outcome State Fault Refusal :=
  if s.cfg.wellFormed then serve s else .refused .configIllFormed

/-- The state whose host presents the word next, before whatever it had still to present. -/
def presentWord (s : State) (w : CmdWord) : State := s.withInputs (.command w :: s.inputs)

end Sys2Proof.Machine
end

