-- ==== Sys2Proof/Machine/Step.lean ====
section
/-! DEFINITION. The step of LTCDEC: one accepted command, one hard reset, or one idle step (R80, R210, R218, R280). -/

namespace Sys2Proof.Machine

/-- One step of the machine: one step is one accepted command, and there is no clock (DESIGN CHOICE, assumption
log 12). -/
def step (s : State) : Host.Outcome State Fault Refusal := stepOnce s

/-- The state whose next step accepts the given table word (DESIGN CHOICE, assumption log 2 and 3). -/
def State.withFetchWord (s : State) (nbits w : Nat) : State := presentWord s (portWord nbits w)

end Sys2Proof.Machine
end

