-- ==== Sys2Proof/Machine/Block.lean ====
section
/-!
DEFINITION. Sequences of commands: the pseudo-command DECODE_BLOCK (30_encoding.md R98, 44_host_commands.md R216) and the
execution of commands one after another in the order given (20_memory.md R70).
-/

namespace Sys2Proof.Machine

/-- `DECODE_BLOCK samples, posinfo`: SETPOS, then one SAMPLE per sample (R98). -/
def decodeBlock (p : Position) (vs : List Sample) : List Instr := .setpos p :: vs.map .sample

/-- Commands executed one after another, stopping at the first fault or refusal (R70). -/
def execAll : List Instr → State → Host.Outcome State Fault Refusal
  | [], s => .next s
  | i :: is, s =>
    match exec i s with
    | .next t => execAll is t
    | .fault r => .fault r
    | .refused r => .refused r

end Sys2Proof.Machine
end

