-- ==== Sys2Proof/Machine/Record.lean ====
section
/-!
DEFINITION. The canonical byte layout of a frame record (30_encoding.md R93) and the response outputs of the command port
(R80, R87; 60_exceptions.md R255).
-/

namespace Sys2Proof.Machine

/-- A 64-bit field as eight bytes, least significant first (R65, R93). -/
def leBytes (v : BitVec 64) : List Byte := (List.range 8).map fun k => v.extractLsb' (8 * k) 8

/-- The 684 bytes of a record (R93). -/
def FrameRecord.toBytes (r : FrameRecord) : List Byte :=
  r.payload.toList ++ leBytes r.offStart ++ leBytes r.offEnd ++ leBytes r.reverse ++ leBytes r.volume
    ++ [r.sampleMin, r.sampleMax] ++ r.hist.toList.flatMap leBytes

/-- The 3-bit status code (R87, R255). -/
def Status.code : Status → BitVec 3
  | .ok => 0#3
  | .empty => 1#3
  | .notConfigured => 2#3
  | .configError => 3#3
  | .illegal => 4#3

/-- Is the status in the error class (R87)? -/
def Status.isError : Status → Bool
  | .ok => false
  | .empty => false
  | .notConfigured => true
  | .configError => true
  | .illegal => true

/-- The bytes on `rsp_record`: the record's, or all zeros where the response carries none (R80, R87). -/
def Response.recordBytes (r : Response) : List Byte :=
  match r.record with
  | some rec => rec.toBytes
  | none => List.replicate 684 0#8

/-- The number whose little-endian bytes are `bs`. -/
def leNat : List Byte → Nat
  | [] => 0
  | b :: bs => b.toNat + 256 * leNat bs

/-- `rsp_valid` (R80): the last step accepted a command and responded. -/
def State.rspValid (s : State) : Bool := s.rsp.isSome

/-- `rsp_status` (R80), where `rsp_valid` is 1. -/
def State.rspStatus (s : State) : Option (BitVec 3) := s.rsp.map fun r => r.status.code

/-- `rsp_record` (R80), where `rsp_valid` is 1: 5472 bits, byte 0 in bits 7:0 (R93). -/
def State.rspRecord (s : State) : Option (BitVec 5472) := s.rsp.map fun r => BitVec.ofNat 5472 (leNat r.recordBytes)

end Sys2Proof.Machine
end

