-- ==== Sys2Proof/Safety.lean ====
section
/-!
DEFINITION. The invariant of LTCDEC (10_state.md R45 and the derived sentences of R21, R22, R28, R35, R38, R43), and the
terms in which claims speak of runs, samples and records.
-/

namespace Sys2Proof

open Machine

/-- `env_min <= CENTER <= env_max` (R45(c), R116). -/
structure EnvelopeOk (s : State) : Prop where
  lo : s.envMin.toNat ≤ s.cfg.center.toNat
  hi : s.cfg.center.toNat ≤ s.envMax.toNat

/-- The period and its limit: below `2^49` always (R28, R138(c)), and `L = floor(3 * P / 4)` (R45(g)). -/
structure PeriodOk (s : State) : Prop where
  bound : s.period.toNat < 2 ^ 49
  limit : s.limit.toNat = 3 * s.period.toNat / 4

/-- The queue registers of a configured block (R23, R45(d), R45(f)); every slot that counts as unread holds a record
(R43). -/
structure QueueOk (s : State) : Prop where
  cap_pos : 1 ≤ s.qCap.toNat
  cap_max : s.qCap.toNat ≤ s.cfg.queueMax
  wr : s.qWr.toNat < s.qCap.toNat
  rd : s.qRd.toNat < s.qCap.toNat
  count : s.qCount.toNat ≤ s.qCap.toNat
  ring : s.qWr.toNat = (s.qRd.toNat + s.qCount.toNat) % s.qCap.toNat
  unread : ∀ k, k < s.qCount.toNat → (s.slots.read ((s.qRd.toNat + k) % s.qCap.toNat)).isSome

/-- The queue memory: in canonical form, and no slot beyond `QUEUE_MAX` exists (R43, R60). -/
structure SlotsOk (s : State) : Prop where
  wf : s.slots.wf
  bound : ∀ e ∈ s.slots, e.1 < s.cfg.queueMax

/-- The payload register: bits at positions `>= bit_cnt` are 0 while a frame is being assembled.
R35 says so for every `bit_cnt`; after a silence or a sync match (`bit_cnt = 0`) the register keeps its bits until the
next bit clears it (R133, R154), so here it is said for `bit_cnt != 0` (DEDUCED, assumption log 7). -/
def PayloadOk (s : State) : Prop :=
  s.bitCnt ≠ 0 → ∀ p : Fin 80, s.bitCnt.val ≤ p.val → payloadBit s.frame p = false

/-- The sync window and the payload register agree: bit `j` of `sync_word` is the `j`-th most recent bit of the register
(R36, R157). -/
def WindowOk (s : State) : Prop :=
  ∀ j, j < 16 → ∀ h : j < s.bitCnt.val,
    s.syncWord.getLsbD j = payloadBit s.frame ⟨s.bitCnt.val - 1 - j, by omega⟩

/-- Bits are counted only once a bit has been decoded since INIT (R38, R155). -/
def FirstBitOk (s : State) : Prop := s.lastBitValid = false → s.bitCnt = 0

/-- An unconfigured block has every register at its hard-reset value, but for `cfg_err` (R21, R280, R282).
That no slot then has a value is the model's choice (DESIGN CHOICE, assumption log 5). -/
def UnconfiguredOk (s : State) : Prop :=
  s.cfgOk = false →
    s = { State.hardResetValue s.cfg s.inputs with cfgErr := s.cfgErr, rsp := s.rsp }

/-- `cfg_err` is 1 only in a block that the most recent INIT left unconfigured (R22, R211). -/
def ErrorOk (s : State) : Prop := s.cfgErr = true → s.cfgOk = false

/-- The invariant of LTCDEC: the configuration meets R11, and the state meets R45 and what R21, R22, R28, R35, R38 and
R43 say of it. -/
structure Invariant (s : State) : Prop where
  config : s.cfg.wellFormed = true
  envelope : EnvelopeOk s
  period : PeriodOk s
  queue : s.cfgOk = true → QueueOk s
  slots : SlotsOk s
  payload : PayloadOk s
  window : WindowOk s
  firstBit : FirstBitOk s
  unconfigured : UnconfiguredOk s
  error : ErrorOk s

/-- `env_min` after a sample `v`, in natural numbers, for a centre `c` and an old `env_min` `lo <= c`: the distance decays
by 15/16, truncated, then the sample clamps (R111, R112). -/
def specEnvMin (c lo v : Nat) : Nat := min v (c - (c - lo) * 15 / 16)

/-- `env_max` after a sample `v`, in natural numbers, for an old `env_max` `hi >= c` (R111, R112). -/
def specEnvMax (c hi v : Nat) : Nat := max v (c + (hi - c) * 15 / 16)

/-- The envelope after a sample `v` in the state `s`: its lower extreme. -/
def envLow (s : State) (v : Sample) : Nat := specEnvMin s.cfg.center.toNat s.envMin.toNat v.toNat

/-- The envelope after a sample `v` in the state `s`: its upper extreme. -/
def envHigh (s : State) (v : Sample) : Nat := specEnvMax s.cfg.center.toNat s.envMax.toNat v.toNat

/-- The sample `v` signals a level change in the state `s`: with `level = 1` it exceeds `thr_hi`, with `level = 0` it falls
below `thr_lo`, the thresholds standing halfway from the centre to the extremes after decay and clamp (R113, R114). -/
def Changes (s : State) (v : Sample) : Prop :=
  (s.level = true ∧ s.cfg.center.toNat + (envHigh s v - s.cfg.center.toNat) * 8 / 16 < v.toNat) ∨
  (s.level = false ∧ v.toNat < s.cfg.center.toNat - (s.cfg.center.toNat - envLow s v) * 8 / 16)

/-- The state EDGE finds when the sample `v` signals a change: the envelope tracked, everything else as before (R111, R112,
R213). -/
def tracked (s : State) (v : Sample) : State :=
  { s with envMin := BitVec.ofNat 8 (envLow s v), envMax := BitVec.ofNat 8 (envHigh s v) }

/-- `ceil(n / 65536)` (R15, R156). -/
def ceilOnes (n : Nat) : Nat := (n + 65535) / 65536

/-- The next step accepts the command `i` (R210). -/
def Accepts (s : State) (i : Instr) : Prop := ∃ w rest, s.inputs = .command w :: rest ∧ decode w = .ok i

/-- The next step takes the hard reset (R280). -/
def TakesHardReset (s : State) : Prop := ∃ rest, s.inputs = .hardReset :: rest

/-- The queue registers and the queue memory are the same. -/
def SameQueue (s t : State) : Prop :=
  t.qWr = s.qWr ∧ t.qRd = s.qRd ∧ t.qCount = s.qCount ∧ t.slots = s.slots

/-- The registers SAMPLE reads and writes other than the queue's: everything that decides what is decoded (R217). -/
structure DecodeView where
  cfg : Config
  cfgOk : Bool
  cfgErr : Bool
  qCap : BitVec 16
  envMin : Sample
  envMax : Sample
  level : Bool
  cnt : Count
  period : Raw
  limit : Raw
  tic : Fin 80
  tics : TicRing
  biphaseState : Parity
  biphasePrev : Bool
  bitCnt : Fin 81
  frame : Payload
  syncWord : BitVec 16
  lastBitValid : Bool
  deriving DecidableEq, Repr

/-- The decoding registers of a state, without positions and without the queue. -/
def decodeView (s : State) : DecodeView where
  cfg := s.cfg
  cfgOk := s.cfgOk
  cfgErr := s.cfgErr
  qCap := s.qCap
  envMin := s.envMin
  envMax := s.envMax
  level := s.level
  cnt := s.cnt
  period := s.period
  limit := s.limit
  tic := s.tic
  tics := s.tics
  biphaseState := s.biphaseState
  biphasePrev := s.biphasePrev
  bitCnt := s.bitCnt
  frame := s.frame
  syncWord := s.syncWord
  lastBitValid := s.lastBitValid

/-- A record without its two positions (R217). -/
def Machine.FrameRecord.unplaced (r : FrameRecord) : FrameRecord := { r with offStart := 0#64, offEnd := 0#64 }

/-- The queue memory without the positions in its records. -/
def unplacedSlots (m : Memory) : List (Nat × FrameRecord) := m.map fun e => (e.1, e.2.unplaced)

/-- A sequence of samples processed one after another (R216). -/
def processAll (s : State) (vs : List Sample) : State := vs.foldl processSample s

/-- A sequence of decoded bits with their positions, one BIT after another. -/
def bitAll (s : State) (bs : List (Bool × Position)) : State := bs.foldl (fun t e => bit t e.1 e.2) s

/-- How many samples of a sequence are signalled as a change (R117). -/
def changesIn : State → List Sample → Nat
  | _, [] => 0
  | s, v :: vs => (if levelSignals s v then 1 else 0) + changesIn (processSample s v) vs

/-- Records pushed one after another (R194). -/
def enqueueAll (s : State) (rs : List FrameRecord) : State := rs.foldl State.enqueue s

/-- The records that `n` POPs return, in order, and the state they leave; `none` if one of them returns no record
(R194). -/
def popMany : Nat → State → Option (List FrameRecord × State)
  | 0, s => some ([], s)
  | n + 1, s =>
    match exec .pop s with
    | .next t =>
      match t.rsp with
      | some ⟨.ok, some r⟩ => (popMany n t).map fun x => (r :: x.1, x.2)
      | _ => none
    | _ => none

end Sys2Proof
end

