-- ==== Sys2Proof/Certificates/Slice0/Obligations.lean ====
section
/-!
DEFINITION. The statements for the provers, from the numbered rules of spec/.
In every statement `s` is the state before and `t` the state after.
-/

open Sys2Proof Sys2Proof.Machine

/-! ## The step, the decoder and reset -/

/-- R210: a step with a command word presented runs the decoded command on the state from which the word has been
taken. -/
def Obligations.StepRunsDecodedCommand : Prop :=
  ∀ (s : State) (w : CmdWord) (rest : List HostInput) (i : Instr),
    s.cfg.wellFormed = true → s.inputs = .command w :: rest → decode w = .ok i →
      step s = exec i { s with inputs := rest }

/-- R86: a word whose `op` is `0x0` or `0x5 .. 0xF`, or that is a SAMPLE or POP with a non-zero reserved argument bit, is
answered `ILLEGAL` and changes no register. Every other word is decoded to INIT, SETPOS, SAMPLE or POP. -/
def Obligations.IllegalWordsRespondIllegal : Prop :=
  ∀ (s : State) (op : BitVec 4) (arg : Arg) (rest : List HostInput),
    s.cfg.wellFormed = true → s.inputs = .command (op ++ arg) :: rest →
      ((op = 0x0#4 ∨ 5 ≤ op.toNat ∨ (op = 0x3#4 ∧ 256 ≤ arg.toNat) ∨ (op = 0x4#4 ∧ arg ≠ 0#64)) →
        step s = .next { s with inputs := rest, rsp := some ⟨.illegal, none⟩ }) ∧
      (op = 0x1#4 → ∃ seed cap, decode (op ++ arg) = .ok (.init seed cap) ∧
        seed.toNat = arg.toNat % 2 ^ 48 ∧ cap.toNat = arg.toNat / 2 ^ 48) ∧
      (op = 0x2#4 → decode (op ++ arg) = .ok (.setpos arg)) ∧
      (op = 0x3#4 → arg.toNat < 256 → ∃ v, decode (op ++ arg) = .ok (.sample v) ∧ v.toNat = arg.toNat) ∧
      (op = 0x4#4 → arg = 0#64 → decode (op ++ arg) = .ok .pop)

/-- How a word comes to run: presented by `withFetchWord`, a word that decodes is what the next step executes, on the
state as it was. -/
def Obligations.PresentedWordIsServedNext : Prop :=
  ∀ (s : State) (nbits w : Nat) (i : Instr), s.cfg.wellFormed = true → decodeTableWord nbits w = some i →
    step (s.withFetchWord nbits w) = exec i s

/-- R218: with no command presented no register changes (and no response is given). -/
def Obligations.IdleStepChangesNoRegister : Prop :=
  ∀ s : State, s.cfg.wellFormed = true → s.inputs = [] → step s = .next { s with rsp := none }

/-- R280: the `rst` input puts every register at its hard-reset value, in any state, and gives no response. What the
slots hold is left open. -/
def Obligations.HardResetInput : Prop :=
  ∀ (s : State) (rest : List HostInput), s.cfg.wellFormed = true → s.inputs = .hardReset :: rest →
    ∃ m : Memory, step s = .next
      { cfg := s.cfg, inputs := rest, rsp := none, cfgOk := false, cfgErr := false, qCap := 0#16,
        envMin := s.cfg.center, envMax := s.cfg.center, level := false, cnt := 0#32, period := 0#64, limit := 0#64,
        tic := 0, tics := Vector.replicate 80 0#64, biphaseState := .mid, biphasePrev := false, bitCnt := 0,
        frame := Vector.replicate 10 0#8, syncWord := 0#16, frameStart := 0#64, lastBitPos := 0#64,
        lastBitValid := false, pos := 0#64, qWr := 0#16, qRd := 0#16, qCount := 0#16, slots := m }

/-- R11: which configurations are well-formed, and a step refuses any other. -/
def Obligations.IllFormedConfigurationRefused : Prop :=
  (∀ c : Config, c.wellFormed = true ↔
    Config.frameBits = 8 * Config.payloadBytes ∧ Config.syncBits = 16 ∧ Config.syncBits ≤ Config.frameBits ∧
    0 < c.center.toNat ∧ c.center.toNat ≤ Config.sampleFs ∧ Config.sampleFs = 2 ^ Config.sampleBits - 1 ∧
    1 ≤ c.queueMax ∧ c.syncRev = bitrev16 c.syncFwd ∧ c.syncRev ≠ c.syncFwd ∧
    Config.fracBits % 2 = 0 ∧ 0 ≤ c.silenceMin) ∧
  (∀ s : State, s.cfg.wellFormed = false → step s = .refused .configIllFormed)

/-- R81 to R86: decoding an encoded command gives it back, for every command and every operand. -/
def Obligations.DecodeEncodeRoundTrip : Prop := ∀ i : Instr, decode (encode i) = .ok i

/-- R81 to R86: a word that decodes to a command is that command's encoding, so no bit of a word is dropped. -/
def Obligations.EncodeDecodeRoundTrip : Prop := ∀ (w : CmdWord) (i : Instr), decode w = .ok i → encode i = w

/-- spec/opcode_table.json: a word decodes to a command exactly when it selects that command's row of the table and no
other, and is rejected exactly when it selects none. -/
def Obligations.DecoderFollowsOpcodeTable : Prop :=
  opcodeTable.length = 16 ∧
  ∀ w : CmdWord,
    (∀ i, decode w = .ok i → ∀ (k : Nat) (h : k < opcodeTable.length), opcodeTable[k].selects w = true ↔ k = tableIndex i) ∧
    ((∃ e, decode w = .error e) ↔ ∀ r ∈ opcodeTable, r.selects w = false)

/-- R82 to R86: words the spec writes out decode to the commands it says they are. -/
def Obligations.SpecWordsDecode : Prop :=
  decode 0x1_0004_0000_0018_0000#68 = .ok (.init 0x000000180000#48 4#16) ∧
  decode 0x2_0000_0000_0000_03E8#68 = .ok (.setpos 1000#64) ∧
  decode 0x2_FFFF_FFFF_FFFF_FFFF#68 = .ok (.setpos (-1#64)) ∧
  decode 0x3_0000_0000_0000_00DA#68 = .ok (.sample 218#8) ∧
  decode 0x4_0000_0000_0000_0000#68 = .ok .pop ∧
  decode 0x7_0000_0000_0000_0000#68 = .ok (.illegalOp7 0#64) ∧
  decode 0x3_0000_0000_0000_0100#68 = .error .reservedSampleBits ∧
  decode 0x4_0000_0000_0000_0001#68 = .error .reservedPopBits

/-- R280: the registers and the outputs right after reset, with the parameter values of R10. -/
def Obligations.ResetRegisters : Prop :=
  let s := State.reset
  s.cfg.center = 128#8 ∧ s.cfg.silenceMin = 16 ∧ s.cfg.syncFwd = 0x3FFD#16 ∧ s.cfg.syncRev = 0xBFFC#16 ∧
  s.cfg.queueMax = 32 ∧ s.cfg.wellFormed = true ∧
  s.cfgOk = false ∧ s.cfgErr = false ∧ s.qCap = 0#16 ∧ s.envMin = 128#8 ∧ s.envMax = 128#8 ∧ s.level = false ∧
  s.cnt = 0#32 ∧ s.period = 0#64 ∧ s.limit = 0#64 ∧ s.tic = 0 ∧ s.tics = Vector.replicate 80 0#64 ∧
  s.biphaseState = .mid ∧ s.biphasePrev = false ∧ s.bitCnt = 0 ∧ s.frame = Vector.replicate 10 0#8 ∧
  s.syncWord = 0#16 ∧ s.frameStart = 0#64 ∧ s.lastBitPos = 0#64 ∧ s.lastBitValid = false ∧ s.pos = 0#64 ∧
  s.qWr = 0#16 ∧ s.qRd = 0#16 ∧ s.qCount = 0#16 ∧
  s.frameAvail = false ∧ s.rspValid = false

/-! ## The invariant -/

/-- The invariant holds right after reset. -/
def Obligations.ResetMeetsInvariant : Prop := Invariant State.reset

/-- R45: from every state that meets the invariant, a step gives a state that meets it. -/
def Obligations.StepKeepsInvariant : Prop := ∀ s t : State, Invariant s → step s = .next t → Invariant t

/-- R250: from every state that meets the invariant every run of any length goes on: no fault, no refusal, and the
invariant still holds at its end. -/
def Obligations.RunsNeverStop : Prop :=
  ∀ (k : Nat) (s : State), Invariant s → ∃ t, core.run k s = .next t ∧ Invariant t

/-- R250: once configured, every SAMPLE, SETPOS and POP responds `OK` (or `EMPTY`, for POP), in every state that meets the
invariant and for every operand. -/
def Obligations.ConfiguredCommandsSucceed : Prop :=
  ∀ s : State, Invariant s → s.cfgOk = true →
    (∀ v, ∃ t, exec (.sample v) s = .next t ∧ t.rsp = some ⟨.ok, none⟩) ∧
    (∀ p, ∃ t, exec (.setpos p) s = .next t ∧ t.rsp = some ⟨.ok, none⟩) ∧
    (∃ t, exec .pop s = .next t ∧ (t.rsp = some ⟨.empty, none⟩ ∨ ∃ r, t.rsp = some ⟨.ok, some r⟩))

/-! ## INIT, SETPOS, POP and the reserved opcodes -/

/-- R211: INIT in any state. Valid parameters construct the decoder; `seed = 0`, `cap = 0` or `cap > QUEUE_MAX` gives
`CONFIG_ERROR`, the hard-reset state and `cfg_err = 1` (what the slots hold then is left open). -/
def Obligations.InitCommand : Prop :=
  ∀ (s : State) (seed : BitVec 48) (cap : BitVec 16),
    (seed ≠ 0#48 → 1 ≤ cap.toNat → cap.toNat ≤ s.cfg.queueMax →
      exec (.init seed cap) s = .next
        { cfg := s.cfg, inputs := s.inputs, rsp := some ⟨.ok, none⟩, cfgOk := true, cfgErr := false, qCap := cap,
          envMin := s.cfg.center, envMax := s.cfg.center, level := false, cnt := 0#32,
          period := BitVec.ofNat 64 seed.toNat, limit := BitVec.ofNat 64 (3 * seed.toNat / 4),
          tic := 0, tics := Vector.replicate 80 0#64, biphaseState := .mid, biphasePrev := false, bitCnt := 0,
          frame := Vector.replicate 10 0#8, syncWord := 0#16, frameStart := 0#64, lastBitPos := 0#64,
          lastBitValid := false, pos := 0#64, qWr := 0#16, qRd := 0#16, qCount := 0#16, slots := s.slots }) ∧
    (seed = 0#48 ∨ cap = 0#16 ∨ s.cfg.queueMax < cap.toNat →
      ∃ m : Memory, exec (.init seed cap) s = .next
        { State.hardResetValue s.cfg s.inputs with cfgErr := true, rsp := some ⟨.configError, none⟩, slots := m })

/-- R283: the state after a valid INIT depends only on `seed` and `cap`: two blocks with the same parameters are equal
after it, in everything but the slots, which INIT does not change and no command can read (R211), and what their hosts
have still to present. -/
def Obligations.InitForgetsEarlierState : Prop :=
  ∀ (s s' t t' : State) (seed : BitVec 48) (cap : BitVec 16), s.cfg = s'.cfg → t.cfgOk = true →
    exec (.init seed cap) s = .next t → exec (.init seed cap) s' = .next t' →
      t = { t' with inputs := t.inputs, slots := t.slots } ∧ t.slots = s.slots ∧ t.inputs = s.inputs

/-- R212: SETPOS writes `pos` and nothing else, for every position; unconfigured it responds `NOT_CONFIGURED`. -/
def Obligations.SetposCommand : Prop :=
  ∀ (s : State) (p : Position),
    (s.cfgOk = true → exec (.setpos p) s = .next { s with pos := p, rsp := some ⟨.ok, none⟩ }) ∧
    (s.cfgOk = false → exec (.setpos p) s = .next { s with rsp := some ⟨.notConfigured, none⟩ })

/-- R192, R214: POP responds `NOT_CONFIGURED` while unconfigured, `EMPTY` on an empty queue, and else `OK` with the record
of the slot at `q_rd`; then `q_rd` moves on modulo `q_cap` and `q_count` falls by 1, and nothing else changes. That an unread slot holds a record is `StepKeepsInvariant`. -/
def Obligations.PopCommand : Prop :=
  ∀ s : State,
    (s.cfgOk = false → exec .pop s = .next { s with rsp := some ⟨.notConfigured, none⟩ }) ∧
    (s.cfgOk = true → s.qCount = 0#16 → exec .pop s = .next { s with rsp := some ⟨.empty, none⟩ }) ∧
    (∀ r, s.cfgOk = true → s.qCount ≠ 0#16 → s.slots.read s.qRd.toNat = some r →
      exec .pop s = .next
        { s with
          qRd := BitVec.ofNat 16 ((s.qRd.toNat + 1) % s.qCap.toNat)
          qCount := BitVec.ofNat 16 (s.qCount.toNat - 1)
          rsp := some ⟨.ok, some r⟩ })

/-- R215: every reserved opcode responds `ILLEGAL` whatever `cfg_ok` is, and changes no register. -/
def Obligations.ReservedOpcodesRespondIllegal : Prop :=
  ∀ (s : State) (x : Arg),
    exec (.illegalOp0 x) s = .next { s with rsp := some ⟨.illegal, none⟩ } ∧
    exec (.illegalOp5 x) s = .next { s with rsp := some ⟨.illegal, none⟩ } ∧
    exec (.illegalOp6 x) s = .next { s with rsp := some ⟨.illegal, none⟩ } ∧
    exec (.illegalOp7 x) s = .next { s with rsp := some ⟨.illegal, none⟩ } ∧
    exec (.illegalOp8 x) s = .next { s with rsp := some ⟨.illegal, none⟩ } ∧
    exec (.illegalOp9 x) s = .next { s with rsp := some ⟨.illegal, none⟩ } ∧
    exec (.illegalOpA x) s = .next { s with rsp := some ⟨.illegal, none⟩ } ∧
    exec (.illegalOpB x) s = .next { s with rsp := some ⟨.illegal, none⟩ } ∧
    exec (.illegalOpC x) s = .next { s with rsp := some ⟨.illegal, none⟩ } ∧
    exec (.illegalOpD x) s = .next { s with rsp := some ⟨.illegal, none⟩ } ∧
    exec (.illegalOpE x) s = .next { s with rsp := some ⟨.illegal, none⟩ } ∧
    exec (.illegalOpF x) s = .next { s with rsp := some ⟨.illegal, none⟩ }

/-! ## Responses and errors, over all commands -/

/-- R87: every accepted command word gets exactly one response, and which one: `ILLEGAL` before `NOT_CONFIGURED` before
`CONFIG_ERROR` and `EMPTY`; a record only with the `OK` of a POP, and all zeros else. -/
def Obligations.ResponseOfEveryWord : Prop :=
  ∀ (s t : State) (w : CmdWord) (rest : List HostInput), s.inputs = .command w :: rest → step s = .next t →
    let op := opField w
    let arg := argField w
    let illegal : Prop := op = 0x0#4 ∨ 5 ≤ op.toNat ∨ (op = 0x3#4 ∧ 256 ≤ arg.toNat) ∨ (op = 0x4#4 ∧ arg ≠ 0#64)
    ∃ r, t.rsp = some r ∧
      (r.status.code = 4#3 ↔ illegal) ∧
      (r.status.code = 3#3 ↔ op = 0x1#4 ∧
        (arg.toNat % 2 ^ 48 = 0 ∨ arg.toNat / 2 ^ 48 = 0 ∨ s.cfg.queueMax < arg.toNat / 2 ^ 48)) ∧
      (r.status.code = 2#3 ↔ ¬ illegal ∧ op ≠ 0x1#4 ∧ s.cfgOk = false) ∧
      (r.status.code = 1#3 ↔ op = 0x4#4 ∧ arg = 0#64 ∧ s.cfgOk = true ∧ s.qCount = 0#16) ∧
      r.status.code.toNat ≤ 4 ∧
      (r.record ≠ none ↔ op = 0x4#4 ∧ arg = 0#64 ∧ r.status.code = 0#3) ∧
      (r.record = none → r.recordBytes = List.replicate 684 0#8)

/-- R256: a command that responds `NOT_CONFIGURED` or `ILLEGAL` leaves every register as it was; one that responds
`CONFIG_ERROR` leaves the hard-reset values with `cfg_err = 1`, whatever the state before (what the slots hold then is
left open). -/
def Obligations.ErrorsChangeNoState : Prop :=
  ∀ (i : Instr) (s t : State) (r : Response), exec i s = .next t → t.rsp = some r →
    (r.status = .notConfigured ∨ r.status = .illegal → t = { s with rsp := some r }) ∧
    (r.status = .configError →
      t = { State.hardResetValue s.cfg s.inputs with cfgErr := true, rsp := some r, slots := t.slots })

/-- R21, R22, R23: only INIT writes `cfg_ok`, `cfg_err` and `q_cap`; and no command changes the parameters. -/
def Obligations.OnlyInitWritesConfiguration : Prop :=
  ∀ (i : Instr) (s t : State), exec i s = .next t →
    t.cfg = s.cfg ∧
    ((∀ seed cap, i ≠ .init seed cap) → t.cfgOk = s.cfgOk ∧ t.cfgErr = s.cfgErr ∧ t.qCap = s.qCap)

/-- R262, R196: the three level outputs. `frame_avail` is 1 exactly when the block is configured and a record is unread;
it rises only by a SAMPLE and falls only by the POP that empties the queue, INIT or hard reset; `cfg_ok` and `cfg_err`
change only by INIT and hard reset, in the way the table of R262 says. -/
def Obligations.OutputCauses : Prop :=
  ∀ s t : State, Invariant s → step s = .next t →
    (t.frameAvail = true ↔ t.cfgOk = true ∧ t.qCount ≠ 0#16) ∧
    (s.frameAvail = false → t.frameAvail = true → ∃ v, Accepts s (.sample v)) ∧
    (s.frameAvail = true → t.frameAvail = false →
      (Accepts s .pop ∧ s.qCount = 1#16) ∨ (∃ seed cap, Accepts s (.init seed cap)) ∨ TakesHardReset s) ∧
    (s.cfgOk = false → t.cfgOk = true → ∃ seed cap, Accepts s (.init seed cap) ∧ t.rsp = some ⟨.ok, none⟩) ∧
    (s.cfgOk = true → t.cfgOk = false →
      (∃ seed cap, Accepts s (.init seed cap) ∧ t.rsp = some ⟨.configError, none⟩) ∨ TakesHardReset s) ∧
    (s.cfgErr = false → t.cfgErr = true →
      ∃ seed cap, Accepts s (.init seed cap) ∧ t.rsp = some ⟨.configError, none⟩) ∧
    (s.cfgErr = true → t.cfgErr = false →
      (∃ seed cap, Accepts s (.init seed cap) ∧ t.rsp = some ⟨.ok, none⟩) ∨ TakesHardReset s)

/-! ## SAMPLE: the envelope, the change test and the counters -/

/-- R213: a configured SAMPLE responds `OK`, moves `pos` on by 1, and never writes `cfg_ok`, `cfg_err`, `q_cap` or the
parameters; of the queue memory only the slot at `q_wr` can change. -/
def Obligations.SampleCompletes : Prop :=
  ∀ (s : State) (v : Sample), s.cfgOk = true →
    ∃ t, exec (.sample v) s = .next t ∧ t.rsp = some ⟨.ok, none⟩ ∧ t.pos = s.pos + 1#64 ∧
      t.cfg = s.cfg ∧ t.inputs = s.inputs ∧ t.cfgOk = true ∧ t.cfgErr = s.cfgErr ∧ t.qCap = s.qCap ∧
      ∀ a, a ≠ s.qWr.toNat → t.slots.read a = s.slots.read a

/-- R21: an unconfigured SAMPLE, SETPOS or POP responds `NOT_CONFIGURED` and changes nothing. -/
def Obligations.UnconfiguredCommandsRefused : Prop :=
  ∀ s : State, s.cfgOk = false →
    (∀ v, exec (.sample v) s = .next { s with rsp := some ⟨.notConfigured, none⟩ }) ∧
    (∀ p, exec (.setpos p) s = .next { s with rsp := some ⟨.notConfigured, none⟩ }) ∧
    exec .pop s = .next { s with rsp := some ⟨.notConfigured, none⟩ }

/-- R111 to R114, R137: a SAMPLE that signals no change moves the envelope, `cnt` (saturating) and `pos`, and nothing
else. -/
def Obligations.SampleWithoutChange : Prop :=
  ∀ (s : State) (v : Sample), s.cfgOk = true → EnvelopeOk s → ¬ Changes s v →
    exec (.sample v) s = .next
      { s with
        envMin := BitVec.ofNat 8 (envLow s v)
        envMax := BitVec.ofNat 8 (envHigh s v)
        cnt := BitVec.ofNat 32 (min (s.cnt.toNat + 1) (2 ^ 32 - 1))
        pos := s.pos + 1#64
        rsp := some ⟨.ok, none⟩ }

/-- R111 to R114, R136, R137: the envelope decays toward the centre, then the sample clamps it; the change test uses the
thresholds halfway to the extremes; `level` toggles exactly on a change; and `cnt` ends at 1 after a change and else counts
on up to `2^32 - 1`. -/
def Obligations.SampleTracksLevel : Prop :=
  ∀ (s : State) (v : Sample), s.cfgOk = true → EnvelopeOk s →
    let c := s.cfg.center.toNat
    let lo := min v.toNat (c - (c - s.envMin.toNat) * 15 / 16)
    let hi := max v.toNat (c + (s.envMax.toNat - c) * 15 / 16)
    let change : Prop :=
      (s.level = true ∧ c + (hi - c) * 8 / 16 < v.toNat) ∨ (s.level = false ∧ v.toNat < c - (c - lo) * 8 / 16)
    ∃ t, exec (.sample v) s = .next t ∧ t.rsp = some ⟨.ok, none⟩ ∧ t.envMin.toNat = lo ∧ t.envMax.toNat = hi ∧
      (change → t.level = (!s.level) ∧ t.cnt = 1#32) ∧
      (¬ change → t.level = s.level ∧ t.cnt.toNat = min (s.cnt.toNat + 1) (2 ^ 32 - 1))

/-- R116: the envelope stays on both sides of the centre: after reset, after every INIT, after every SAMPLE, and between
the decay and the clamp. -/
def Obligations.EnvelopeBound : Prop :=
  EnvelopeOk State.reset ∧
  (∀ (s t : State) (seed : BitVec 48) (cap : BitVec 16), exec (.init seed cap) s = .next t → EnvelopeOk t) ∧
  (∀ (s t : State) (v : Sample), EnvelopeOk s → exec (.sample v) s = .next t →
    (0 ≤ decayMin s.cfg s.envMin ∧ decayMin s.cfg s.envMin ≤ (s.cfg.center.toNat : Int) ∧
      (s.cfg.center.toNat : Int) ≤ decayMax s.cfg s.envMax ∧ decayMax s.cfg s.envMax ≤ 255) ∧
    EnvelopeOk t)

/-- R117: while the host feeds one constant value at most one change is signalled, however long the run. -/
def Obligations.ConstantInputChangesOnce : Prop :=
  ∀ (s : State) (v : Sample) (n : Nat), EnvelopeOk s → changesIn s (List.replicate n v) ≤ 1

/-- R117: with the input held at the centre 128 both extremes are at the centre after 43 samples and stay there. -/
def Obligations.EnvelopeReachesCentre : Prop :=
  ∀ (s : State) (n : Nat), s.cfg.center = 128#8 → EnvelopeOk s → 43 ≤ n →
    (processAll s (List.replicate n 128#8)).envMin = 128#8 ∧
    (processAll s (List.replicate n 128#8)).envMax = 128#8

/-! ## SAMPLE: the classification and the period -/

/-- R131, R132, R150, R152, R153, R213: a change after a long interval (`cnt * ONE > L`) makes two ticks with the
unmodified count, which leave the parity at the boundary; a change after a short one makes one tick with the doubled count,
which toggles the parity, or leaves it at the boundary where the level is that of the previous tick. The ticks find the
envelope of this sample and `pos`, `level` and the period as they were, and write that period into the ring. What the ticks
left stays in every register but `bit_cnt`, `period`, `limit`, `cnt`, `level` and `pos`: in the frame assembly and the queue
too. -/
def Obligations.IntervalTicks : Prop :=
  ∀ (s : State) (v : Sample), s.cfgOk = true → EnvelopeOk s → Changes s v →
    let ends (u t : State) : Prop :=
      t = { u with
        bitCnt := t.bitCnt, period := t.period, limit := t.limit, cnt := 1#32, level := !s.level, pos := s.pos + 1#64,
        rsp := some ⟨.ok, none⟩ }
    ∃ t, exec (.sample v) s = .next t ∧ t.biphasePrev = s.level ∧
      (s.limit.toNat < s.cnt.toNat * 65536 →
        ends (tick (tick (tracked s v) s.cnt.toNat false) s.cnt.toNat false) t ∧
        t.tic.val = (s.tic.val + 2) % 80 ∧
        t.tics =
          (s.tics.set s.tic.val s.period s.tic.isLt).set ((s.tic.val + 1) % 80) s.period (Nat.mod_lt _ (by decide)) ∧
        t.biphaseState = .boundary) ∧
      (s.cnt.toNat * 65536 ≤ s.limit.toNat →
        ends (tick (tracked s v) (2 * s.cnt.toNat) true) t ∧
        t.tic.val = (s.tic.val + 1) % 80 ∧ t.tics = s.tics.set s.tic.val s.period s.tic.isLt ∧
        (s.level = s.biphasePrev → t.biphaseState = .boundary) ∧
        (s.level ≠ s.biphasePrev → t.biphaseState = (if s.biphaseState = .mid then .boundary else .mid)))

/-- R133 to R136 (and R131, R132): on a change, `c` is `cnt` after a long interval and `2 * cnt` after a short one, and `u`
is what its ticks leave. When `c * ONE > 4 * P` and `c > SILENCE_MIN` it is silence: of what the ticks left only `bit_cnt`
is cleared, and the period and the limit keep their values. Else `bit_cnt` is as the ticks left it, the period moves a
quarter of the way to `c`, truncated, and the limit is three quarters of it. Either way `cnt`, `level` and `pos` end as after
every change, and a short interval is never silence. -/
def Obligations.PeriodUpdateOrSilence : Prop :=
  ∀ (s : State) (v : Sample), s.cfgOk = true → EnvelopeOk s → Changes s v →
    let long : Prop := s.limit.toNat < s.cnt.toNat * 65536
    ∀ (c : Nat) (u : State),
      (long → c = s.cnt.toNat ∧ u = tick (tick (tracked s v) c false) c false) →
      (¬ long → c = 2 * s.cnt.toNat ∧ u = tick (tracked s v) c true) →
      let silence : Prop := 4 * s.period.toNat < c * 65536 ∧ s.cfg.silenceMin < c
      let ended : State :=
        { u with cnt := 1#32, level := !s.level, pos := s.pos + 1#64, rsp := some ⟨.ok, none⟩ }
      ∃ t, exec (.sample v) s = .next t ∧
        (silence → t = { ended with bitCnt := 0 } ∧ t.period = s.period ∧ t.limit = s.limit) ∧
        (¬ silence →
          t = { ended with period := t.period, limit := t.limit } ∧ t.bitCnt = u.bitCnt ∧
          t.period.toNat = (3 * s.period.toNat + c * 65536) / 4 ∧ t.limit.toNat = 3 * t.period.toNat / 4) ∧
        (PeriodOk s → ¬ long → ¬ silence)

/-- R138: a SAMPLE never raises the period above the larger of its old value and `2 * CNT_MAX * ONE`; a change after at
least one sample that moves the period leaves at least a quarter sample; and from a whole sample on it stays at one. -/
def Obligations.PeriodBounds : Prop :=
  ∀ (s t : State) (v : Sample), exec (.sample v) s = .next t →
    t.period.toNat ≤ max s.period.toNat (2 * (2 ^ 32 - 1) * 65536) ∧
    (t.period ≠ s.period → 1 ≤ s.cnt.toNat → 16384 ≤ t.period.toNat) ∧
    (65536 ≤ s.period.toNat → 1 ≤ s.cnt.toNat → 65536 ≤ t.period.toNat)

/-! ## TICK and BIT -/

/-- R150: a tick writes the period at `tic` and moves `tic` on modulo 80; and a tick writes no register of the
configuration, the envelope, the level, the counter, the period or the position. -/
def Obligations.TickWritesRing : Prop :=
  ∀ (s : State) (n : Nat) (short : Bool),
    let t := tick s n short
    t.tics = s.tics.set s.tic.val s.period s.tic.isLt ∧ t.tic.val = (s.tic.val + 1) % 80 ∧
    t.cfg = s.cfg ∧ t.inputs = s.inputs ∧ t.rsp = s.rsp ∧ t.cfgOk = s.cfgOk ∧ t.cfgErr = s.cfgErr ∧ t.qCap = s.qCap ∧
    t.envMin = s.envMin ∧ t.envMax = s.envMax ∧ t.level = s.level ∧ t.cnt = s.cnt ∧ t.period = s.period ∧
    t.limit = s.limit ∧ t.pos = s.pos

/-- R150 to R153: the parity table, and the bit each tick gives to BIT with the position it carries (seen in `sync_word` and
`last_bit_pos` too), after the ring and the parity are written and before `biphase_prev` is; a tick that decodes no bit
leaves the frame assembly and the queue alone. -/
def Obligations.TickDecodesByParity : Prop :=
  ∀ (s : State) (n : Nat) (short : Bool),
    let t := tick s n short
    let bpos := if short then s.pos + BitVec.ofInt 64 (((n : Int) * 65536 - (s.period.toNat : Int)) / 65536) else s.pos
    let ticked (p : Parity) : State :=
      { s with tics := s.tics.set s.tic.val s.period s.tic.isLt, tic := t.tic, biphaseState := p }
    t.biphasePrev = s.level ∧ t.tic.val = (s.tic.val + 1) % 80 ∧
    (s.level = s.biphasePrev →
      t = { bit (ticked .boundary) false bpos with biphasePrev := s.level } ∧
      t.biphaseState = .boundary ∧ t.lastBitPos = bpos ∧ t.lastBitValid = true ∧
      t.syncWord.toNat = (2 * s.syncWord.toNat) % 2 ^ 16) ∧
    (s.level ≠ s.biphasePrev → s.biphaseState = .mid →
      t = { bit (ticked .boundary) true bpos with biphasePrev := s.level } ∧
      t.biphaseState = .boundary ∧ t.lastBitPos = bpos ∧ t.lastBitValid = true ∧
      t.syncWord.toNat = (2 * s.syncWord.toNat + 1) % 2 ^ 16) ∧
    (s.level ≠ s.biphasePrev → s.biphaseState = .boundary →
      t = { ticked .mid with biphasePrev := s.level } ∧
      t.biphaseState = .mid ∧ t.bitCnt = s.bitCnt ∧ t.frame = s.frame ∧ t.syncWord = s.syncWord ∧
      t.frameStart = s.frameStart ∧ t.lastBitPos = s.lastBitPos ∧ t.lastBitValid = s.lastBitValid ∧ SameQueue s t)

/-- R154: the bit that finds `bit_cnt = 0` clears the payload register, stores itself at position 0, and starts the frame
at the previous bit's position if there has been one, else at the floor of `bpos - period`. -/
def Obligations.BitStartsFrame : Prop :=
  ∀ (s : State) (b : Bool) (x : Position), s.bitCnt = 0 →
    let t := bit s b x
    (∀ p : Fin 80, payloadBit t.frame p = (decide (p = 0) && b)) ∧
    (s.lastBitValid = true → t.frameStart = s.lastBitPos) ∧
    (s.lastBitValid = false → t.frameStart = x - BitVec.ofNat 64 (ceilOnes s.period.toNat))

/-- R157: a bit that finds `0 < bit_cnt < 80` is shifted into `sync_word`, stored at position `bit_cnt`, and counted,
unless it completes a sync pattern; every other position and `frame_start` keep their values. -/
def Obligations.BitAppends : Prop :=
  ∀ (s : State) (b : Bool) (x : Position), 0 < s.bitCnt.val → s.bitCnt.val < 80 →
    let t := bit s b x
    t.syncWord.toNat = (2 * s.syncWord.toNat + b.toNat) % 2 ^ 16 ∧
    (∀ p : Fin 80, p.val ≠ s.bitCnt.val → payloadBit t.frame p = payloadBit s.frame p) ∧
    (∀ p : Fin 80, p.val = s.bitCnt.val → payloadBit t.frame p = (payloadBit s.frame p || b)) ∧
    t.frameStart = s.frameStart ∧
    (t.syncWord ≠ s.cfg.syncFwd → t.syncWord ≠ bitrev16 s.cfg.syncFwd → t.bitCnt.val = s.bitCnt.val + 1)

/-- R156, R163: a bit that finds `bit_cnt = 80` slides the register by one position, losing the oldest bit, stands at
position 79, and moves `frame_start` on by `ceil(period)`; without a sync match the count is 80 again. -/
def Obligations.BitSlidesFullRegister : Prop :=
  ∀ (s : State) (b : Bool) (x : Position), s.bitCnt = 80 →
    let t := bit s b x
    (∀ (p : Fin 80) (h : p.val < 79), payloadBit t.frame p = payloadBit s.frame ⟨p.val + 1, by omega⟩) ∧
    payloadBit t.frame 79 = b ∧
    t.frameStart = s.frameStart + BitVec.ofNat 64 (ceilOnes s.period.toNat) ∧
    (t.syncWord ≠ s.cfg.syncFwd → t.syncWord ≠ bitrev16 s.cfg.syncFwd → t.bitCnt = 80)

/-- R155, R160, R161: every bit leaves its position behind; a sync match clears `bit_cnt` whatever it was, and without one
`bit_cnt` grows by 1, up to 80; a bit publishes nothing unless it completes a pattern with 80 bits in the register; and no
match clears `sync_word`. -/
def Obligations.SyncMatchClearsCount : Prop :=
  ∀ (s : State) (b : Bool) (x : Position),
    let t := bit s b x
    let sync : Prop := t.syncWord = s.cfg.syncFwd ∨ t.syncWord = bitrev16 s.cfg.syncFwd
    t.syncWord.toNat = (2 * s.syncWord.toNat + b.toNat) % 2 ^ 16 ∧
    t.lastBitPos = x ∧ t.lastBitValid = true ∧
    (sync → t.bitCnt = 0) ∧
    (¬ sync → t.bitCnt.val = min (s.bitCnt.val + 1) 80) ∧
    (¬ sync ∨ s.bitCnt.val < 79 → SameQueue s t)

/-- R158: the bit that completes the forward pattern clears the count, and with 80 bits in the register it pushes a forward
record: the payload register, `frame_start`, `bpos - 1`, `reverse = 0`, the ring oldest entry first, and the envelope with
its volume. With the default pattern the record's bytes 8 and 9 are `FC` and `BF`. -/
def Obligations.ForwardFramePublished : Prop :=
  ∀ (s : State) (b : Bool) (x : Position), s.cfg.wellFormed = true →
    let t := bit s b x
    t.syncWord = s.cfg.syncFwd →
    t.bitCnt = 0 ∧
    (s.bitCnt.val < 79 → SameQueue s t) ∧
    (79 ≤ s.bitCnt.val → ∃ r, SameQueue (s.enqueue r) t ∧
      r.payload = t.frame ∧ r.offStart = t.frameStart ∧ r.offEnd = x - 1#64 ∧ r.reverse = 0#64 ∧
      (∀ i : Fin 80, r.hist[i.val] = s.tics[(s.tic.val + i.val) % 80]'(Nat.mod_lt _ (by decide))) ∧
      r.sampleMin = s.envMin ∧ r.sampleMax = s.envMax ∧ r.volume = volDb (s.envMax.toNat - s.envMin.toNat) ∧
      (PayloadOk s → WindowOk s → s.cfg.syncFwd = 0x3FFD#16 → r.payload[8] = 0xFC#8 ∧ r.payload[9] = 0xBF#8))

/-- R159, R162: the bit that completes the reverse pattern clears the count, and with 80 bits in the register it pushes a
reverse record: the 64 data bits in opposite order, each sync byte bit-reversed in place, both offsets moved back by
`ceil(16 * P / ONE)`, and the magnitude `floor(REV_SPAN_BITS * P / ONE)`, whatever the OPEN parameter `REV_SPAN_BITS` is.
With the default pattern the record's bytes 8 and 9 are `BF` and `FC`. -/
def Obligations.ReverseFramePublished : Prop :=
  ∀ (s : State) (b : Bool) (x : Position), s.cfg.wellFormed = true →
    let t := bit s b x
    t.syncWord = bitrev16 s.cfg.syncFwd →
    t.bitCnt = 0 ∧
    (s.bitCnt.val < 79 → SameQueue s t) ∧
    (79 ≤ s.bitCnt.val → ∃ r, SameQueue (s.enqueue r) t ∧
      (∀ (p : Fin 80) (h : p.val < 64), payloadBit r.payload p = payloadBit t.frame ⟨63 - p.val, by omega⟩) ∧
      (∀ (p : Fin 80) (h : 64 ≤ p.val), p.val < 72 → payloadBit r.payload p = payloadBit t.frame ⟨135 - p.val, by omega⟩) ∧
      (∀ (p : Fin 80) (h : 72 ≤ p.val), payloadBit r.payload p = payloadBit t.frame ⟨151 - p.val, by omega⟩) ∧
      r.offStart = t.frameStart - BitVec.ofNat 64 (ceilOnes (16 * s.period.toNat)) ∧
      r.offEnd = x - 1#64 - BitVec.ofNat 64 (ceilOnes (16 * s.period.toNat)) ∧
      r.reverse = BitVec.ofNat 64 (s.cfg.revSpanBits * s.period.toNat / 65536) ∧
      (∀ i : Fin 80, r.hist[i.val] = s.tics[(s.tic.val + i.val) % 80]'(Nat.mod_lt _ (by decide))) ∧
      r.sampleMin = s.envMin ∧ r.sampleMax = s.envMax ∧ r.volume = volDb (s.envMax.toNat - s.envMin.toNat) ∧
      (PayloadOk s → WindowOk s → s.cfg.syncFwd = 0x3FFD#16 → r.payload[8] = 0xBF#8 ∧ r.payload[9] = 0xFC#8))

/-- R155: consecutive forward frames tile the position axis. The bit after the one that pushed a forward record starts its
frame at that record's `off_end + 1`; and when the 80th bit after it completes the forward pattern, with no sync match
between (79 bits stand in the register after 79 bits), the record it pushes has that `off_start`. -/
def Obligations.ForwardFramesTile : Prop :=
  ∀ (s : State) (b b' : Bool) (x y : Position), s.cfg.wellFormed = true → 79 ≤ s.bitCnt.val →
    (bit s b x).syncWord = s.cfg.syncFwd →
    ∃ r, SameQueue (s.enqueue r) (bit s b x) ∧ r.reverse = 0#64 ∧ r.offEnd = x - 1#64 ∧
      (bit (bit s b x) b' y).frameStart = r.offEnd + 1#64 ∧
      ∀ bs : List (Bool × Position), bs.length = 79 →
        let u := bitAll (bit s b x) bs
        u.bitCnt.val = 79 → (bit u b' y).syncWord = s.cfg.syncFwd →
          ∃ r', SameQueue (u.enqueue r') (bit u b' y) ∧ r'.reverse = 0#64 ∧ r'.offStart = r.offEnd + 1#64

/-! ## The queue -/

/-- R191, R193: a push into a queue that is not full adds a record; into a full queue it replaces the oldest unread one and
moves `q_rd` on. The record is then in the slot at the old `q_wr`, and every other slot is as before. -/
def Obligations.PushQueue : Prop :=
  ∀ (s : State) (r : FrameRecord), QueueOk s →
    let t := s.enqueue r
    t.slots.read s.qWr.toNat = some r ∧
    (∀ a, a ≠ s.qWr.toNat → t.slots.read a = s.slots.read a) ∧
    t.qWr.toNat = (s.qWr.toNat + 1) % s.qCap.toNat ∧
    (s.qCount.toNat < s.qCap.toNat → t.qCount.toNat = s.qCount.toNat + 1 ∧ t.qRd = s.qRd) ∧
    (s.qCount = s.qCap → s.qWr = s.qRd ∧ t.qCount = s.qCap ∧ t.qRd.toNat = (s.qRd.toNat + 1) % s.qCap.toNat) ∧
    t = { s with slots := t.slots, qWr := t.qWr, qRd := t.qRd, qCount := t.qCount }

/-- R194: from an empty queue, after any sequence of pushes, the queue holds the most recent `q_cap` of them (all, if
fewer); draining it returns exactly those, oldest first, and the next POP responds `EMPTY`. -/
def Obligations.QueueWraparound : Prop :=
  ∀ (s : State) (rs : List FrameRecord), s.cfgOk = true → QueueOk s → s.qCount = 0#16 →
    let t := enqueueAll s rs
    let n := min rs.length s.qCap.toNat
    t.qCount.toNat = n ∧
    t.qWr.toNat = (s.qWr.toNat + rs.length) % s.qCap.toNat ∧
    t.qRd.toNat = (s.qWr.toNat + (rs.length - n)) % s.qCap.toNat ∧
    ∃ u, popMany n t = some (rs.drop (rs.length - n), u) ∧ exec .pop u = .next { u with rsp := some ⟨.empty, none⟩ }

/-- R164: a SAMPLE makes at most one push, and only if it signalled a change: the queue is as before, or it is as one
push left it. It raises `bit_cnt` by at most 2. -/
def Obligations.OneRecordPerSample : Prop :=
  ∀ (s t : State) (v : Sample), s.cfgOk = true → EnvelopeOk s → exec (.sample v) s = .next t →
    (SameQueue s t ∨ ∃ r, SameQueue (s.enqueue r) t) ∧
    (¬ Changes s v → SameQueue s t) ∧
    t.bitCnt.val ≤ s.bitCnt.val + 2

/-- R242: a record that a SAMPLE publishes carries the envelope of that sample, and its volume is finite. -/
def Obligations.PublishedVolumeFinite : Prop :=
  ∀ (s t : State) (v : Sample), Invariant s → exec (.sample v) s = .next t →
    ∀ (a : Nat) (r : FrameRecord), t.slots.read a = some r → t.slots.read a ≠ s.slots.read a →
      a = s.qWr.toNat ∧ r.sampleMin = t.envMin ∧ r.sampleMax = t.envMax ∧ r.sampleMin.toNat < r.sampleMax.toNat ∧
      r.volume = volDb (r.sampleMax.toNat - r.sampleMin.toNat) ∧ r.volume.extractLsb' 52 11 ≠ 0x7FF#11

/-- R197: after a SAMPLE that changed the queue, at least 40 SAMPLEs leave it alone, for every input. -/
def Obligations.PublicationsAreSpaced : Prop :=
  ∀ (s : State) (v : Sample) (vs : List Sample), ¬ SameQueue s (processSample s v) → vs.length ≤ 40 →
    SameQueue (processSample s v) (processAll (processSample s v) vs)

/-! ## Whole-machine rules -/

/-- R217: whether and when the host POPs does not disturb the decoding: whatever samples follow, they decode and record
what they would have, at the same positions and in the same slots. -/
def Obligations.PopDoesNotDisturbDecoding : Prop :=
  ∀ (s t : State) (vs : List Sample), exec .pop s = .next t →
    let a := processAll s vs
    let b := processAll t vs
    decodeView b = decodeView a ∧ b.frameStart = a.frameStart ∧ b.lastBitPos = a.lastBitPos ∧ b.pos = a.pos ∧
      b.qWr = a.qWr ∧ b.slots = a.slots

/-- R217: positions never decide which frames are decoded or their payloads: two blocks that differ only in positions, in
their registers and in their records, still differ only in positions after any sequence of samples; and SETPOS makes only
such a difference. -/
def Obligations.PositionsDoNotDisturbDecoding : Prop :=
  (∀ (s t : State) (vs : List Sample),
    decodeView s = decodeView t → s.qWr = t.qWr → s.qRd = t.qRd → s.qCount = t.qCount →
      unplacedSlots s.slots = unplacedSlots t.slots →
    decodeView (processAll s vs) = decodeView (processAll t vs) ∧
    (processAll s vs).qWr = (processAll t vs).qWr ∧ (processAll s vs).qRd = (processAll t vs).qRd ∧
    (processAll s vs).qCount = (processAll t vs).qCount ∧
    unplacedSlots (processAll s vs).slots = unplacedSlots (processAll t vs).slots) ∧
  (∀ (s t : State) (p : Position), exec (.setpos p) s = .next t →
    decodeView s = decodeView t ∧ SameQueue s t)

/-- R98: a block of samples is SETPOS and then its SAMPLEs, SETPOS alone for an empty one, and two blocks with contiguous
offsets give exactly the state that one block of all their samples gives. -/
def Obligations.ContiguousBlocksJoin : Prop :=
  (∀ (p : Position) (xs : List Sample), decodeBlock p xs = .setpos p :: xs.map .sample) ∧
  ∀ (s : State) (p : Position) (xs ys : List Sample), s.cfgOk = true →
    ∃ t, execAll (decodeBlock p xs ++ decodeBlock (p + BitVec.ofNat 64 xs.length) ys) s = .next t ∧
      execAll (decodeBlock p (xs ++ ys)) s = .next t ∧ t.pos = p + BitVec.ofNat 64 (xs.length + ys.length)

/-- R287: from the state after a valid INIT a constant input, however long, publishes nothing and leaves `bit_cnt` at most
at 2. -/
def Obligations.FlatInputPublishesNothing : Prop :=
  ∀ (s t : State) (seed : BitVec 48) (cap : BitVec 16) (v : Sample) (n : Nat),
    exec (.init seed cap) s = .next t → t.cfgOk = true →
    SameQueue t (processAll t (List.replicate n v)) ∧ (processAll t (List.replicate n v)).bitCnt.val ≤ 2

/-- R93: the 684 bytes of a record, field by field, multi-byte fields least significant byte first; and `rsp_record`
carries them with byte 0 in its lowest bits. -/
def Obligations.RecordLayout : Prop :=
  ∀ r : FrameRecord,
    r.toBytes.length = 684 ∧
    (∀ k (h : k < 10), r.toBytes[k]? = some r.payload[k]) ∧
    (∀ j, j < 8 → r.toBytes[10 + j]? = some (BitVec.ofNat 8 (r.offStart.toNat / 256 ^ j))) ∧
    (∀ j, j < 8 → r.toBytes[18 + j]? = some (BitVec.ofNat 8 (r.offEnd.toNat / 256 ^ j))) ∧
    (∀ j, j < 8 → r.toBytes[26 + j]? = some (BitVec.ofNat 8 (r.reverse.toNat / 256 ^ j))) ∧
    (∀ j, j < 8 → r.toBytes[34 + j]? = some (BitVec.ofNat 8 (r.volume.toNat / 256 ^ j))) ∧
    r.toBytes[42]? = some r.sampleMin ∧ r.toBytes[43]? = some r.sampleMax ∧
    (∀ i (h : i < 80), ∀ j, j < 8 → r.toBytes[44 + 8 * i + j]? = some (BitVec.ofNat 8 (r.hist[i].toNat / 256 ^ j))) ∧
    (∀ (s : State) (st : Status), s.rsp = some ⟨st, some r⟩ →
      ∃ port, s.rspRecord = some port ∧ ∀ k, k < 684 → some (port.extractLsb' (8 * k) 8) = r.toBytes[k]?)

/-- R241: `vol_db` is negative infinity at 0, `+0.0` at 255, and between a negative, finite, normal number whose magnitude
falls as the difference grows; with its smallest and its largest negative finite value. -/
def Obligations.VolumeTableShape : Prop :=
  volDb 0 = 0xFFF0000000000000#64 ∧ volDb 255 = 0#64 ∧
  volDb 1 = 0xC04810BE2C32BCDE#64 ∧ volDb 254 = 0xBFA179647AEBA1BE#64 ∧
  (∀ d, 1 ≤ d → d ≤ 254 →
    (volDb d).getLsbD 63 = true ∧ (volDb d).extractLsb' 52 11 ≠ 0x7FF#11 ∧ (volDb d).extractLsb' 52 11 ≠ 0#11) ∧
  (∀ d, 1 ≤ d → d ≤ 253 → (volDb (d + 1)).toNat < (volDb d).toNat)
end

