-- ==== Sys2Proof/Laws/Bits.lean ====
section
/-!
SUPPORT. The bits of the payload operations and of the sync window.
-/

namespace Sys2Proof

theorem payloadBit_replicate (p : Fin 80) : payloadBit (Vector.replicate 10 0#8) p = false := by
  simp [payloadBit]

/-- Setting payload bit `q` sets it and leaves every other bit (R157). -/
theorem payloadBit_set (f : Payload) (p q : Fin 80) :
    payloadBit (setPayloadBit f q) p = (payloadBit f p || decide (p = q)) := by
  unfold payloadBit setPayloadBit
  rw [Vector.getElem_set]
  by_cases h : q.val / 8 = p.val / 8
  · have hb : (q.val % 8 = p.val % 8) ↔ p = q := by rw [Fin.ext_iff]; omega
    have h8 : p.val % 8 < 8 := by omega
    simp only [h, if_true, BitVec.getLsbD_or, BitVec.getLsbD_shiftLeft, BitVec.getLsbD_one, h8, decide_true, Bool.true_and]
    congr 1
    by_cases e : p = q
    · subst e; simp
    · have : ¬ q.val % 8 = p.val % 8 := fun x => e (hb.1 x)
      simp [e]; omega
  · have : p ≠ q := by rintro rfl; exact h rfl
    simp [h, this]

/-- The resync shift, bit by bit (R163): position `p` takes the value of position `p + 1`. -/
theorem payloadBit_shift1 (f : Payload) (p : Fin 80) :
    payloadBit (shift1 f) p = if h : p.val < 79 then payloadBit f ⟨p.val + 1, by omega⟩ else false := by
  unfold payloadBit shift1
  simp only [Vector.getElem_ofFn, BitVec.getLsbD_or, BitVec.getLsbD_ushiftRight]
  have h8 : p.val % 8 < 8 := by omega
  by_cases h7 : p.val % 8 = 7
  · have e1 : f[p.val / 8].getLsbD (1 + p.val % 8) = false := BitVec.getLsbD_of_ge _ _ (by omega)
    by_cases h : p.val < 79
    · have hk : p.val / 8 + 1 < 10 := by omega
      have e2 : (p.val + 1) / 8 = p.val / 8 + 1 := by omega
      have e3 : (p.val + 1) % 8 = 0 := by omega
      simp only [h, dif_pos, hk, h7, e2, e3]
      simp
    · have hk : ¬ p.val / 8 + 1 < 10 := by omega
      simp [e1, h, hk]
  · have e2 : (p.val + 1) / 8 = p.val / 8 := by omega
    have e3 : (p.val + 1) % 8 = 1 + p.val % 8 := by omega
    have h : p.val < 79 := by omega
    simp only [h, dif_pos, e2, e3]
    split
    · simp; omega
    · simp

/-- The bits of a reversed byte (R162). -/
theorem bitrev8_getLsbD (b : Byte) (i : Nat) (h : i < 8) : (bitrev8 b).getLsbD i = b.getLsbD (7 - i) := by
  rw [bitrev8, BitVec.getLsbD_reverse, BitVec.getMsbD]
  simp [h]

/-- The bits of a reversed 16-bit word (R16). -/
theorem bitrev16_getLsbD (w : BitVec 16) (i : Nat) (h : i < 16) : (bitrev16 w).getLsbD i = w.getLsbD (15 - i) := by
  rw [bitrev16, BitVec.getLsbD_reverse, BitVec.getMsbD]
  simp [h]

/-- The bytes of a normalised payload (R162). -/
theorem unreverse_getElem (f : Payload) (k : Nat) (h : k < 10) :
    (unreverse f)[k] = if k < 8 then bitrev8 (f[7 - k]'(by omega)) else bitrev8 f[k] := by
  simp [unreverse, Vector.getElem_ofFn]

/-- The bits of the sync window after one bit: the newest at bit 0 (R36). -/
theorem shiftIn_getLsbD (w : BitVec 16) (b : Bool) (j : Nat) (h : j < 16) :
    (shiftIn w b).getLsbD j = if j = 0 then b else w.getLsbD (j - 1) := by
  unfold shiftIn
  rw [BitVec.getLsbD_or, BitVec.getLsbD_shiftLeft]
  cases j with
  | zero => cases b <;> simp
  | succ j => cases b <;> simp [h, BitVec.getLsbD_eq_getElem, show j < 16 by omega]

/-- The sync window after one bit, as a number (R157). -/
theorem shiftIn_toNat (w : BitVec 16) (b : Bool) : (shiftIn w b).toNat = (2 * w.toNat + b.toNat) % 2 ^ 16 := by
  have key : shiftIn w b = BitVec.ofNat 16 (2 * w.toNat + b.toNat) := by
    apply BitVec.eq_of_getLsbD_eq
    intro i hi
    rw [shiftIn_getLsbD w b i hi, BitVec.getLsbD_ofNat]
    cases i with
    | zero => cases b <;> simp
    | succ i =>
      have : (2 * w.toNat + b.toNat) / 2 = w.toNat := by have := b.toNat_lt; omega
      simp [Nat.testBit_succ, BitVec.getLsbD, this, hi]
  rw [key, BitVec.toNat_ofNat]

end Sys2Proof
end

