-- ==== Sys2Proof/Laws/Numbers.lean ====
section
/-!
SUPPORT. The numeric value of every register computation of Machine/Operands.lean and Machine/Flags.lean, in `Nat`.
-/

namespace Sys2Proof.Machine

theorem countRaw_eq (n : Nat) : countRaw n = n * 65536 := (rfl)

theorem ceilSamples_eq (n : Nat) : ceilSamples n = (n + 65535) / 65536 := (rfl)

/-- The updated period fits its register: it is a weighted mean (R134). -/
theorem nextPeriod_toNat (p : Raw) (n : Nat) (h : n < 2 ^ 33) :
    (nextPeriod p n).toNat = (3 * p.toNat + n * 65536) / 4 := by
  have hp := p.isLt
  rw [nextPeriod, BitVec.toNat_ofNat, countRaw_eq, Nat.mod_eq_of_lt]
  omega

/-- The limit fits its register (R135). -/
theorem limitOf_toNat (p : Raw) : (limitOf p).toNat = 3 * p.toNat / 4 := by
  have hp := p.isLt
  rw [limitOf, BitVec.toNat_ofNat, Nat.mod_eq_of_lt]
  omega

theorem seedRaw_toNat (seed : BitVec 48) : (seedRaw seed).toNat = seed.toNat := by
  have := seed.isLt
  rw [seedRaw, BitVec.toNat_setWidth, Nat.mod_eq_of_lt]
  omega

theorem cntMax_eq : Config.cntMax = 4294967295 := by decide

theorem nextCnt_toNat (c : Count) : (nextCnt c).toNat = min (c.toNat + 1) 4294967295 := by
  have : min (c.toNat + 1) 4294967295 < 2 ^ 32 := by omega
  rw [nextCnt, BitVec.toNat_ofNat, cntMax_eq, Nat.mod_eq_of_lt this]

theorem nextSlot_toNat (q cap : BitVec 16) (h : 1 ≤ cap.toNat) :
    (nextSlot q cap).toNat = (q.toNat + 1) % cap.toNat := by
  have h1 := cap.isLt
  have h2 := Nat.mod_lt (q.toNat + 1) (y := cap.toNat) (by omega)
  rw [nextSlot, BitVec.toNat_ofNat, Nat.mod_eq_of_lt]
  omega

/-- The classified count is below `2^33` (R138(b)). -/
theorem classifiedCount_lt (long : Bool) (c : Count) : classifiedCount long c < 2 ^ 33 := by
  have := c.isLt
  cases long <;> simp [classifiedCount] <;> omega

theorem isLong_iff (c : Count) (l : Raw) : isLong c l = true ↔ l.toNat < c.toNat * 65536 := by
  simp [isLong, countRaw_eq]

theorem isSilence_iff (c : Config) (p : Raw) (n : Nat) :
    isSilence c p n = true ↔ 4 * p.toNat < n * 65536 ∧ c.silenceMin < n := by
  simp [isSilence, countRaw_eq]

theorem initValid_iff (c : Config) (seed : BitVec 48) (cap : BitVec 16) :
    initValid c seed cap = true ↔ seed ≠ 0#48 ∧ 1 ≤ cap.toNat ∧ cap.toNat ≤ c.queueMax := by
  simp [initValid, and_assoc]

@[simp] theorem nextTic_val (t : Fin 80) : (nextTic t).val = (t.val + 1) % 80 := (rfl)

theorem storeIndex_val (n : Fin 81) : (storeIndex n).val = min n.val 79 := by
  unfold storeIndex
  split
  · simp; omega
  · simp; omega

/-- The parity table, row by row (R152). -/
theorem parityStep_same (level : Bool) (st : Parity) : parityStep level level st = (.boundary, some false) := by
  simp [parityStep]

theorem parityStep_toggle {level prev : Bool} (h : level ≠ prev) (st : Parity) :
    parityStep level prev st = if st = .mid then (.boundary, some true) else (.mid, none) := by
  cases st <;> simp [parityStep, h]

end Sys2Proof.Machine
end

