-- ==== Sys2Proof/Laws/State.lean ====
section
/-!
SUPPORT. The simp set of the state: for every named update of Machine/Ops.lean, what it leaves in every field of `State`.

Each lemma is true by `rfl`; it is written `(rfl)` so that `simp` applies it as a rewrite and the kernel is never asked to
unfold a whole update to see one field.
-/

namespace Sys2Proof.Machine

@[simp] theorem State.respondStatus_eq (s : State) (st : Status) : s.respondStatus st = s.respond st none := (rfl)

@[simp] theorem State.trackEnvelope_eq (s : State) (v : Sample) :
    s.trackEnvelope v = s.setEnvelope (envMinNext s.cfg s.envMin v) (envMaxNext s.cfg s.envMax v) := (rfl)

@[simp] theorem State.updatePeriod_eq (s : State) (n : Nat) :
    s.updatePeriod n = s.setPeriod (nextPeriod s.period n) (limitOf (nextPeriod s.period n)) := (rfl)

@[simp] theorem State.respond_cfg (s : State) (st : Status) (rec : Option FrameRecord) : (s.respond st rec).cfg = s.cfg := (rfl)
@[simp] theorem State.respond_inputs (s : State) (st : Status) (rec : Option FrameRecord) : (s.respond st rec).inputs = s.inputs := (rfl)
@[simp] theorem State.respond_rsp (s : State) (st : Status) (rec : Option FrameRecord) : (s.respond st rec).rsp = some { status := st, record := rec } := (rfl)
@[simp] theorem State.respond_cfgOk (s : State) (st : Status) (rec : Option FrameRecord) : (s.respond st rec).cfgOk = s.cfgOk := (rfl)
@[simp] theorem State.respond_cfgErr (s : State) (st : Status) (rec : Option FrameRecord) : (s.respond st rec).cfgErr = s.cfgErr := (rfl)
@[simp] theorem State.respond_qCap (s : State) (st : Status) (rec : Option FrameRecord) : (s.respond st rec).qCap = s.qCap := (rfl)
@[simp] theorem State.respond_envMin (s : State) (st : Status) (rec : Option FrameRecord) : (s.respond st rec).envMin = s.envMin := (rfl)
@[simp] theorem State.respond_envMax (s : State) (st : Status) (rec : Option FrameRecord) : (s.respond st rec).envMax = s.envMax := (rfl)
@[simp] theorem State.respond_level (s : State) (st : Status) (rec : Option FrameRecord) : (s.respond st rec).level = s.level := (rfl)
@[simp] theorem State.respond_cnt (s : State) (st : Status) (rec : Option FrameRecord) : (s.respond st rec).cnt = s.cnt := (rfl)
@[simp] theorem State.respond_period (s : State) (st : Status) (rec : Option FrameRecord) : (s.respond st rec).period = s.period := (rfl)
@[simp] theorem State.respond_limit (s : State) (st : Status) (rec : Option FrameRecord) : (s.respond st rec).limit = s.limit := (rfl)
@[simp] theorem State.respond_tic (s : State) (st : Status) (rec : Option FrameRecord) : (s.respond st rec).tic = s.tic := (rfl)
@[simp] theorem State.respond_tics (s : State) (st : Status) (rec : Option FrameRecord) : (s.respond st rec).tics = s.tics := (rfl)
@[simp] theorem State.respond_biphaseState (s : State) (st : Status) (rec : Option FrameRecord) : (s.respond st rec).biphaseState = s.biphaseState := (rfl)
@[simp] theorem State.respond_biphasePrev (s : State) (st : Status) (rec : Option FrameRecord) : (s.respond st rec).biphasePrev = s.biphasePrev := (rfl)
@[simp] theorem State.respond_bitCnt (s : State) (st : Status) (rec : Option FrameRecord) : (s.respond st rec).bitCnt = s.bitCnt := (rfl)
@[simp] theorem State.respond_frame (s : State) (st : Status) (rec : Option FrameRecord) : (s.respond st rec).frame = s.frame := (rfl)
@[simp] theorem State.respond_syncWord (s : State) (st : Status) (rec : Option FrameRecord) : (s.respond st rec).syncWord = s.syncWord := (rfl)
@[simp] theorem State.respond_frameStart (s : State) (st : Status) (rec : Option FrameRecord) : (s.respond st rec).frameStart = s.frameStart := (rfl)
@[simp] theorem State.respond_lastBitPos (s : State) (st : Status) (rec : Option FrameRecord) : (s.respond st rec).lastBitPos = s.lastBitPos := (rfl)
@[simp] theorem State.respond_lastBitValid (s : State) (st : Status) (rec : Option FrameRecord) : (s.respond st rec).lastBitValid = s.lastBitValid := (rfl)
@[simp] theorem State.respond_pos (s : State) (st : Status) (rec : Option FrameRecord) : (s.respond st rec).pos = s.pos := (rfl)
@[simp] theorem State.respond_qWr (s : State) (st : Status) (rec : Option FrameRecord) : (s.respond st rec).qWr = s.qWr := (rfl)
@[simp] theorem State.respond_qRd (s : State) (st : Status) (rec : Option FrameRecord) : (s.respond st rec).qRd = s.qRd := (rfl)
@[simp] theorem State.respond_qCount (s : State) (st : Status) (rec : Option FrameRecord) : (s.respond st rec).qCount = s.qCount := (rfl)
@[simp] theorem State.respond_slots (s : State) (st : Status) (rec : Option FrameRecord) : (s.respond st rec).slots = s.slots := (rfl)

@[simp] theorem State.hardReset_cfg (s : State) : (s.hardReset).cfg = s.cfg := (rfl)
@[simp] theorem State.hardReset_inputs (s : State) : (s.hardReset).inputs = s.inputs := (rfl)
@[simp] theorem State.hardReset_rsp (s : State) : (s.hardReset).rsp = none := (rfl)
@[simp] theorem State.hardReset_cfgOk (s : State) : (s.hardReset).cfgOk = false := (rfl)
@[simp] theorem State.hardReset_cfgErr (s : State) : (s.hardReset).cfgErr = false := (rfl)
@[simp] theorem State.hardReset_qCap (s : State) : (s.hardReset).qCap = 0#16 := (rfl)
@[simp] theorem State.hardReset_envMin (s : State) : (s.hardReset).envMin = s.cfg.center := (rfl)
@[simp] theorem State.hardReset_envMax (s : State) : (s.hardReset).envMax = s.cfg.center := (rfl)
@[simp] theorem State.hardReset_level (s : State) : (s.hardReset).level = false := (rfl)
@[simp] theorem State.hardReset_cnt (s : State) : (s.hardReset).cnt = 0#32 := (rfl)
@[simp] theorem State.hardReset_period (s : State) : (s.hardReset).period = 0#64 := (rfl)
@[simp] theorem State.hardReset_limit (s : State) : (s.hardReset).limit = 0#64 := (rfl)
@[simp] theorem State.hardReset_tic (s : State) : (s.hardReset).tic = 0 := (rfl)
@[simp] theorem State.hardReset_tics (s : State) : (s.hardReset).tics = Vector.replicate 80 0#64 := (rfl)
@[simp] theorem State.hardReset_biphaseState (s : State) : (s.hardReset).biphaseState = .mid := (rfl)
@[simp] theorem State.hardReset_biphasePrev (s : State) : (s.hardReset).biphasePrev = false := (rfl)
@[simp] theorem State.hardReset_bitCnt (s : State) : (s.hardReset).bitCnt = 0 := (rfl)
@[simp] theorem State.hardReset_frame (s : State) : (s.hardReset).frame = Vector.replicate 10 0#8 := (rfl)
@[simp] theorem State.hardReset_syncWord (s : State) : (s.hardReset).syncWord = 0#16 := (rfl)
@[simp] theorem State.hardReset_frameStart (s : State) : (s.hardReset).frameStart = 0#64 := (rfl)
@[simp] theorem State.hardReset_lastBitPos (s : State) : (s.hardReset).lastBitPos = 0#64 := (rfl)
@[simp] theorem State.hardReset_lastBitValid (s : State) : (s.hardReset).lastBitValid = false := (rfl)
@[simp] theorem State.hardReset_pos (s : State) : (s.hardReset).pos = 0#64 := (rfl)
@[simp] theorem State.hardReset_qWr (s : State) : (s.hardReset).qWr = 0#16 := (rfl)
@[simp] theorem State.hardReset_qRd (s : State) : (s.hardReset).qRd = 0#16 := (rfl)
@[simp] theorem State.hardReset_qCount (s : State) : (s.hardReset).qCount = 0#16 := (rfl)
@[simp] theorem State.hardReset_slots (s : State) : (s.hardReset).slots = [] := (rfl)

@[simp] theorem State.failInit_cfg (s : State) : (s.failInit).cfg = s.cfg := (rfl)
@[simp] theorem State.failInit_inputs (s : State) : (s.failInit).inputs = s.inputs := (rfl)
@[simp] theorem State.failInit_rsp (s : State) : (s.failInit).rsp = none := (rfl)
@[simp] theorem State.failInit_cfgOk (s : State) : (s.failInit).cfgOk = false := (rfl)
@[simp] theorem State.failInit_cfgErr (s : State) : (s.failInit).cfgErr = true := (rfl)
@[simp] theorem State.failInit_qCap (s : State) : (s.failInit).qCap = 0#16 := (rfl)
@[simp] theorem State.failInit_envMin (s : State) : (s.failInit).envMin = s.cfg.center := (rfl)
@[simp] theorem State.failInit_envMax (s : State) : (s.failInit).envMax = s.cfg.center := (rfl)
@[simp] theorem State.failInit_level (s : State) : (s.failInit).level = false := (rfl)
@[simp] theorem State.failInit_cnt (s : State) : (s.failInit).cnt = 0#32 := (rfl)
@[simp] theorem State.failInit_period (s : State) : (s.failInit).period = 0#64 := (rfl)
@[simp] theorem State.failInit_limit (s : State) : (s.failInit).limit = 0#64 := (rfl)
@[simp] theorem State.failInit_tic (s : State) : (s.failInit).tic = 0 := (rfl)
@[simp] theorem State.failInit_tics (s : State) : (s.failInit).tics = Vector.replicate 80 0#64 := (rfl)
@[simp] theorem State.failInit_biphaseState (s : State) : (s.failInit).biphaseState = .mid := (rfl)
@[simp] theorem State.failInit_biphasePrev (s : State) : (s.failInit).biphasePrev = false := (rfl)
@[simp] theorem State.failInit_bitCnt (s : State) : (s.failInit).bitCnt = 0 := (rfl)
@[simp] theorem State.failInit_frame (s : State) : (s.failInit).frame = Vector.replicate 10 0#8 := (rfl)
@[simp] theorem State.failInit_syncWord (s : State) : (s.failInit).syncWord = 0#16 := (rfl)
@[simp] theorem State.failInit_frameStart (s : State) : (s.failInit).frameStart = 0#64 := (rfl)
@[simp] theorem State.failInit_lastBitPos (s : State) : (s.failInit).lastBitPos = 0#64 := (rfl)
@[simp] theorem State.failInit_lastBitValid (s : State) : (s.failInit).lastBitValid = false := (rfl)
@[simp] theorem State.failInit_pos (s : State) : (s.failInit).pos = 0#64 := (rfl)
@[simp] theorem State.failInit_qWr (s : State) : (s.failInit).qWr = 0#16 := (rfl)
@[simp] theorem State.failInit_qRd (s : State) : (s.failInit).qRd = 0#16 := (rfl)
@[simp] theorem State.failInit_qCount (s : State) : (s.failInit).qCount = 0#16 := (rfl)
@[simp] theorem State.failInit_slots (s : State) : (s.failInit).slots = [] := (rfl)

@[simp] theorem State.construct_cfg (s : State) (seed : BitVec 48) (cap : BitVec 16) : (s.construct seed cap).cfg = s.cfg := (rfl)
@[simp] theorem State.construct_inputs (s : State) (seed : BitVec 48) (cap : BitVec 16) : (s.construct seed cap).inputs = s.inputs := (rfl)
@[simp] theorem State.construct_rsp (s : State) (seed : BitVec 48) (cap : BitVec 16) : (s.construct seed cap).rsp = none := (rfl)
@[simp] theorem State.construct_cfgOk (s : State) (seed : BitVec 48) (cap : BitVec 16) : (s.construct seed cap).cfgOk = true := (rfl)
@[simp] theorem State.construct_cfgErr (s : State) (seed : BitVec 48) (cap : BitVec 16) : (s.construct seed cap).cfgErr = false := (rfl)
@[simp] theorem State.construct_qCap (s : State) (seed : BitVec 48) (cap : BitVec 16) : (s.construct seed cap).qCap = cap := (rfl)
@[simp] theorem State.construct_envMin (s : State) (seed : BitVec 48) (cap : BitVec 16) : (s.construct seed cap).envMin = s.cfg.center := (rfl)
@[simp] theorem State.construct_envMax (s : State) (seed : BitVec 48) (cap : BitVec 16) : (s.construct seed cap).envMax = s.cfg.center := (rfl)
@[simp] theorem State.construct_level (s : State) (seed : BitVec 48) (cap : BitVec 16) : (s.construct seed cap).level = false := (rfl)
@[simp] theorem State.construct_cnt (s : State) (seed : BitVec 48) (cap : BitVec 16) : (s.construct seed cap).cnt = 0#32 := (rfl)
@[simp] theorem State.construct_period (s : State) (seed : BitVec 48) (cap : BitVec 16) : (s.construct seed cap).period = seedRaw seed := (rfl)
@[simp] theorem State.construct_limit (s : State) (seed : BitVec 48) (cap : BitVec 16) : (s.construct seed cap).limit = limitOf (seedRaw seed) := (rfl)
@[simp] theorem State.construct_tic (s : State) (seed : BitVec 48) (cap : BitVec 16) : (s.construct seed cap).tic = 0 := (rfl)
@[simp] theorem State.construct_tics (s : State) (seed : BitVec 48) (cap : BitVec 16) : (s.construct seed cap).tics = Vector.replicate 80 0#64 := (rfl)
@[simp] theorem State.construct_biphaseState (s : State) (seed : BitVec 48) (cap : BitVec 16) : (s.construct seed cap).biphaseState = .mid := (rfl)
@[simp] theorem State.construct_biphasePrev (s : State) (seed : BitVec 48) (cap : BitVec 16) : (s.construct seed cap).biphasePrev = false := (rfl)
@[simp] theorem State.construct_bitCnt (s : State) (seed : BitVec 48) (cap : BitVec 16) : (s.construct seed cap).bitCnt = 0 := (rfl)
@[simp] theorem State.construct_frame (s : State) (seed : BitVec 48) (cap : BitVec 16) : (s.construct seed cap).frame = Vector.replicate 10 0#8 := (rfl)
@[simp] theorem State.construct_syncWord (s : State) (seed : BitVec 48) (cap : BitVec 16) : (s.construct seed cap).syncWord = 0#16 := (rfl)
@[simp] theorem State.construct_frameStart (s : State) (seed : BitVec 48) (cap : BitVec 16) : (s.construct seed cap).frameStart = 0#64 := (rfl)
@[simp] theorem State.construct_lastBitPos (s : State) (seed : BitVec 48) (cap : BitVec 16) : (s.construct seed cap).lastBitPos = 0#64 := (rfl)
@[simp] theorem State.construct_lastBitValid (s : State) (seed : BitVec 48) (cap : BitVec 16) : (s.construct seed cap).lastBitValid = false := (rfl)
@[simp] theorem State.construct_pos (s : State) (seed : BitVec 48) (cap : BitVec 16) : (s.construct seed cap).pos = 0#64 := (rfl)
@[simp] theorem State.construct_qWr (s : State) (seed : BitVec 48) (cap : BitVec 16) : (s.construct seed cap).qWr = 0#16 := (rfl)
@[simp] theorem State.construct_qRd (s : State) (seed : BitVec 48) (cap : BitVec 16) : (s.construct seed cap).qRd = 0#16 := (rfl)
@[simp] theorem State.construct_qCount (s : State) (seed : BitVec 48) (cap : BitVec 16) : (s.construct seed cap).qCount = 0#16 := (rfl)
@[simp] theorem State.construct_slots (s : State) (seed : BitVec 48) (cap : BitVec 16) : (s.construct seed cap).slots = s.slots := (rfl)

@[simp] theorem State.setPos_cfg (s : State) (p : Position) : (s.setPos p).cfg = s.cfg := (rfl)
@[simp] theorem State.setPos_inputs (s : State) (p : Position) : (s.setPos p).inputs = s.inputs := (rfl)
@[simp] theorem State.setPos_rsp (s : State) (p : Position) : (s.setPos p).rsp = s.rsp := (rfl)
@[simp] theorem State.setPos_cfgOk (s : State) (p : Position) : (s.setPos p).cfgOk = s.cfgOk := (rfl)
@[simp] theorem State.setPos_cfgErr (s : State) (p : Position) : (s.setPos p).cfgErr = s.cfgErr := (rfl)
@[simp] theorem State.setPos_qCap (s : State) (p : Position) : (s.setPos p).qCap = s.qCap := (rfl)
@[simp] theorem State.setPos_envMin (s : State) (p : Position) : (s.setPos p).envMin = s.envMin := (rfl)
@[simp] theorem State.setPos_envMax (s : State) (p : Position) : (s.setPos p).envMax = s.envMax := (rfl)
@[simp] theorem State.setPos_level (s : State) (p : Position) : (s.setPos p).level = s.level := (rfl)
@[simp] theorem State.setPos_cnt (s : State) (p : Position) : (s.setPos p).cnt = s.cnt := (rfl)
@[simp] theorem State.setPos_period (s : State) (p : Position) : (s.setPos p).period = s.period := (rfl)
@[simp] theorem State.setPos_limit (s : State) (p : Position) : (s.setPos p).limit = s.limit := (rfl)
@[simp] theorem State.setPos_tic (s : State) (p : Position) : (s.setPos p).tic = s.tic := (rfl)
@[simp] theorem State.setPos_tics (s : State) (p : Position) : (s.setPos p).tics = s.tics := (rfl)
@[simp] theorem State.setPos_biphaseState (s : State) (p : Position) : (s.setPos p).biphaseState = s.biphaseState := (rfl)
@[simp] theorem State.setPos_biphasePrev (s : State) (p : Position) : (s.setPos p).biphasePrev = s.biphasePrev := (rfl)
@[simp] theorem State.setPos_bitCnt (s : State) (p : Position) : (s.setPos p).bitCnt = s.bitCnt := (rfl)
@[simp] theorem State.setPos_frame (s : State) (p : Position) : (s.setPos p).frame = s.frame := (rfl)
@[simp] theorem State.setPos_syncWord (s : State) (p : Position) : (s.setPos p).syncWord = s.syncWord := (rfl)
@[simp] theorem State.setPos_frameStart (s : State) (p : Position) : (s.setPos p).frameStart = s.frameStart := (rfl)
@[simp] theorem State.setPos_lastBitPos (s : State) (p : Position) : (s.setPos p).lastBitPos = s.lastBitPos := (rfl)
@[simp] theorem State.setPos_lastBitValid (s : State) (p : Position) : (s.setPos p).lastBitValid = s.lastBitValid := (rfl)
@[simp] theorem State.setPos_pos (s : State) (p : Position) : (s.setPos p).pos = p := (rfl)
@[simp] theorem State.setPos_qWr (s : State) (p : Position) : (s.setPos p).qWr = s.qWr := (rfl)
@[simp] theorem State.setPos_qRd (s : State) (p : Position) : (s.setPos p).qRd = s.qRd := (rfl)
@[simp] theorem State.setPos_qCount (s : State) (p : Position) : (s.setPos p).qCount = s.qCount := (rfl)
@[simp] theorem State.setPos_slots (s : State) (p : Position) : (s.setPos p).slots = s.slots := (rfl)

@[simp] theorem State.setEnvelope_cfg (s : State) (lo hi : Sample) : (s.setEnvelope lo hi).cfg = s.cfg := (rfl)
@[simp] theorem State.setEnvelope_inputs (s : State) (lo hi : Sample) : (s.setEnvelope lo hi).inputs = s.inputs := (rfl)
@[simp] theorem State.setEnvelope_rsp (s : State) (lo hi : Sample) : (s.setEnvelope lo hi).rsp = s.rsp := (rfl)
@[simp] theorem State.setEnvelope_cfgOk (s : State) (lo hi : Sample) : (s.setEnvelope lo hi).cfgOk = s.cfgOk := (rfl)
@[simp] theorem State.setEnvelope_cfgErr (s : State) (lo hi : Sample) : (s.setEnvelope lo hi).cfgErr = s.cfgErr := (rfl)
@[simp] theorem State.setEnvelope_qCap (s : State) (lo hi : Sample) : (s.setEnvelope lo hi).qCap = s.qCap := (rfl)
@[simp] theorem State.setEnvelope_envMin (s : State) (lo hi : Sample) : (s.setEnvelope lo hi).envMin = lo := (rfl)
@[simp] theorem State.setEnvelope_envMax (s : State) (lo hi : Sample) : (s.setEnvelope lo hi).envMax = hi := (rfl)
@[simp] theorem State.setEnvelope_level (s : State) (lo hi : Sample) : (s.setEnvelope lo hi).level = s.level := (rfl)
@[simp] theorem State.setEnvelope_cnt (s : State) (lo hi : Sample) : (s.setEnvelope lo hi).cnt = s.cnt := (rfl)
@[simp] theorem State.setEnvelope_period (s : State) (lo hi : Sample) : (s.setEnvelope lo hi).period = s.period := (rfl)
@[simp] theorem State.setEnvelope_limit (s : State) (lo hi : Sample) : (s.setEnvelope lo hi).limit = s.limit := (rfl)
@[simp] theorem State.setEnvelope_tic (s : State) (lo hi : Sample) : (s.setEnvelope lo hi).tic = s.tic := (rfl)
@[simp] theorem State.setEnvelope_tics (s : State) (lo hi : Sample) : (s.setEnvelope lo hi).tics = s.tics := (rfl)
@[simp] theorem State.setEnvelope_biphaseState (s : State) (lo hi : Sample) : (s.setEnvelope lo hi).biphaseState = s.biphaseState := (rfl)
@[simp] theorem State.setEnvelope_biphasePrev (s : State) (lo hi : Sample) : (s.setEnvelope lo hi).biphasePrev = s.biphasePrev := (rfl)
@[simp] theorem State.setEnvelope_bitCnt (s : State) (lo hi : Sample) : (s.setEnvelope lo hi).bitCnt = s.bitCnt := (rfl)
@[simp] theorem State.setEnvelope_frame (s : State) (lo hi : Sample) : (s.setEnvelope lo hi).frame = s.frame := (rfl)
@[simp] theorem State.setEnvelope_syncWord (s : State) (lo hi : Sample) : (s.setEnvelope lo hi).syncWord = s.syncWord := (rfl)
@[simp] theorem State.setEnvelope_frameStart (s : State) (lo hi : Sample) : (s.setEnvelope lo hi).frameStart = s.frameStart := (rfl)
@[simp] theorem State.setEnvelope_lastBitPos (s : State) (lo hi : Sample) : (s.setEnvelope lo hi).lastBitPos = s.lastBitPos := (rfl)
@[simp] theorem State.setEnvelope_lastBitValid (s : State) (lo hi : Sample) : (s.setEnvelope lo hi).lastBitValid = s.lastBitValid := (rfl)
@[simp] theorem State.setEnvelope_pos (s : State) (lo hi : Sample) : (s.setEnvelope lo hi).pos = s.pos := (rfl)
@[simp] theorem State.setEnvelope_qWr (s : State) (lo hi : Sample) : (s.setEnvelope lo hi).qWr = s.qWr := (rfl)
@[simp] theorem State.setEnvelope_qRd (s : State) (lo hi : Sample) : (s.setEnvelope lo hi).qRd = s.qRd := (rfl)
@[simp] theorem State.setEnvelope_qCount (s : State) (lo hi : Sample) : (s.setEnvelope lo hi).qCount = s.qCount := (rfl)
@[simp] theorem State.setEnvelope_slots (s : State) (lo hi : Sample) : (s.setEnvelope lo hi).slots = s.slots := (rfl)

@[simp] theorem State.ringWrite_cfg (s : State) : (s.ringWrite).cfg = s.cfg := (rfl)
@[simp] theorem State.ringWrite_inputs (s : State) : (s.ringWrite).inputs = s.inputs := (rfl)
@[simp] theorem State.ringWrite_rsp (s : State) : (s.ringWrite).rsp = s.rsp := (rfl)
@[simp] theorem State.ringWrite_cfgOk (s : State) : (s.ringWrite).cfgOk = s.cfgOk := (rfl)
@[simp] theorem State.ringWrite_cfgErr (s : State) : (s.ringWrite).cfgErr = s.cfgErr := (rfl)
@[simp] theorem State.ringWrite_qCap (s : State) : (s.ringWrite).qCap = s.qCap := (rfl)
@[simp] theorem State.ringWrite_envMin (s : State) : (s.ringWrite).envMin = s.envMin := (rfl)
@[simp] theorem State.ringWrite_envMax (s : State) : (s.ringWrite).envMax = s.envMax := (rfl)
@[simp] theorem State.ringWrite_level (s : State) : (s.ringWrite).level = s.level := (rfl)
@[simp] theorem State.ringWrite_cnt (s : State) : (s.ringWrite).cnt = s.cnt := (rfl)
@[simp] theorem State.ringWrite_period (s : State) : (s.ringWrite).period = s.period := (rfl)
@[simp] theorem State.ringWrite_limit (s : State) : (s.ringWrite).limit = s.limit := (rfl)
@[simp] theorem State.ringWrite_tic (s : State) : (s.ringWrite).tic = nextTic s.tic := (rfl)
@[simp] theorem State.ringWrite_tics (s : State) : (s.ringWrite).tics = s.tics.set s.tic.val s.period s.tic.isLt := (rfl)
@[simp] theorem State.ringWrite_biphaseState (s : State) : (s.ringWrite).biphaseState = s.biphaseState := (rfl)
@[simp] theorem State.ringWrite_biphasePrev (s : State) : (s.ringWrite).biphasePrev = s.biphasePrev := (rfl)
@[simp] theorem State.ringWrite_bitCnt (s : State) : (s.ringWrite).bitCnt = s.bitCnt := (rfl)
@[simp] theorem State.ringWrite_frame (s : State) : (s.ringWrite).frame = s.frame := (rfl)
@[simp] theorem State.ringWrite_syncWord (s : State) : (s.ringWrite).syncWord = s.syncWord := (rfl)
@[simp] theorem State.ringWrite_frameStart (s : State) : (s.ringWrite).frameStart = s.frameStart := (rfl)
@[simp] theorem State.ringWrite_lastBitPos (s : State) : (s.ringWrite).lastBitPos = s.lastBitPos := (rfl)
@[simp] theorem State.ringWrite_lastBitValid (s : State) : (s.ringWrite).lastBitValid = s.lastBitValid := (rfl)
@[simp] theorem State.ringWrite_pos (s : State) : (s.ringWrite).pos = s.pos := (rfl)
@[simp] theorem State.ringWrite_qWr (s : State) : (s.ringWrite).qWr = s.qWr := (rfl)
@[simp] theorem State.ringWrite_qRd (s : State) : (s.ringWrite).qRd = s.qRd := (rfl)
@[simp] theorem State.ringWrite_qCount (s : State) : (s.ringWrite).qCount = s.qCount := (rfl)
@[simp] theorem State.ringWrite_slots (s : State) : (s.ringWrite).slots = s.slots := (rfl)

@[simp] theorem State.setParity_cfg (s : State) (p : Parity) : (s.setParity p).cfg = s.cfg := (rfl)
@[simp] theorem State.setParity_inputs (s : State) (p : Parity) : (s.setParity p).inputs = s.inputs := (rfl)
@[simp] theorem State.setParity_rsp (s : State) (p : Parity) : (s.setParity p).rsp = s.rsp := (rfl)
@[simp] theorem State.setParity_cfgOk (s : State) (p : Parity) : (s.setParity p).cfgOk = s.cfgOk := (rfl)
@[simp] theorem State.setParity_cfgErr (s : State) (p : Parity) : (s.setParity p).cfgErr = s.cfgErr := (rfl)
@[simp] theorem State.setParity_qCap (s : State) (p : Parity) : (s.setParity p).qCap = s.qCap := (rfl)
@[simp] theorem State.setParity_envMin (s : State) (p : Parity) : (s.setParity p).envMin = s.envMin := (rfl)
@[simp] theorem State.setParity_envMax (s : State) (p : Parity) : (s.setParity p).envMax = s.envMax := (rfl)
@[simp] theorem State.setParity_level (s : State) (p : Parity) : (s.setParity p).level = s.level := (rfl)
@[simp] theorem State.setParity_cnt (s : State) (p : Parity) : (s.setParity p).cnt = s.cnt := (rfl)
@[simp] theorem State.setParity_period (s : State) (p : Parity) : (s.setParity p).period = s.period := (rfl)
@[simp] theorem State.setParity_limit (s : State) (p : Parity) : (s.setParity p).limit = s.limit := (rfl)
@[simp] theorem State.setParity_tic (s : State) (p : Parity) : (s.setParity p).tic = s.tic := (rfl)
@[simp] theorem State.setParity_tics (s : State) (p : Parity) : (s.setParity p).tics = s.tics := (rfl)
@[simp] theorem State.setParity_biphaseState (s : State) (p : Parity) : (s.setParity p).biphaseState = p := (rfl)
@[simp] theorem State.setParity_biphasePrev (s : State) (p : Parity) : (s.setParity p).biphasePrev = s.biphasePrev := (rfl)
@[simp] theorem State.setParity_bitCnt (s : State) (p : Parity) : (s.setParity p).bitCnt = s.bitCnt := (rfl)
@[simp] theorem State.setParity_frame (s : State) (p : Parity) : (s.setParity p).frame = s.frame := (rfl)
@[simp] theorem State.setParity_syncWord (s : State) (p : Parity) : (s.setParity p).syncWord = s.syncWord := (rfl)
@[simp] theorem State.setParity_frameStart (s : State) (p : Parity) : (s.setParity p).frameStart = s.frameStart := (rfl)
@[simp] theorem State.setParity_lastBitPos (s : State) (p : Parity) : (s.setParity p).lastBitPos = s.lastBitPos := (rfl)
@[simp] theorem State.setParity_lastBitValid (s : State) (p : Parity) : (s.setParity p).lastBitValid = s.lastBitValid := (rfl)
@[simp] theorem State.setParity_pos (s : State) (p : Parity) : (s.setParity p).pos = s.pos := (rfl)
@[simp] theorem State.setParity_qWr (s : State) (p : Parity) : (s.setParity p).qWr = s.qWr := (rfl)
@[simp] theorem State.setParity_qRd (s : State) (p : Parity) : (s.setParity p).qRd = s.qRd := (rfl)
@[simp] theorem State.setParity_qCount (s : State) (p : Parity) : (s.setParity p).qCount = s.qCount := (rfl)
@[simp] theorem State.setParity_slots (s : State) (p : Parity) : (s.setParity p).slots = s.slots := (rfl)

@[simp] theorem State.rememberLevel_cfg (s : State) : (s.rememberLevel).cfg = s.cfg := (rfl)
@[simp] theorem State.rememberLevel_inputs (s : State) : (s.rememberLevel).inputs = s.inputs := (rfl)
@[simp] theorem State.rememberLevel_rsp (s : State) : (s.rememberLevel).rsp = s.rsp := (rfl)
@[simp] theorem State.rememberLevel_cfgOk (s : State) : (s.rememberLevel).cfgOk = s.cfgOk := (rfl)
@[simp] theorem State.rememberLevel_cfgErr (s : State) : (s.rememberLevel).cfgErr = s.cfgErr := (rfl)
@[simp] theorem State.rememberLevel_qCap (s : State) : (s.rememberLevel).qCap = s.qCap := (rfl)
@[simp] theorem State.rememberLevel_envMin (s : State) : (s.rememberLevel).envMin = s.envMin := (rfl)
@[simp] theorem State.rememberLevel_envMax (s : State) : (s.rememberLevel).envMax = s.envMax := (rfl)
@[simp] theorem State.rememberLevel_level (s : State) : (s.rememberLevel).level = s.level := (rfl)
@[simp] theorem State.rememberLevel_cnt (s : State) : (s.rememberLevel).cnt = s.cnt := (rfl)
@[simp] theorem State.rememberLevel_period (s : State) : (s.rememberLevel).period = s.period := (rfl)
@[simp] theorem State.rememberLevel_limit (s : State) : (s.rememberLevel).limit = s.limit := (rfl)
@[simp] theorem State.rememberLevel_tic (s : State) : (s.rememberLevel).tic = s.tic := (rfl)
@[simp] theorem State.rememberLevel_tics (s : State) : (s.rememberLevel).tics = s.tics := (rfl)
@[simp] theorem State.rememberLevel_biphaseState (s : State) : (s.rememberLevel).biphaseState = s.biphaseState := (rfl)
@[simp] theorem State.rememberLevel_biphasePrev (s : State) : (s.rememberLevel).biphasePrev = s.level := (rfl)
@[simp] theorem State.rememberLevel_bitCnt (s : State) : (s.rememberLevel).bitCnt = s.bitCnt := (rfl)
@[simp] theorem State.rememberLevel_frame (s : State) : (s.rememberLevel).frame = s.frame := (rfl)
@[simp] theorem State.rememberLevel_syncWord (s : State) : (s.rememberLevel).syncWord = s.syncWord := (rfl)
@[simp] theorem State.rememberLevel_frameStart (s : State) : (s.rememberLevel).frameStart = s.frameStart := (rfl)
@[simp] theorem State.rememberLevel_lastBitPos (s : State) : (s.rememberLevel).lastBitPos = s.lastBitPos := (rfl)
@[simp] theorem State.rememberLevel_lastBitValid (s : State) : (s.rememberLevel).lastBitValid = s.lastBitValid := (rfl)
@[simp] theorem State.rememberLevel_pos (s : State) : (s.rememberLevel).pos = s.pos := (rfl)
@[simp] theorem State.rememberLevel_qWr (s : State) : (s.rememberLevel).qWr = s.qWr := (rfl)
@[simp] theorem State.rememberLevel_qRd (s : State) : (s.rememberLevel).qRd = s.qRd := (rfl)
@[simp] theorem State.rememberLevel_qCount (s : State) : (s.rememberLevel).qCount = s.qCount := (rfl)
@[simp] theorem State.rememberLevel_slots (s : State) : (s.rememberLevel).slots = s.slots := (rfl)

@[simp] theorem State.startFrame_cfg (s : State) (x : Position) : (s.startFrame x).cfg = s.cfg := (rfl)
@[simp] theorem State.startFrame_inputs (s : State) (x : Position) : (s.startFrame x).inputs = s.inputs := (rfl)
@[simp] theorem State.startFrame_rsp (s : State) (x : Position) : (s.startFrame x).rsp = s.rsp := (rfl)
@[simp] theorem State.startFrame_cfgOk (s : State) (x : Position) : (s.startFrame x).cfgOk = s.cfgOk := (rfl)
@[simp] theorem State.startFrame_cfgErr (s : State) (x : Position) : (s.startFrame x).cfgErr = s.cfgErr := (rfl)
@[simp] theorem State.startFrame_qCap (s : State) (x : Position) : (s.startFrame x).qCap = s.qCap := (rfl)
@[simp] theorem State.startFrame_envMin (s : State) (x : Position) : (s.startFrame x).envMin = s.envMin := (rfl)
@[simp] theorem State.startFrame_envMax (s : State) (x : Position) : (s.startFrame x).envMax = s.envMax := (rfl)
@[simp] theorem State.startFrame_level (s : State) (x : Position) : (s.startFrame x).level = s.level := (rfl)
@[simp] theorem State.startFrame_cnt (s : State) (x : Position) : (s.startFrame x).cnt = s.cnt := (rfl)
@[simp] theorem State.startFrame_period (s : State) (x : Position) : (s.startFrame x).period = s.period := (rfl)
@[simp] theorem State.startFrame_limit (s : State) (x : Position) : (s.startFrame x).limit = s.limit := (rfl)
@[simp] theorem State.startFrame_tic (s : State) (x : Position) : (s.startFrame x).tic = s.tic := (rfl)
@[simp] theorem State.startFrame_tics (s : State) (x : Position) : (s.startFrame x).tics = s.tics := (rfl)
@[simp] theorem State.startFrame_biphaseState (s : State) (x : Position) : (s.startFrame x).biphaseState = s.biphaseState := (rfl)
@[simp] theorem State.startFrame_biphasePrev (s : State) (x : Position) : (s.startFrame x).biphasePrev = s.biphasePrev := (rfl)
@[simp] theorem State.startFrame_bitCnt (s : State) (x : Position) : (s.startFrame x).bitCnt = s.bitCnt := (rfl)
@[simp] theorem State.startFrame_frame (s : State) (x : Position) : (s.startFrame x).frame = Vector.replicate 10 0#8 := (rfl)
@[simp] theorem State.startFrame_syncWord (s : State) (x : Position) : (s.startFrame x).syncWord = s.syncWord := (rfl)
@[simp] theorem State.startFrame_frameStart (s : State) (x : Position) : (s.startFrame x).frameStart = if s.lastBitValid then s.lastBitPos else backByPeriod x s.period := (rfl)
@[simp] theorem State.startFrame_lastBitPos (s : State) (x : Position) : (s.startFrame x).lastBitPos = s.lastBitPos := (rfl)
@[simp] theorem State.startFrame_lastBitValid (s : State) (x : Position) : (s.startFrame x).lastBitValid = s.lastBitValid := (rfl)
@[simp] theorem State.startFrame_pos (s : State) (x : Position) : (s.startFrame x).pos = s.pos := (rfl)
@[simp] theorem State.startFrame_qWr (s : State) (x : Position) : (s.startFrame x).qWr = s.qWr := (rfl)
@[simp] theorem State.startFrame_qRd (s : State) (x : Position) : (s.startFrame x).qRd = s.qRd := (rfl)
@[simp] theorem State.startFrame_qCount (s : State) (x : Position) : (s.startFrame x).qCount = s.qCount := (rfl)
@[simp] theorem State.startFrame_slots (s : State) (x : Position) : (s.startFrame x).slots = s.slots := (rfl)

@[simp] theorem State.markBit_cfg (s : State) (x : Position) : (s.markBit x).cfg = s.cfg := (rfl)
@[simp] theorem State.markBit_inputs (s : State) (x : Position) : (s.markBit x).inputs = s.inputs := (rfl)
@[simp] theorem State.markBit_rsp (s : State) (x : Position) : (s.markBit x).rsp = s.rsp := (rfl)
@[simp] theorem State.markBit_cfgOk (s : State) (x : Position) : (s.markBit x).cfgOk = s.cfgOk := (rfl)
@[simp] theorem State.markBit_cfgErr (s : State) (x : Position) : (s.markBit x).cfgErr = s.cfgErr := (rfl)
@[simp] theorem State.markBit_qCap (s : State) (x : Position) : (s.markBit x).qCap = s.qCap := (rfl)
@[simp] theorem State.markBit_envMin (s : State) (x : Position) : (s.markBit x).envMin = s.envMin := (rfl)
@[simp] theorem State.markBit_envMax (s : State) (x : Position) : (s.markBit x).envMax = s.envMax := (rfl)
@[simp] theorem State.markBit_level (s : State) (x : Position) : (s.markBit x).level = s.level := (rfl)
@[simp] theorem State.markBit_cnt (s : State) (x : Position) : (s.markBit x).cnt = s.cnt := (rfl)
@[simp] theorem State.markBit_period (s : State) (x : Position) : (s.markBit x).period = s.period := (rfl)
@[simp] theorem State.markBit_limit (s : State) (x : Position) : (s.markBit x).limit = s.limit := (rfl)
@[simp] theorem State.markBit_tic (s : State) (x : Position) : (s.markBit x).tic = s.tic := (rfl)
@[simp] theorem State.markBit_tics (s : State) (x : Position) : (s.markBit x).tics = s.tics := (rfl)
@[simp] theorem State.markBit_biphaseState (s : State) (x : Position) : (s.markBit x).biphaseState = s.biphaseState := (rfl)
@[simp] theorem State.markBit_biphasePrev (s : State) (x : Position) : (s.markBit x).biphasePrev = s.biphasePrev := (rfl)
@[simp] theorem State.markBit_bitCnt (s : State) (x : Position) : (s.markBit x).bitCnt = s.bitCnt := (rfl)
@[simp] theorem State.markBit_frame (s : State) (x : Position) : (s.markBit x).frame = s.frame := (rfl)
@[simp] theorem State.markBit_syncWord (s : State) (x : Position) : (s.markBit x).syncWord = s.syncWord := (rfl)
@[simp] theorem State.markBit_frameStart (s : State) (x : Position) : (s.markBit x).frameStart = s.frameStart := (rfl)
@[simp] theorem State.markBit_lastBitPos (s : State) (x : Position) : (s.markBit x).lastBitPos = x := (rfl)
@[simp] theorem State.markBit_lastBitValid (s : State) (x : Position) : (s.markBit x).lastBitValid = true := (rfl)
@[simp] theorem State.markBit_pos (s : State) (x : Position) : (s.markBit x).pos = s.pos := (rfl)
@[simp] theorem State.markBit_qWr (s : State) (x : Position) : (s.markBit x).qWr = s.qWr := (rfl)
@[simp] theorem State.markBit_qRd (s : State) (x : Position) : (s.markBit x).qRd = s.qRd := (rfl)
@[simp] theorem State.markBit_qCount (s : State) (x : Position) : (s.markBit x).qCount = s.qCount := (rfl)
@[simp] theorem State.markBit_slots (s : State) (x : Position) : (s.markBit x).slots = s.slots := (rfl)

@[simp] theorem State.resync_cfg (s : State) : (s.resync).cfg = s.cfg := (rfl)
@[simp] theorem State.resync_inputs (s : State) : (s.resync).inputs = s.inputs := (rfl)
@[simp] theorem State.resync_rsp (s : State) : (s.resync).rsp = s.rsp := (rfl)
@[simp] theorem State.resync_cfgOk (s : State) : (s.resync).cfgOk = s.cfgOk := (rfl)
@[simp] theorem State.resync_cfgErr (s : State) : (s.resync).cfgErr = s.cfgErr := (rfl)
@[simp] theorem State.resync_qCap (s : State) : (s.resync).qCap = s.qCap := (rfl)
@[simp] theorem State.resync_envMin (s : State) : (s.resync).envMin = s.envMin := (rfl)
@[simp] theorem State.resync_envMax (s : State) : (s.resync).envMax = s.envMax := (rfl)
@[simp] theorem State.resync_level (s : State) : (s.resync).level = s.level := (rfl)
@[simp] theorem State.resync_cnt (s : State) : (s.resync).cnt = s.cnt := (rfl)
@[simp] theorem State.resync_period (s : State) : (s.resync).period = s.period := (rfl)
@[simp] theorem State.resync_limit (s : State) : (s.resync).limit = s.limit := (rfl)
@[simp] theorem State.resync_tic (s : State) : (s.resync).tic = s.tic := (rfl)
@[simp] theorem State.resync_tics (s : State) : (s.resync).tics = s.tics := (rfl)
@[simp] theorem State.resync_biphaseState (s : State) : (s.resync).biphaseState = s.biphaseState := (rfl)
@[simp] theorem State.resync_biphasePrev (s : State) : (s.resync).biphasePrev = s.biphasePrev := (rfl)
@[simp] theorem State.resync_bitCnt (s : State) : (s.resync).bitCnt = 79 := (rfl)
@[simp] theorem State.resync_frame (s : State) : (s.resync).frame = shift1 s.frame := (rfl)
@[simp] theorem State.resync_syncWord (s : State) : (s.resync).syncWord = s.syncWord := (rfl)
@[simp] theorem State.resync_frameStart (s : State) : (s.resync).frameStart = advanceByPeriod s.frameStart s.period := (rfl)
@[simp] theorem State.resync_lastBitPos (s : State) : (s.resync).lastBitPos = s.lastBitPos := (rfl)
@[simp] theorem State.resync_lastBitValid (s : State) : (s.resync).lastBitValid = s.lastBitValid := (rfl)
@[simp] theorem State.resync_pos (s : State) : (s.resync).pos = s.pos := (rfl)
@[simp] theorem State.resync_qWr (s : State) : (s.resync).qWr = s.qWr := (rfl)
@[simp] theorem State.resync_qRd (s : State) : (s.resync).qRd = s.qRd := (rfl)
@[simp] theorem State.resync_qCount (s : State) : (s.resync).qCount = s.qCount := (rfl)
@[simp] theorem State.resync_slots (s : State) : (s.resync).slots = s.slots := (rfl)

@[simp] theorem State.takeBit_cfg (s : State) (b : Bool) : (s.takeBit b).cfg = s.cfg := (rfl)
@[simp] theorem State.takeBit_inputs (s : State) (b : Bool) : (s.takeBit b).inputs = s.inputs := (rfl)
@[simp] theorem State.takeBit_rsp (s : State) (b : Bool) : (s.takeBit b).rsp = s.rsp := (rfl)
@[simp] theorem State.takeBit_cfgOk (s : State) (b : Bool) : (s.takeBit b).cfgOk = s.cfgOk := (rfl)
@[simp] theorem State.takeBit_cfgErr (s : State) (b : Bool) : (s.takeBit b).cfgErr = s.cfgErr := (rfl)
@[simp] theorem State.takeBit_qCap (s : State) (b : Bool) : (s.takeBit b).qCap = s.qCap := (rfl)
@[simp] theorem State.takeBit_envMin (s : State) (b : Bool) : (s.takeBit b).envMin = s.envMin := (rfl)
@[simp] theorem State.takeBit_envMax (s : State) (b : Bool) : (s.takeBit b).envMax = s.envMax := (rfl)
@[simp] theorem State.takeBit_level (s : State) (b : Bool) : (s.takeBit b).level = s.level := (rfl)
@[simp] theorem State.takeBit_cnt (s : State) (b : Bool) : (s.takeBit b).cnt = s.cnt := (rfl)
@[simp] theorem State.takeBit_period (s : State) (b : Bool) : (s.takeBit b).period = s.period := (rfl)
@[simp] theorem State.takeBit_limit (s : State) (b : Bool) : (s.takeBit b).limit = s.limit := (rfl)
@[simp] theorem State.takeBit_tic (s : State) (b : Bool) : (s.takeBit b).tic = s.tic := (rfl)
@[simp] theorem State.takeBit_tics (s : State) (b : Bool) : (s.takeBit b).tics = s.tics := (rfl)
@[simp] theorem State.takeBit_biphaseState (s : State) (b : Bool) : (s.takeBit b).biphaseState = s.biphaseState := (rfl)
@[simp] theorem State.takeBit_biphasePrev (s : State) (b : Bool) : (s.takeBit b).biphasePrev = s.biphasePrev := (rfl)
@[simp] theorem State.takeBit_bitCnt (s : State) (b : Bool) : (s.takeBit b).bitCnt = (storeIndex s.bitCnt).succ := (rfl)
@[simp] theorem State.takeBit_frame (s : State) (b : Bool) : (s.takeBit b).frame = if b then setPayloadBit s.frame (storeIndex s.bitCnt) else s.frame := (rfl)
@[simp] theorem State.takeBit_syncWord (s : State) (b : Bool) : (s.takeBit b).syncWord = shiftIn s.syncWord b := (rfl)
@[simp] theorem State.takeBit_frameStart (s : State) (b : Bool) : (s.takeBit b).frameStart = s.frameStart := (rfl)
@[simp] theorem State.takeBit_lastBitPos (s : State) (b : Bool) : (s.takeBit b).lastBitPos = s.lastBitPos := (rfl)
@[simp] theorem State.takeBit_lastBitValid (s : State) (b : Bool) : (s.takeBit b).lastBitValid = s.lastBitValid := (rfl)
@[simp] theorem State.takeBit_pos (s : State) (b : Bool) : (s.takeBit b).pos = s.pos := (rfl)
@[simp] theorem State.takeBit_qWr (s : State) (b : Bool) : (s.takeBit b).qWr = s.qWr := (rfl)
@[simp] theorem State.takeBit_qRd (s : State) (b : Bool) : (s.takeBit b).qRd = s.qRd := (rfl)
@[simp] theorem State.takeBit_qCount (s : State) (b : Bool) : (s.takeBit b).qCount = s.qCount := (rfl)
@[simp] theorem State.takeBit_slots (s : State) (b : Bool) : (s.takeBit b).slots = s.slots := (rfl)

@[simp] theorem State.clearBitCnt_cfg (s : State) : (s.clearBitCnt).cfg = s.cfg := (rfl)
@[simp] theorem State.clearBitCnt_inputs (s : State) : (s.clearBitCnt).inputs = s.inputs := (rfl)
@[simp] theorem State.clearBitCnt_rsp (s : State) : (s.clearBitCnt).rsp = s.rsp := (rfl)
@[simp] theorem State.clearBitCnt_cfgOk (s : State) : (s.clearBitCnt).cfgOk = s.cfgOk := (rfl)
@[simp] theorem State.clearBitCnt_cfgErr (s : State) : (s.clearBitCnt).cfgErr = s.cfgErr := (rfl)
@[simp] theorem State.clearBitCnt_qCap (s : State) : (s.clearBitCnt).qCap = s.qCap := (rfl)
@[simp] theorem State.clearBitCnt_envMin (s : State) : (s.clearBitCnt).envMin = s.envMin := (rfl)
@[simp] theorem State.clearBitCnt_envMax (s : State) : (s.clearBitCnt).envMax = s.envMax := (rfl)
@[simp] theorem State.clearBitCnt_level (s : State) : (s.clearBitCnt).level = s.level := (rfl)
@[simp] theorem State.clearBitCnt_cnt (s : State) : (s.clearBitCnt).cnt = s.cnt := (rfl)
@[simp] theorem State.clearBitCnt_period (s : State) : (s.clearBitCnt).period = s.period := (rfl)
@[simp] theorem State.clearBitCnt_limit (s : State) : (s.clearBitCnt).limit = s.limit := (rfl)
@[simp] theorem State.clearBitCnt_tic (s : State) : (s.clearBitCnt).tic = s.tic := (rfl)
@[simp] theorem State.clearBitCnt_tics (s : State) : (s.clearBitCnt).tics = s.tics := (rfl)
@[simp] theorem State.clearBitCnt_biphaseState (s : State) : (s.clearBitCnt).biphaseState = s.biphaseState := (rfl)
@[simp] theorem State.clearBitCnt_biphasePrev (s : State) : (s.clearBitCnt).biphasePrev = s.biphasePrev := (rfl)
@[simp] theorem State.clearBitCnt_bitCnt (s : State) : (s.clearBitCnt).bitCnt = 0 := (rfl)
@[simp] theorem State.clearBitCnt_frame (s : State) : (s.clearBitCnt).frame = s.frame := (rfl)
@[simp] theorem State.clearBitCnt_syncWord (s : State) : (s.clearBitCnt).syncWord = s.syncWord := (rfl)
@[simp] theorem State.clearBitCnt_frameStart (s : State) : (s.clearBitCnt).frameStart = s.frameStart := (rfl)
@[simp] theorem State.clearBitCnt_lastBitPos (s : State) : (s.clearBitCnt).lastBitPos = s.lastBitPos := (rfl)
@[simp] theorem State.clearBitCnt_lastBitValid (s : State) : (s.clearBitCnt).lastBitValid = s.lastBitValid := (rfl)
@[simp] theorem State.clearBitCnt_pos (s : State) : (s.clearBitCnt).pos = s.pos := (rfl)
@[simp] theorem State.clearBitCnt_qWr (s : State) : (s.clearBitCnt).qWr = s.qWr := (rfl)
@[simp] theorem State.clearBitCnt_qRd (s : State) : (s.clearBitCnt).qRd = s.qRd := (rfl)
@[simp] theorem State.clearBitCnt_qCount (s : State) : (s.clearBitCnt).qCount = s.qCount := (rfl)
@[simp] theorem State.clearBitCnt_slots (s : State) : (s.clearBitCnt).slots = s.slots := (rfl)

@[simp] theorem State.setPeriod_cfg (s : State) (p l : Raw) : (s.setPeriod p l).cfg = s.cfg := (rfl)
@[simp] theorem State.setPeriod_inputs (s : State) (p l : Raw) : (s.setPeriod p l).inputs = s.inputs := (rfl)
@[simp] theorem State.setPeriod_rsp (s : State) (p l : Raw) : (s.setPeriod p l).rsp = s.rsp := (rfl)
@[simp] theorem State.setPeriod_cfgOk (s : State) (p l : Raw) : (s.setPeriod p l).cfgOk = s.cfgOk := (rfl)
@[simp] theorem State.setPeriod_cfgErr (s : State) (p l : Raw) : (s.setPeriod p l).cfgErr = s.cfgErr := (rfl)
@[simp] theorem State.setPeriod_qCap (s : State) (p l : Raw) : (s.setPeriod p l).qCap = s.qCap := (rfl)
@[simp] theorem State.setPeriod_envMin (s : State) (p l : Raw) : (s.setPeriod p l).envMin = s.envMin := (rfl)
@[simp] theorem State.setPeriod_envMax (s : State) (p l : Raw) : (s.setPeriod p l).envMax = s.envMax := (rfl)
@[simp] theorem State.setPeriod_level (s : State) (p l : Raw) : (s.setPeriod p l).level = s.level := (rfl)
@[simp] theorem State.setPeriod_cnt (s : State) (p l : Raw) : (s.setPeriod p l).cnt = s.cnt := (rfl)
@[simp] theorem State.setPeriod_period (s : State) (p l : Raw) : (s.setPeriod p l).period = p := (rfl)
@[simp] theorem State.setPeriod_limit (s : State) (p l : Raw) : (s.setPeriod p l).limit = l := (rfl)
@[simp] theorem State.setPeriod_tic (s : State) (p l : Raw) : (s.setPeriod p l).tic = s.tic := (rfl)
@[simp] theorem State.setPeriod_tics (s : State) (p l : Raw) : (s.setPeriod p l).tics = s.tics := (rfl)
@[simp] theorem State.setPeriod_biphaseState (s : State) (p l : Raw) : (s.setPeriod p l).biphaseState = s.biphaseState := (rfl)
@[simp] theorem State.setPeriod_biphasePrev (s : State) (p l : Raw) : (s.setPeriod p l).biphasePrev = s.biphasePrev := (rfl)
@[simp] theorem State.setPeriod_bitCnt (s : State) (p l : Raw) : (s.setPeriod p l).bitCnt = s.bitCnt := (rfl)
@[simp] theorem State.setPeriod_frame (s : State) (p l : Raw) : (s.setPeriod p l).frame = s.frame := (rfl)
@[simp] theorem State.setPeriod_syncWord (s : State) (p l : Raw) : (s.setPeriod p l).syncWord = s.syncWord := (rfl)
@[simp] theorem State.setPeriod_frameStart (s : State) (p l : Raw) : (s.setPeriod p l).frameStart = s.frameStart := (rfl)
@[simp] theorem State.setPeriod_lastBitPos (s : State) (p l : Raw) : (s.setPeriod p l).lastBitPos = s.lastBitPos := (rfl)
@[simp] theorem State.setPeriod_lastBitValid (s : State) (p l : Raw) : (s.setPeriod p l).lastBitValid = s.lastBitValid := (rfl)
@[simp] theorem State.setPeriod_pos (s : State) (p l : Raw) : (s.setPeriod p l).pos = s.pos := (rfl)
@[simp] theorem State.setPeriod_qWr (s : State) (p l : Raw) : (s.setPeriod p l).qWr = s.qWr := (rfl)
@[simp] theorem State.setPeriod_qRd (s : State) (p l : Raw) : (s.setPeriod p l).qRd = s.qRd := (rfl)
@[simp] theorem State.setPeriod_qCount (s : State) (p l : Raw) : (s.setPeriod p l).qCount = s.qCount := (rfl)
@[simp] theorem State.setPeriod_slots (s : State) (p l : Raw) : (s.setPeriod p l).slots = s.slots := (rfl)

@[simp] theorem State.endEdge_cfg (s : State) : (s.endEdge).cfg = s.cfg := (rfl)
@[simp] theorem State.endEdge_inputs (s : State) : (s.endEdge).inputs = s.inputs := (rfl)
@[simp] theorem State.endEdge_rsp (s : State) : (s.endEdge).rsp = s.rsp := (rfl)
@[simp] theorem State.endEdge_cfgOk (s : State) : (s.endEdge).cfgOk = s.cfgOk := (rfl)
@[simp] theorem State.endEdge_cfgErr (s : State) : (s.endEdge).cfgErr = s.cfgErr := (rfl)
@[simp] theorem State.endEdge_qCap (s : State) : (s.endEdge).qCap = s.qCap := (rfl)
@[simp] theorem State.endEdge_envMin (s : State) : (s.endEdge).envMin = s.envMin := (rfl)
@[simp] theorem State.endEdge_envMax (s : State) : (s.endEdge).envMax = s.envMax := (rfl)
@[simp] theorem State.endEdge_level (s : State) : (s.endEdge).level = !s.level := (rfl)
@[simp] theorem State.endEdge_cnt (s : State) : (s.endEdge).cnt = 0#32 := (rfl)
@[simp] theorem State.endEdge_period (s : State) : (s.endEdge).period = s.period := (rfl)
@[simp] theorem State.endEdge_limit (s : State) : (s.endEdge).limit = s.limit := (rfl)
@[simp] theorem State.endEdge_tic (s : State) : (s.endEdge).tic = s.tic := (rfl)
@[simp] theorem State.endEdge_tics (s : State) : (s.endEdge).tics = s.tics := (rfl)
@[simp] theorem State.endEdge_biphaseState (s : State) : (s.endEdge).biphaseState = s.biphaseState := (rfl)
@[simp] theorem State.endEdge_biphasePrev (s : State) : (s.endEdge).biphasePrev = s.biphasePrev := (rfl)
@[simp] theorem State.endEdge_bitCnt (s : State) : (s.endEdge).bitCnt = s.bitCnt := (rfl)
@[simp] theorem State.endEdge_frame (s : State) : (s.endEdge).frame = s.frame := (rfl)
@[simp] theorem State.endEdge_syncWord (s : State) : (s.endEdge).syncWord = s.syncWord := (rfl)
@[simp] theorem State.endEdge_frameStart (s : State) : (s.endEdge).frameStart = s.frameStart := (rfl)
@[simp] theorem State.endEdge_lastBitPos (s : State) : (s.endEdge).lastBitPos = s.lastBitPos := (rfl)
@[simp] theorem State.endEdge_lastBitValid (s : State) : (s.endEdge).lastBitValid = s.lastBitValid := (rfl)
@[simp] theorem State.endEdge_pos (s : State) : (s.endEdge).pos = s.pos := (rfl)
@[simp] theorem State.endEdge_qWr (s : State) : (s.endEdge).qWr = s.qWr := (rfl)
@[simp] theorem State.endEdge_qRd (s : State) : (s.endEdge).qRd = s.qRd := (rfl)
@[simp] theorem State.endEdge_qCount (s : State) : (s.endEdge).qCount = s.qCount := (rfl)
@[simp] theorem State.endEdge_slots (s : State) : (s.endEdge).slots = s.slots := (rfl)

@[simp] theorem State.endSample_cfg (s : State) : (s.endSample).cfg = s.cfg := (rfl)
@[simp] theorem State.endSample_inputs (s : State) : (s.endSample).inputs = s.inputs := (rfl)
@[simp] theorem State.endSample_rsp (s : State) : (s.endSample).rsp = s.rsp := (rfl)
@[simp] theorem State.endSample_cfgOk (s : State) : (s.endSample).cfgOk = s.cfgOk := (rfl)
@[simp] theorem State.endSample_cfgErr (s : State) : (s.endSample).cfgErr = s.cfgErr := (rfl)
@[simp] theorem State.endSample_qCap (s : State) : (s.endSample).qCap = s.qCap := (rfl)
@[simp] theorem State.endSample_envMin (s : State) : (s.endSample).envMin = s.envMin := (rfl)
@[simp] theorem State.endSample_envMax (s : State) : (s.endSample).envMax = s.envMax := (rfl)
@[simp] theorem State.endSample_level (s : State) : (s.endSample).level = s.level := (rfl)
@[simp] theorem State.endSample_cnt (s : State) : (s.endSample).cnt = nextCnt s.cnt := (rfl)
@[simp] theorem State.endSample_period (s : State) : (s.endSample).period = s.period := (rfl)
@[simp] theorem State.endSample_limit (s : State) : (s.endSample).limit = s.limit := (rfl)
@[simp] theorem State.endSample_tic (s : State) : (s.endSample).tic = s.tic := (rfl)
@[simp] theorem State.endSample_tics (s : State) : (s.endSample).tics = s.tics := (rfl)
@[simp] theorem State.endSample_biphaseState (s : State) : (s.endSample).biphaseState = s.biphaseState := (rfl)
@[simp] theorem State.endSample_biphasePrev (s : State) : (s.endSample).biphasePrev = s.biphasePrev := (rfl)
@[simp] theorem State.endSample_bitCnt (s : State) : (s.endSample).bitCnt = s.bitCnt := (rfl)
@[simp] theorem State.endSample_frame (s : State) : (s.endSample).frame = s.frame := (rfl)
@[simp] theorem State.endSample_syncWord (s : State) : (s.endSample).syncWord = s.syncWord := (rfl)
@[simp] theorem State.endSample_frameStart (s : State) : (s.endSample).frameStart = s.frameStart := (rfl)
@[simp] theorem State.endSample_lastBitPos (s : State) : (s.endSample).lastBitPos = s.lastBitPos := (rfl)
@[simp] theorem State.endSample_lastBitValid (s : State) : (s.endSample).lastBitValid = s.lastBitValid := (rfl)
@[simp] theorem State.endSample_pos (s : State) : (s.endSample).pos = s.pos + 1#64 := (rfl)
@[simp] theorem State.endSample_qWr (s : State) : (s.endSample).qWr = s.qWr := (rfl)
@[simp] theorem State.endSample_qRd (s : State) : (s.endSample).qRd = s.qRd := (rfl)
@[simp] theorem State.endSample_qCount (s : State) : (s.endSample).qCount = s.qCount := (rfl)
@[simp] theorem State.endSample_slots (s : State) : (s.endSample).slots = s.slots := (rfl)

@[simp] theorem State.enqueue_cfg (s : State) (r : FrameRecord) : (s.enqueue r).cfg = s.cfg := (rfl)
@[simp] theorem State.enqueue_inputs (s : State) (r : FrameRecord) : (s.enqueue r).inputs = s.inputs := (rfl)
@[simp] theorem State.enqueue_rsp (s : State) (r : FrameRecord) : (s.enqueue r).rsp = s.rsp := (rfl)
@[simp] theorem State.enqueue_cfgOk (s : State) (r : FrameRecord) : (s.enqueue r).cfgOk = s.cfgOk := (rfl)
@[simp] theorem State.enqueue_cfgErr (s : State) (r : FrameRecord) : (s.enqueue r).cfgErr = s.cfgErr := (rfl)
@[simp] theorem State.enqueue_qCap (s : State) (r : FrameRecord) : (s.enqueue r).qCap = s.qCap := (rfl)
@[simp] theorem State.enqueue_envMin (s : State) (r : FrameRecord) : (s.enqueue r).envMin = s.envMin := (rfl)
@[simp] theorem State.enqueue_envMax (s : State) (r : FrameRecord) : (s.enqueue r).envMax = s.envMax := (rfl)
@[simp] theorem State.enqueue_level (s : State) (r : FrameRecord) : (s.enqueue r).level = s.level := (rfl)
@[simp] theorem State.enqueue_cnt (s : State) (r : FrameRecord) : (s.enqueue r).cnt = s.cnt := (rfl)
@[simp] theorem State.enqueue_period (s : State) (r : FrameRecord) : (s.enqueue r).period = s.period := (rfl)
@[simp] theorem State.enqueue_limit (s : State) (r : FrameRecord) : (s.enqueue r).limit = s.limit := (rfl)
@[simp] theorem State.enqueue_tic (s : State) (r : FrameRecord) : (s.enqueue r).tic = s.tic := (rfl)
@[simp] theorem State.enqueue_tics (s : State) (r : FrameRecord) : (s.enqueue r).tics = s.tics := (rfl)
@[simp] theorem State.enqueue_biphaseState (s : State) (r : FrameRecord) : (s.enqueue r).biphaseState = s.biphaseState := (rfl)
@[simp] theorem State.enqueue_biphasePrev (s : State) (r : FrameRecord) : (s.enqueue r).biphasePrev = s.biphasePrev := (rfl)
@[simp] theorem State.enqueue_bitCnt (s : State) (r : FrameRecord) : (s.enqueue r).bitCnt = s.bitCnt := (rfl)
@[simp] theorem State.enqueue_frame (s : State) (r : FrameRecord) : (s.enqueue r).frame = s.frame := (rfl)
@[simp] theorem State.enqueue_syncWord (s : State) (r : FrameRecord) : (s.enqueue r).syncWord = s.syncWord := (rfl)
@[simp] theorem State.enqueue_frameStart (s : State) (r : FrameRecord) : (s.enqueue r).frameStart = s.frameStart := (rfl)
@[simp] theorem State.enqueue_lastBitPos (s : State) (r : FrameRecord) : (s.enqueue r).lastBitPos = s.lastBitPos := (rfl)
@[simp] theorem State.enqueue_lastBitValid (s : State) (r : FrameRecord) : (s.enqueue r).lastBitValid = s.lastBitValid := (rfl)
@[simp] theorem State.enqueue_pos (s : State) (r : FrameRecord) : (s.enqueue r).pos = s.pos := (rfl)
@[simp] theorem State.enqueue_qWr (s : State) (r : FrameRecord) : (s.enqueue r).qWr = nextSlot s.qWr s.qCap := (rfl)
@[simp] theorem State.enqueue_qRd (s : State) (r : FrameRecord) : (s.enqueue r).qRd = if s.qCount = s.qCap then nextSlot s.qRd s.qCap else s.qRd := (rfl)
@[simp] theorem State.enqueue_qCount (s : State) (r : FrameRecord) : (s.enqueue r).qCount = if s.qCount = s.qCap then s.qCount else s.qCount + 1#16 := (rfl)
@[simp] theorem State.enqueue_slots (s : State) (r : FrameRecord) : (s.enqueue r).slots = s.slots.write s.qWr.toNat r := (rfl)

@[simp] theorem State.dequeue_cfg (s : State) : (s.dequeue).cfg = s.cfg := (rfl)
@[simp] theorem State.dequeue_inputs (s : State) : (s.dequeue).inputs = s.inputs := (rfl)
@[simp] theorem State.dequeue_rsp (s : State) : (s.dequeue).rsp = s.rsp := (rfl)
@[simp] theorem State.dequeue_cfgOk (s : State) : (s.dequeue).cfgOk = s.cfgOk := (rfl)
@[simp] theorem State.dequeue_cfgErr (s : State) : (s.dequeue).cfgErr = s.cfgErr := (rfl)
@[simp] theorem State.dequeue_qCap (s : State) : (s.dequeue).qCap = s.qCap := (rfl)
@[simp] theorem State.dequeue_envMin (s : State) : (s.dequeue).envMin = s.envMin := (rfl)
@[simp] theorem State.dequeue_envMax (s : State) : (s.dequeue).envMax = s.envMax := (rfl)
@[simp] theorem State.dequeue_level (s : State) : (s.dequeue).level = s.level := (rfl)
@[simp] theorem State.dequeue_cnt (s : State) : (s.dequeue).cnt = s.cnt := (rfl)
@[simp] theorem State.dequeue_period (s : State) : (s.dequeue).period = s.period := (rfl)
@[simp] theorem State.dequeue_limit (s : State) : (s.dequeue).limit = s.limit := (rfl)
@[simp] theorem State.dequeue_tic (s : State) : (s.dequeue).tic = s.tic := (rfl)
@[simp] theorem State.dequeue_tics (s : State) : (s.dequeue).tics = s.tics := (rfl)
@[simp] theorem State.dequeue_biphaseState (s : State) : (s.dequeue).biphaseState = s.biphaseState := (rfl)
@[simp] theorem State.dequeue_biphasePrev (s : State) : (s.dequeue).biphasePrev = s.biphasePrev := (rfl)
@[simp] theorem State.dequeue_bitCnt (s : State) : (s.dequeue).bitCnt = s.bitCnt := (rfl)
@[simp] theorem State.dequeue_frame (s : State) : (s.dequeue).frame = s.frame := (rfl)
@[simp] theorem State.dequeue_syncWord (s : State) : (s.dequeue).syncWord = s.syncWord := (rfl)
@[simp] theorem State.dequeue_frameStart (s : State) : (s.dequeue).frameStart = s.frameStart := (rfl)
@[simp] theorem State.dequeue_lastBitPos (s : State) : (s.dequeue).lastBitPos = s.lastBitPos := (rfl)
@[simp] theorem State.dequeue_lastBitValid (s : State) : (s.dequeue).lastBitValid = s.lastBitValid := (rfl)
@[simp] theorem State.dequeue_pos (s : State) : (s.dequeue).pos = s.pos := (rfl)
@[simp] theorem State.dequeue_qWr (s : State) : (s.dequeue).qWr = s.qWr := (rfl)
@[simp] theorem State.dequeue_qRd (s : State) : (s.dequeue).qRd = nextSlot s.qRd s.qCap := (rfl)
@[simp] theorem State.dequeue_qCount (s : State) : (s.dequeue).qCount = s.qCount - 1#16 := (rfl)
@[simp] theorem State.dequeue_slots (s : State) : (s.dequeue).slots = s.slots := (rfl)

@[simp] theorem State.withInputs_cfg (s : State) (ins : List HostInput) : (s.withInputs ins).cfg = s.cfg := (rfl)
@[simp] theorem State.withInputs_inputs (s : State) (ins : List HostInput) : (s.withInputs ins).inputs = ins := (rfl)
@[simp] theorem State.withInputs_rsp (s : State) (ins : List HostInput) : (s.withInputs ins).rsp = s.rsp := (rfl)
@[simp] theorem State.withInputs_cfgOk (s : State) (ins : List HostInput) : (s.withInputs ins).cfgOk = s.cfgOk := (rfl)
@[simp] theorem State.withInputs_cfgErr (s : State) (ins : List HostInput) : (s.withInputs ins).cfgErr = s.cfgErr := (rfl)
@[simp] theorem State.withInputs_qCap (s : State) (ins : List HostInput) : (s.withInputs ins).qCap = s.qCap := (rfl)
@[simp] theorem State.withInputs_envMin (s : State) (ins : List HostInput) : (s.withInputs ins).envMin = s.envMin := (rfl)
@[simp] theorem State.withInputs_envMax (s : State) (ins : List HostInput) : (s.withInputs ins).envMax = s.envMax := (rfl)
@[simp] theorem State.withInputs_level (s : State) (ins : List HostInput) : (s.withInputs ins).level = s.level := (rfl)
@[simp] theorem State.withInputs_cnt (s : State) (ins : List HostInput) : (s.withInputs ins).cnt = s.cnt := (rfl)
@[simp] theorem State.withInputs_period (s : State) (ins : List HostInput) : (s.withInputs ins).period = s.period := (rfl)
@[simp] theorem State.withInputs_limit (s : State) (ins : List HostInput) : (s.withInputs ins).limit = s.limit := (rfl)
@[simp] theorem State.withInputs_tic (s : State) (ins : List HostInput) : (s.withInputs ins).tic = s.tic := (rfl)
@[simp] theorem State.withInputs_tics (s : State) (ins : List HostInput) : (s.withInputs ins).tics = s.tics := (rfl)
@[simp] theorem State.withInputs_biphaseState (s : State) (ins : List HostInput) : (s.withInputs ins).biphaseState = s.biphaseState := (rfl)
@[simp] theorem State.withInputs_biphasePrev (s : State) (ins : List HostInput) : (s.withInputs ins).biphasePrev = s.biphasePrev := (rfl)
@[simp] theorem State.withInputs_bitCnt (s : State) (ins : List HostInput) : (s.withInputs ins).bitCnt = s.bitCnt := (rfl)
@[simp] theorem State.withInputs_frame (s : State) (ins : List HostInput) : (s.withInputs ins).frame = s.frame := (rfl)
@[simp] theorem State.withInputs_syncWord (s : State) (ins : List HostInput) : (s.withInputs ins).syncWord = s.syncWord := (rfl)
@[simp] theorem State.withInputs_frameStart (s : State) (ins : List HostInput) : (s.withInputs ins).frameStart = s.frameStart := (rfl)
@[simp] theorem State.withInputs_lastBitPos (s : State) (ins : List HostInput) : (s.withInputs ins).lastBitPos = s.lastBitPos := (rfl)
@[simp] theorem State.withInputs_lastBitValid (s : State) (ins : List HostInput) : (s.withInputs ins).lastBitValid = s.lastBitValid := (rfl)
@[simp] theorem State.withInputs_pos (s : State) (ins : List HostInput) : (s.withInputs ins).pos = s.pos := (rfl)
@[simp] theorem State.withInputs_qWr (s : State) (ins : List HostInput) : (s.withInputs ins).qWr = s.qWr := (rfl)
@[simp] theorem State.withInputs_qRd (s : State) (ins : List HostInput) : (s.withInputs ins).qRd = s.qRd := (rfl)
@[simp] theorem State.withInputs_qCount (s : State) (ins : List HostInput) : (s.withInputs ins).qCount = s.qCount := (rfl)
@[simp] theorem State.withInputs_slots (s : State) (ins : List HostInput) : (s.withInputs ins).slots = s.slots := (rfl)

@[simp] theorem State.noResponse_cfg (s : State) : (s.noResponse).cfg = s.cfg := (rfl)
@[simp] theorem State.noResponse_inputs (s : State) : (s.noResponse).inputs = s.inputs := (rfl)
@[simp] theorem State.noResponse_rsp (s : State) : (s.noResponse).rsp = none := (rfl)
@[simp] theorem State.noResponse_cfgOk (s : State) : (s.noResponse).cfgOk = s.cfgOk := (rfl)
@[simp] theorem State.noResponse_cfgErr (s : State) : (s.noResponse).cfgErr = s.cfgErr := (rfl)
@[simp] theorem State.noResponse_qCap (s : State) : (s.noResponse).qCap = s.qCap := (rfl)
@[simp] theorem State.noResponse_envMin (s : State) : (s.noResponse).envMin = s.envMin := (rfl)
@[simp] theorem State.noResponse_envMax (s : State) : (s.noResponse).envMax = s.envMax := (rfl)
@[simp] theorem State.noResponse_level (s : State) : (s.noResponse).level = s.level := (rfl)
@[simp] theorem State.noResponse_cnt (s : State) : (s.noResponse).cnt = s.cnt := (rfl)
@[simp] theorem State.noResponse_period (s : State) : (s.noResponse).period = s.period := (rfl)
@[simp] theorem State.noResponse_limit (s : State) : (s.noResponse).limit = s.limit := (rfl)
@[simp] theorem State.noResponse_tic (s : State) : (s.noResponse).tic = s.tic := (rfl)
@[simp] theorem State.noResponse_tics (s : State) : (s.noResponse).tics = s.tics := (rfl)
@[simp] theorem State.noResponse_biphaseState (s : State) : (s.noResponse).biphaseState = s.biphaseState := (rfl)
@[simp] theorem State.noResponse_biphasePrev (s : State) : (s.noResponse).biphasePrev = s.biphasePrev := (rfl)
@[simp] theorem State.noResponse_bitCnt (s : State) : (s.noResponse).bitCnt = s.bitCnt := (rfl)
@[simp] theorem State.noResponse_frame (s : State) : (s.noResponse).frame = s.frame := (rfl)
@[simp] theorem State.noResponse_syncWord (s : State) : (s.noResponse).syncWord = s.syncWord := (rfl)
@[simp] theorem State.noResponse_frameStart (s : State) : (s.noResponse).frameStart = s.frameStart := (rfl)
@[simp] theorem State.noResponse_lastBitPos (s : State) : (s.noResponse).lastBitPos = s.lastBitPos := (rfl)
@[simp] theorem State.noResponse_lastBitValid (s : State) : (s.noResponse).lastBitValid = s.lastBitValid := (rfl)
@[simp] theorem State.noResponse_pos (s : State) : (s.noResponse).pos = s.pos := (rfl)
@[simp] theorem State.noResponse_qWr (s : State) : (s.noResponse).qWr = s.qWr := (rfl)
@[simp] theorem State.noResponse_qRd (s : State) : (s.noResponse).qRd = s.qRd := (rfl)
@[simp] theorem State.noResponse_qCount (s : State) : (s.noResponse).qCount = s.qCount := (rfl)
@[simp] theorem State.noResponse_slots (s : State) : (s.noResponse).slots = s.slots := (rfl)

end Sys2Proof.Machine
end

