-- ==== Sys2Proof/Laws/Pipeline.lean ====
section
/-!
SUPPORT. What each internal operation never writes (its frame), one lemma per field, and what it writes where that is one
expression.
-/

namespace Sys2Proof.Machine

@[simp] theorem push_cfg (s : State) (f : Payload) (a b : Position) (r : BitVec 64) : (push s f a b r).cfg = s.cfg := by simp [push]
@[simp] theorem push_inputs (s : State) (f : Payload) (a b : Position) (r : BitVec 64) : (push s f a b r).inputs = s.inputs := by simp [push]
@[simp] theorem push_rsp (s : State) (f : Payload) (a b : Position) (r : BitVec 64) : (push s f a b r).rsp = s.rsp := by simp [push]
@[simp] theorem push_cfgOk (s : State) (f : Payload) (a b : Position) (r : BitVec 64) : (push s f a b r).cfgOk = s.cfgOk := by simp [push]
@[simp] theorem push_cfgErr (s : State) (f : Payload) (a b : Position) (r : BitVec 64) : (push s f a b r).cfgErr = s.cfgErr := by simp [push]
@[simp] theorem push_qCap (s : State) (f : Payload) (a b : Position) (r : BitVec 64) : (push s f a b r).qCap = s.qCap := by simp [push]
@[simp] theorem push_envMin (s : State) (f : Payload) (a b : Position) (r : BitVec 64) : (push s f a b r).envMin = s.envMin := by simp [push]
@[simp] theorem push_envMax (s : State) (f : Payload) (a b : Position) (r : BitVec 64) : (push s f a b r).envMax = s.envMax := by simp [push]
@[simp] theorem push_level (s : State) (f : Payload) (a b : Position) (r : BitVec 64) : (push s f a b r).level = s.level := by simp [push]
@[simp] theorem push_cnt (s : State) (f : Payload) (a b : Position) (r : BitVec 64) : (push s f a b r).cnt = s.cnt := by simp [push]
@[simp] theorem push_period (s : State) (f : Payload) (a b : Position) (r : BitVec 64) : (push s f a b r).period = s.period := by simp [push]
@[simp] theorem push_limit (s : State) (f : Payload) (a b : Position) (r : BitVec 64) : (push s f a b r).limit = s.limit := by simp [push]
@[simp] theorem push_tic (s : State) (f : Payload) (a b : Position) (r : BitVec 64) : (push s f a b r).tic = s.tic := by simp [push]
@[simp] theorem push_tics (s : State) (f : Payload) (a b : Position) (r : BitVec 64) : (push s f a b r).tics = s.tics := by simp [push]
@[simp] theorem push_biphaseState (s : State) (f : Payload) (a b : Position) (r : BitVec 64) : (push s f a b r).biphaseState = s.biphaseState := by simp [push]
@[simp] theorem push_biphasePrev (s : State) (f : Payload) (a b : Position) (r : BitVec 64) : (push s f a b r).biphasePrev = s.biphasePrev := by simp [push]
@[simp] theorem push_pos (s : State) (f : Payload) (a b : Position) (r : BitVec 64) : (push s f a b r).pos = s.pos := by simp [push]
@[simp] theorem push_bitCnt (s : State) (f : Payload) (a b : Position) (r : BitVec 64) : (push s f a b r).bitCnt = s.bitCnt := by simp [push]
@[simp] theorem push_frame (s : State) (f : Payload) (a b : Position) (r : BitVec 64) : (push s f a b r).frame = s.frame := by simp [push]
@[simp] theorem push_syncWord (s : State) (f : Payload) (a b : Position) (r : BitVec 64) : (push s f a b r).syncWord = s.syncWord := by simp [push]
@[simp] theorem push_frameStart (s : State) (f : Payload) (a b : Position) (r : BitVec 64) : (push s f a b r).frameStart = s.frameStart := by simp [push]
@[simp] theorem push_lastBitPos (s : State) (f : Payload) (a b : Position) (r : BitVec 64) : (push s f a b r).lastBitPos = s.lastBitPos := by simp [push]
@[simp] theorem push_lastBitValid (s : State) (f : Payload) (a b : Position) (r : BitVec 64) : (push s f a b r).lastBitValid = s.lastBitValid := by simp [push]

@[simp] theorem publishForward_cfg (s : State) (x : Position) : (publishForward s x).cfg = s.cfg := by simp [publishForward]
@[simp] theorem publishForward_inputs (s : State) (x : Position) : (publishForward s x).inputs = s.inputs := by simp [publishForward]
@[simp] theorem publishForward_rsp (s : State) (x : Position) : (publishForward s x).rsp = s.rsp := by simp [publishForward]
@[simp] theorem publishForward_cfgOk (s : State) (x : Position) : (publishForward s x).cfgOk = s.cfgOk := by simp [publishForward]
@[simp] theorem publishForward_cfgErr (s : State) (x : Position) : (publishForward s x).cfgErr = s.cfgErr := by simp [publishForward]
@[simp] theorem publishForward_qCap (s : State) (x : Position) : (publishForward s x).qCap = s.qCap := by simp [publishForward]
@[simp] theorem publishForward_envMin (s : State) (x : Position) : (publishForward s x).envMin = s.envMin := by simp [publishForward]
@[simp] theorem publishForward_envMax (s : State) (x : Position) : (publishForward s x).envMax = s.envMax := by simp [publishForward]
@[simp] theorem publishForward_level (s : State) (x : Position) : (publishForward s x).level = s.level := by simp [publishForward]
@[simp] theorem publishForward_cnt (s : State) (x : Position) : (publishForward s x).cnt = s.cnt := by simp [publishForward]
@[simp] theorem publishForward_period (s : State) (x : Position) : (publishForward s x).period = s.period := by simp [publishForward]
@[simp] theorem publishForward_limit (s : State) (x : Position) : (publishForward s x).limit = s.limit := by simp [publishForward]
@[simp] theorem publishForward_tic (s : State) (x : Position) : (publishForward s x).tic = s.tic := by simp [publishForward]
@[simp] theorem publishForward_tics (s : State) (x : Position) : (publishForward s x).tics = s.tics := by simp [publishForward]
@[simp] theorem publishForward_biphaseState (s : State) (x : Position) : (publishForward s x).biphaseState = s.biphaseState := by simp [publishForward]
@[simp] theorem publishForward_biphasePrev (s : State) (x : Position) : (publishForward s x).biphasePrev = s.biphasePrev := by simp [publishForward]
@[simp] theorem publishForward_pos (s : State) (x : Position) : (publishForward s x).pos = s.pos := by simp [publishForward]
@[simp] theorem publishForward_bitCnt (s : State) (x : Position) : (publishForward s x).bitCnt = s.bitCnt := by simp [publishForward]
@[simp] theorem publishForward_frame (s : State) (x : Position) : (publishForward s x).frame = s.frame := by simp [publishForward]
@[simp] theorem publishForward_syncWord (s : State) (x : Position) : (publishForward s x).syncWord = s.syncWord := by simp [publishForward]
@[simp] theorem publishForward_frameStart (s : State) (x : Position) : (publishForward s x).frameStart = s.frameStart := by simp [publishForward]
@[simp] theorem publishForward_lastBitPos (s : State) (x : Position) : (publishForward s x).lastBitPos = s.lastBitPos := by simp [publishForward]
@[simp] theorem publishForward_lastBitValid (s : State) (x : Position) : (publishForward s x).lastBitValid = s.lastBitValid := by simp [publishForward]

@[simp] theorem publishReverse_cfg (s : State) (x : Position) : (publishReverse s x).cfg = s.cfg := by simp [publishReverse]
@[simp] theorem publishReverse_inputs (s : State) (x : Position) : (publishReverse s x).inputs = s.inputs := by simp [publishReverse]
@[simp] theorem publishReverse_rsp (s : State) (x : Position) : (publishReverse s x).rsp = s.rsp := by simp [publishReverse]
@[simp] theorem publishReverse_cfgOk (s : State) (x : Position) : (publishReverse s x).cfgOk = s.cfgOk := by simp [publishReverse]
@[simp] theorem publishReverse_cfgErr (s : State) (x : Position) : (publishReverse s x).cfgErr = s.cfgErr := by simp [publishReverse]
@[simp] theorem publishReverse_qCap (s : State) (x : Position) : (publishReverse s x).qCap = s.qCap := by simp [publishReverse]
@[simp] theorem publishReverse_envMin (s : State) (x : Position) : (publishReverse s x).envMin = s.envMin := by simp [publishReverse]
@[simp] theorem publishReverse_envMax (s : State) (x : Position) : (publishReverse s x).envMax = s.envMax := by simp [publishReverse]
@[simp] theorem publishReverse_level (s : State) (x : Position) : (publishReverse s x).level = s.level := by simp [publishReverse]
@[simp] theorem publishReverse_cnt (s : State) (x : Position) : (publishReverse s x).cnt = s.cnt := by simp [publishReverse]
@[simp] theorem publishReverse_period (s : State) (x : Position) : (publishReverse s x).period = s.period := by simp [publishReverse]
@[simp] theorem publishReverse_limit (s : State) (x : Position) : (publishReverse s x).limit = s.limit := by simp [publishReverse]
@[simp] theorem publishReverse_tic (s : State) (x : Position) : (publishReverse s x).tic = s.tic := by simp [publishReverse]
@[simp] theorem publishReverse_tics (s : State) (x : Position) : (publishReverse s x).tics = s.tics := by simp [publishReverse]
@[simp] theorem publishReverse_biphaseState (s : State) (x : Position) : (publishReverse s x).biphaseState = s.biphaseState := by simp [publishReverse]
@[simp] theorem publishReverse_biphasePrev (s : State) (x : Position) : (publishReverse s x).biphasePrev = s.biphasePrev := by simp [publishReverse]
@[simp] theorem publishReverse_pos (s : State) (x : Position) : (publishReverse s x).pos = s.pos := by simp [publishReverse]
@[simp] theorem publishReverse_bitCnt (s : State) (x : Position) : (publishReverse s x).bitCnt = s.bitCnt := by simp [publishReverse]
@[simp] theorem publishReverse_frame (s : State) (x : Position) : (publishReverse s x).frame = s.frame := by simp [publishReverse]
@[simp] theorem publishReverse_syncWord (s : State) (x : Position) : (publishReverse s x).syncWord = s.syncWord := by simp [publishReverse]
@[simp] theorem publishReverse_frameStart (s : State) (x : Position) : (publishReverse s x).frameStart = s.frameStart := by simp [publishReverse]
@[simp] theorem publishReverse_lastBitPos (s : State) (x : Position) : (publishReverse s x).lastBitPos = s.lastBitPos := by simp [publishReverse]
@[simp] theorem publishReverse_lastBitValid (s : State) (x : Position) : (publishReverse s x).lastBitValid = s.lastBitValid := by simp [publishReverse]

@[simp] theorem finishForward_cfg (s : State) (x : Position) : (finishForward s x).cfg = s.cfg := by
  unfold finishForward; repeat (split <;> simp)
@[simp] theorem finishForward_inputs (s : State) (x : Position) : (finishForward s x).inputs = s.inputs := by
  unfold finishForward; repeat (split <;> simp)
@[simp] theorem finishForward_rsp (s : State) (x : Position) : (finishForward s x).rsp = s.rsp := by
  unfold finishForward; repeat (split <;> simp)
@[simp] theorem finishForward_cfgOk (s : State) (x : Position) : (finishForward s x).cfgOk = s.cfgOk := by
  unfold finishForward; repeat (split <;> simp)
@[simp] theorem finishForward_cfgErr (s : State) (x : Position) : (finishForward s x).cfgErr = s.cfgErr := by
  unfold finishForward; repeat (split <;> simp)
@[simp] theorem finishForward_qCap (s : State) (x : Position) : (finishForward s x).qCap = s.qCap := by
  unfold finishForward; repeat (split <;> simp)
@[simp] theorem finishForward_envMin (s : State) (x : Position) : (finishForward s x).envMin = s.envMin := by
  unfold finishForward; repeat (split <;> simp)
@[simp] theorem finishForward_envMax (s : State) (x : Position) : (finishForward s x).envMax = s.envMax := by
  unfold finishForward; repeat (split <;> simp)
@[simp] theorem finishForward_level (s : State) (x : Position) : (finishForward s x).level = s.level := by
  unfold finishForward; repeat (split <;> simp)
@[simp] theorem finishForward_cnt (s : State) (x : Position) : (finishForward s x).cnt = s.cnt := by
  unfold finishForward; repeat (split <;> simp)
@[simp] theorem finishForward_period (s : State) (x : Position) : (finishForward s x).period = s.period := by
  unfold finishForward; repeat (split <;> simp)
@[simp] theorem finishForward_limit (s : State) (x : Position) : (finishForward s x).limit = s.limit := by
  unfold finishForward; repeat (split <;> simp)
@[simp] theorem finishForward_tic (s : State) (x : Position) : (finishForward s x).tic = s.tic := by
  unfold finishForward; repeat (split <;> simp)
@[simp] theorem finishForward_tics (s : State) (x : Position) : (finishForward s x).tics = s.tics := by
  unfold finishForward; repeat (split <;> simp)
@[simp] theorem finishForward_biphaseState (s : State) (x : Position) : (finishForward s x).biphaseState = s.biphaseState := by
  unfold finishForward; repeat (split <;> simp)
@[simp] theorem finishForward_biphasePrev (s : State) (x : Position) : (finishForward s x).biphasePrev = s.biphasePrev := by
  unfold finishForward; repeat (split <;> simp)
@[simp] theorem finishForward_pos (s : State) (x : Position) : (finishForward s x).pos = s.pos := by
  unfold finishForward; repeat (split <;> simp)
@[simp] theorem finishForward_frame (s : State) (x : Position) : (finishForward s x).frame = s.frame := by
  unfold finishForward; repeat (split <;> simp)
@[simp] theorem finishForward_syncWord (s : State) (x : Position) : (finishForward s x).syncWord = s.syncWord := by
  unfold finishForward; repeat (split <;> simp)
@[simp] theorem finishForward_frameStart (s : State) (x : Position) : (finishForward s x).frameStart = s.frameStart := by
  unfold finishForward; repeat (split <;> simp)
@[simp] theorem finishForward_lastBitPos (s : State) (x : Position) : (finishForward s x).lastBitPos = s.lastBitPos := by
  unfold finishForward; repeat (split <;> simp)
@[simp] theorem finishForward_lastBitValid (s : State) (x : Position) : (finishForward s x).lastBitValid = s.lastBitValid := by
  unfold finishForward; repeat (split <;> simp)

@[simp] theorem finishReverse_cfg (s : State) (x : Position) : (finishReverse s x).cfg = s.cfg := by
  unfold finishReverse; repeat (split <;> simp)
@[simp] theorem finishReverse_inputs (s : State) (x : Position) : (finishReverse s x).inputs = s.inputs := by
  unfold finishReverse; repeat (split <;> simp)
@[simp] theorem finishReverse_rsp (s : State) (x : Position) : (finishReverse s x).rsp = s.rsp := by
  unfold finishReverse; repeat (split <;> simp)
@[simp] theorem finishReverse_cfgOk (s : State) (x : Position) : (finishReverse s x).cfgOk = s.cfgOk := by
  unfold finishReverse; repeat (split <;> simp)
@[simp] theorem finishReverse_cfgErr (s : State) (x : Position) : (finishReverse s x).cfgErr = s.cfgErr := by
  unfold finishReverse; repeat (split <;> simp)
@[simp] theorem finishReverse_qCap (s : State) (x : Position) : (finishReverse s x).qCap = s.qCap := by
  unfold finishReverse; repeat (split <;> simp)
@[simp] theorem finishReverse_envMin (s : State) (x : Position) : (finishReverse s x).envMin = s.envMin := by
  unfold finishReverse; repeat (split <;> simp)
@[simp] theorem finishReverse_envMax (s : State) (x : Position) : (finishReverse s x).envMax = s.envMax := by
  unfold finishReverse; repeat (split <;> simp)
@[simp] theorem finishReverse_level (s : State) (x : Position) : (finishReverse s x).level = s.level := by
  unfold finishReverse; repeat (split <;> simp)
@[simp] theorem finishReverse_cnt (s : State) (x : Position) : (finishReverse s x).cnt = s.cnt := by
  unfold finishReverse; repeat (split <;> simp)
@[simp] theorem finishReverse_period (s : State) (x : Position) : (finishReverse s x).period = s.period := by
  unfold finishReverse; repeat (split <;> simp)
@[simp] theorem finishReverse_limit (s : State) (x : Position) : (finishReverse s x).limit = s.limit := by
  unfold finishReverse; repeat (split <;> simp)
@[simp] theorem finishReverse_tic (s : State) (x : Position) : (finishReverse s x).tic = s.tic := by
  unfold finishReverse; repeat (split <;> simp)
@[simp] theorem finishReverse_tics (s : State) (x : Position) : (finishReverse s x).tics = s.tics := by
  unfold finishReverse; repeat (split <;> simp)
@[simp] theorem finishReverse_biphaseState (s : State) (x : Position) : (finishReverse s x).biphaseState = s.biphaseState := by
  unfold finishReverse; repeat (split <;> simp)
@[simp] theorem finishReverse_biphasePrev (s : State) (x : Position) : (finishReverse s x).biphasePrev = s.biphasePrev := by
  unfold finishReverse; repeat (split <;> simp)
@[simp] theorem finishReverse_pos (s : State) (x : Position) : (finishReverse s x).pos = s.pos := by
  unfold finishReverse; repeat (split <;> simp)
@[simp] theorem finishReverse_frame (s : State) (x : Position) : (finishReverse s x).frame = s.frame := by
  unfold finishReverse; repeat (split <;> simp)
@[simp] theorem finishReverse_syncWord (s : State) (x : Position) : (finishReverse s x).syncWord = s.syncWord := by
  unfold finishReverse; repeat (split <;> simp)
@[simp] theorem finishReverse_frameStart (s : State) (x : Position) : (finishReverse s x).frameStart = s.frameStart := by
  unfold finishReverse; repeat (split <;> simp)
@[simp] theorem finishReverse_lastBitPos (s : State) (x : Position) : (finishReverse s x).lastBitPos = s.lastBitPos := by
  unfold finishReverse; repeat (split <;> simp)
@[simp] theorem finishReverse_lastBitValid (s : State) (x : Position) : (finishReverse s x).lastBitValid = s.lastBitValid := by
  unfold finishReverse; repeat (split <;> simp)

@[simp] theorem makeRoom_cfg (s : State) (x : Position) : (makeRoom s x).cfg = s.cfg := by
  unfold makeRoom; dsimp only; split <;> split <;> simp
@[simp] theorem makeRoom_inputs (s : State) (x : Position) : (makeRoom s x).inputs = s.inputs := by
  unfold makeRoom; dsimp only; split <;> split <;> simp
@[simp] theorem makeRoom_rsp (s : State) (x : Position) : (makeRoom s x).rsp = s.rsp := by
  unfold makeRoom; dsimp only; split <;> split <;> simp
@[simp] theorem makeRoom_cfgOk (s : State) (x : Position) : (makeRoom s x).cfgOk = s.cfgOk := by
  unfold makeRoom; dsimp only; split <;> split <;> simp
@[simp] theorem makeRoom_cfgErr (s : State) (x : Position) : (makeRoom s x).cfgErr = s.cfgErr := by
  unfold makeRoom; dsimp only; split <;> split <;> simp
@[simp] theorem makeRoom_qCap (s : State) (x : Position) : (makeRoom s x).qCap = s.qCap := by
  unfold makeRoom; dsimp only; split <;> split <;> simp
@[simp] theorem makeRoom_envMin (s : State) (x : Position) : (makeRoom s x).envMin = s.envMin := by
  unfold makeRoom; dsimp only; split <;> split <;> simp
@[simp] theorem makeRoom_envMax (s : State) (x : Position) : (makeRoom s x).envMax = s.envMax := by
  unfold makeRoom; dsimp only; split <;> split <;> simp
@[simp] theorem makeRoom_level (s : State) (x : Position) : (makeRoom s x).level = s.level := by
  unfold makeRoom; dsimp only; split <;> split <;> simp
@[simp] theorem makeRoom_cnt (s : State) (x : Position) : (makeRoom s x).cnt = s.cnt := by
  unfold makeRoom; dsimp only; split <;> split <;> simp
@[simp] theorem makeRoom_period (s : State) (x : Position) : (makeRoom s x).period = s.period := by
  unfold makeRoom; dsimp only; split <;> split <;> simp
@[simp] theorem makeRoom_limit (s : State) (x : Position) : (makeRoom s x).limit = s.limit := by
  unfold makeRoom; dsimp only; split <;> split <;> simp
@[simp] theorem makeRoom_tic (s : State) (x : Position) : (makeRoom s x).tic = s.tic := by
  unfold makeRoom; dsimp only; split <;> split <;> simp
@[simp] theorem makeRoom_tics (s : State) (x : Position) : (makeRoom s x).tics = s.tics := by
  unfold makeRoom; dsimp only; split <;> split <;> simp
@[simp] theorem makeRoom_biphaseState (s : State) (x : Position) : (makeRoom s x).biphaseState = s.biphaseState := by
  unfold makeRoom; dsimp only; split <;> split <;> simp
@[simp] theorem makeRoom_biphasePrev (s : State) (x : Position) : (makeRoom s x).biphasePrev = s.biphasePrev := by
  unfold makeRoom; dsimp only; split <;> split <;> simp
@[simp] theorem makeRoom_pos (s : State) (x : Position) : (makeRoom s x).pos = s.pos := by
  unfold makeRoom; dsimp only; split <;> split <;> simp
@[simp] theorem makeRoom_syncWord (s : State) (x : Position) : (makeRoom s x).syncWord = s.syncWord := by
  unfold makeRoom; dsimp only; split <;> split <;> simp
@[simp] theorem makeRoom_qWr (s : State) (x : Position) : (makeRoom s x).qWr = s.qWr := by
  unfold makeRoom; dsimp only; split <;> split <;> simp
@[simp] theorem makeRoom_qRd (s : State) (x : Position) : (makeRoom s x).qRd = s.qRd := by
  unfold makeRoom; dsimp only; split <;> split <;> simp
@[simp] theorem makeRoom_qCount (s : State) (x : Position) : (makeRoom s x).qCount = s.qCount := by
  unfold makeRoom; dsimp only; split <;> split <;> simp
@[simp] theorem makeRoom_slots (s : State) (x : Position) : (makeRoom s x).slots = s.slots := by
  unfold makeRoom; dsimp only; split <;> split <;> simp

@[simp] theorem makeRoom_lastBitPos (s : State) (x : Position) : (makeRoom s x).lastBitPos = x := by
  unfold makeRoom; dsimp only; split <;> split <;> simp
@[simp] theorem makeRoom_lastBitValid (s : State) (x : Position) : (makeRoom s x).lastBitValid = true := by
  unfold makeRoom; dsimp only; split <;> split <;> simp

@[simp] theorem bit_cfg (s : State) (b : Bool) (x : Position) : (bit s b x).cfg = s.cfg := by simp [bit]
@[simp] theorem bit_inputs (s : State) (b : Bool) (x : Position) : (bit s b x).inputs = s.inputs := by simp [bit]
@[simp] theorem bit_rsp (s : State) (b : Bool) (x : Position) : (bit s b x).rsp = s.rsp := by simp [bit]
@[simp] theorem bit_cfgOk (s : State) (b : Bool) (x : Position) : (bit s b x).cfgOk = s.cfgOk := by simp [bit]
@[simp] theorem bit_cfgErr (s : State) (b : Bool) (x : Position) : (bit s b x).cfgErr = s.cfgErr := by simp [bit]
@[simp] theorem bit_qCap (s : State) (b : Bool) (x : Position) : (bit s b x).qCap = s.qCap := by simp [bit]
@[simp] theorem bit_envMin (s : State) (b : Bool) (x : Position) : (bit s b x).envMin = s.envMin := by simp [bit]
@[simp] theorem bit_envMax (s : State) (b : Bool) (x : Position) : (bit s b x).envMax = s.envMax := by simp [bit]
@[simp] theorem bit_level (s : State) (b : Bool) (x : Position) : (bit s b x).level = s.level := by simp [bit]
@[simp] theorem bit_cnt (s : State) (b : Bool) (x : Position) : (bit s b x).cnt = s.cnt := by simp [bit]
@[simp] theorem bit_period (s : State) (b : Bool) (x : Position) : (bit s b x).period = s.period := by simp [bit]
@[simp] theorem bit_limit (s : State) (b : Bool) (x : Position) : (bit s b x).limit = s.limit := by simp [bit]
@[simp] theorem bit_tic (s : State) (b : Bool) (x : Position) : (bit s b x).tic = s.tic := by simp [bit]
@[simp] theorem bit_tics (s : State) (b : Bool) (x : Position) : (bit s b x).tics = s.tics := by simp [bit]
@[simp] theorem bit_biphaseState (s : State) (b : Bool) (x : Position) : (bit s b x).biphaseState = s.biphaseState := by simp [bit]
@[simp] theorem bit_biphasePrev (s : State) (b : Bool) (x : Position) : (bit s b x).biphasePrev = s.biphasePrev := by simp [bit]
@[simp] theorem bit_pos (s : State) (b : Bool) (x : Position) : (bit s b x).pos = s.pos := by simp [bit]

@[simp] theorem bit_lastBitPos (s : State) (b : Bool) (x : Position) : (bit s b x).lastBitPos = x := by simp [bit]
@[simp] theorem bit_lastBitValid (s : State) (b : Bool) (x : Position) : (bit s b x).lastBitValid = true := by simp [bit]
@[simp] theorem bit_syncWord (s : State) (b : Bool) (x : Position) : (bit s b x).syncWord = shiftIn s.syncWord b := by
  simp [bit]

@[simp] theorem feedBit_cfg (s : State) (b : Option Bool) (x : Position) : (feedBit s b x).cfg = s.cfg := by cases b <;> simp [feedBit]
@[simp] theorem feedBit_inputs (s : State) (b : Option Bool) (x : Position) : (feedBit s b x).inputs = s.inputs := by cases b <;> simp [feedBit]
@[simp] theorem feedBit_rsp (s : State) (b : Option Bool) (x : Position) : (feedBit s b x).rsp = s.rsp := by cases b <;> simp [feedBit]
@[simp] theorem feedBit_cfgOk (s : State) (b : Option Bool) (x : Position) : (feedBit s b x).cfgOk = s.cfgOk := by cases b <;> simp [feedBit]
@[simp] theorem feedBit_cfgErr (s : State) (b : Option Bool) (x : Position) : (feedBit s b x).cfgErr = s.cfgErr := by cases b <;> simp [feedBit]
@[simp] theorem feedBit_qCap (s : State) (b : Option Bool) (x : Position) : (feedBit s b x).qCap = s.qCap := by cases b <;> simp [feedBit]
@[simp] theorem feedBit_envMin (s : State) (b : Option Bool) (x : Position) : (feedBit s b x).envMin = s.envMin := by cases b <;> simp [feedBit]
@[simp] theorem feedBit_envMax (s : State) (b : Option Bool) (x : Position) : (feedBit s b x).envMax = s.envMax := by cases b <;> simp [feedBit]
@[simp] theorem feedBit_level (s : State) (b : Option Bool) (x : Position) : (feedBit s b x).level = s.level := by cases b <;> simp [feedBit]
@[simp] theorem feedBit_cnt (s : State) (b : Option Bool) (x : Position) : (feedBit s b x).cnt = s.cnt := by cases b <;> simp [feedBit]
@[simp] theorem feedBit_period (s : State) (b : Option Bool) (x : Position) : (feedBit s b x).period = s.period := by cases b <;> simp [feedBit]
@[simp] theorem feedBit_limit (s : State) (b : Option Bool) (x : Position) : (feedBit s b x).limit = s.limit := by cases b <;> simp [feedBit]
@[simp] theorem feedBit_tic (s : State) (b : Option Bool) (x : Position) : (feedBit s b x).tic = s.tic := by cases b <;> simp [feedBit]
@[simp] theorem feedBit_tics (s : State) (b : Option Bool) (x : Position) : (feedBit s b x).tics = s.tics := by cases b <;> simp [feedBit]
@[simp] theorem feedBit_biphaseState (s : State) (b : Option Bool) (x : Position) : (feedBit s b x).biphaseState = s.biphaseState := by cases b <;> simp [feedBit]
@[simp] theorem feedBit_biphasePrev (s : State) (b : Option Bool) (x : Position) : (feedBit s b x).biphasePrev = s.biphasePrev := by cases b <;> simp [feedBit]
@[simp] theorem feedBit_pos (s : State) (b : Option Bool) (x : Position) : (feedBit s b x).pos = s.pos := by cases b <;> simp [feedBit]

@[simp] theorem tick_cfg (s : State) (n : Nat) (short : Bool) : (tick s n short).cfg = s.cfg := by simp [tick]
@[simp] theorem tick_inputs (s : State) (n : Nat) (short : Bool) : (tick s n short).inputs = s.inputs := by simp [tick]
@[simp] theorem tick_rsp (s : State) (n : Nat) (short : Bool) : (tick s n short).rsp = s.rsp := by simp [tick]
@[simp] theorem tick_cfgOk (s : State) (n : Nat) (short : Bool) : (tick s n short).cfgOk = s.cfgOk := by simp [tick]
@[simp] theorem tick_cfgErr (s : State) (n : Nat) (short : Bool) : (tick s n short).cfgErr = s.cfgErr := by simp [tick]
@[simp] theorem tick_qCap (s : State) (n : Nat) (short : Bool) : (tick s n short).qCap = s.qCap := by simp [tick]
@[simp] theorem tick_envMin (s : State) (n : Nat) (short : Bool) : (tick s n short).envMin = s.envMin := by simp [tick]
@[simp] theorem tick_envMax (s : State) (n : Nat) (short : Bool) : (tick s n short).envMax = s.envMax := by simp [tick]
@[simp] theorem tick_level (s : State) (n : Nat) (short : Bool) : (tick s n short).level = s.level := by simp [tick]
@[simp] theorem tick_cnt (s : State) (n : Nat) (short : Bool) : (tick s n short).cnt = s.cnt := by simp [tick]
@[simp] theorem tick_period (s : State) (n : Nat) (short : Bool) : (tick s n short).period = s.period := by simp [tick]
@[simp] theorem tick_limit (s : State) (n : Nat) (short : Bool) : (tick s n short).limit = s.limit := by simp [tick]
@[simp] theorem tick_pos (s : State) (n : Nat) (short : Bool) : (tick s n short).pos = s.pos := by simp [tick]

@[simp] theorem tick_tics (s : State) (n : Nat) (short : Bool) :
    (tick s n short).tics = s.tics.set s.tic.val s.period s.tic.isLt := by simp [tick]
@[simp] theorem tick_tic (s : State) (n : Nat) (short : Bool) : (tick s n short).tic = nextTic s.tic := by simp [tick]
@[simp] theorem tick_biphaseState (s : State) (n : Nat) (short : Bool) :
    (tick s n short).biphaseState = (parityStep s.level s.biphasePrev s.biphaseState).1 := by simp [tick]
@[simp] theorem tick_biphasePrev (s : State) (n : Nat) (short : Bool) : (tick s n short).biphasePrev = s.level := by
  simp [tick]

@[simp] theorem edgeTicks_cfg (s : State) (long : Bool) (n : Nat) : (edgeTicks s long n).cfg = s.cfg := by cases long <;> simp [edgeTicks]
@[simp] theorem edgeTicks_inputs (s : State) (long : Bool) (n : Nat) : (edgeTicks s long n).inputs = s.inputs := by cases long <;> simp [edgeTicks]
@[simp] theorem edgeTicks_rsp (s : State) (long : Bool) (n : Nat) : (edgeTicks s long n).rsp = s.rsp := by cases long <;> simp [edgeTicks]
@[simp] theorem edgeTicks_cfgOk (s : State) (long : Bool) (n : Nat) : (edgeTicks s long n).cfgOk = s.cfgOk := by cases long <;> simp [edgeTicks]
@[simp] theorem edgeTicks_cfgErr (s : State) (long : Bool) (n : Nat) : (edgeTicks s long n).cfgErr = s.cfgErr := by cases long <;> simp [edgeTicks]
@[simp] theorem edgeTicks_qCap (s : State) (long : Bool) (n : Nat) : (edgeTicks s long n).qCap = s.qCap := by cases long <;> simp [edgeTicks]
@[simp] theorem edgeTicks_envMin (s : State) (long : Bool) (n : Nat) : (edgeTicks s long n).envMin = s.envMin := by cases long <;> simp [edgeTicks]
@[simp] theorem edgeTicks_envMax (s : State) (long : Bool) (n : Nat) : (edgeTicks s long n).envMax = s.envMax := by cases long <;> simp [edgeTicks]
@[simp] theorem edgeTicks_level (s : State) (long : Bool) (n : Nat) : (edgeTicks s long n).level = s.level := by cases long <;> simp [edgeTicks]
@[simp] theorem edgeTicks_cnt (s : State) (long : Bool) (n : Nat) : (edgeTicks s long n).cnt = s.cnt := by cases long <;> simp [edgeTicks]
@[simp] theorem edgeTicks_period (s : State) (long : Bool) (n : Nat) : (edgeTicks s long n).period = s.period := by cases long <;> simp [edgeTicks]
@[simp] theorem edgeTicks_limit (s : State) (long : Bool) (n : Nat) : (edgeTicks s long n).limit = s.limit := by cases long <;> simp [edgeTicks]
@[simp] theorem edgeTicks_pos (s : State) (long : Bool) (n : Nat) : (edgeTicks s long n).pos = s.pos := by cases long <;> simp [edgeTicks]

@[simp] theorem edgePeriod_cfg (s : State) (n : Nat) : (edgePeriod s n).cfg = s.cfg := by unfold edgePeriod; split <;> simp
@[simp] theorem edgePeriod_inputs (s : State) (n : Nat) : (edgePeriod s n).inputs = s.inputs := by unfold edgePeriod; split <;> simp
@[simp] theorem edgePeriod_rsp (s : State) (n : Nat) : (edgePeriod s n).rsp = s.rsp := by unfold edgePeriod; split <;> simp
@[simp] theorem edgePeriod_cfgOk (s : State) (n : Nat) : (edgePeriod s n).cfgOk = s.cfgOk := by unfold edgePeriod; split <;> simp
@[simp] theorem edgePeriod_cfgErr (s : State) (n : Nat) : (edgePeriod s n).cfgErr = s.cfgErr := by unfold edgePeriod; split <;> simp
@[simp] theorem edgePeriod_qCap (s : State) (n : Nat) : (edgePeriod s n).qCap = s.qCap := by unfold edgePeriod; split <;> simp
@[simp] theorem edgePeriod_envMin (s : State) (n : Nat) : (edgePeriod s n).envMin = s.envMin := by unfold edgePeriod; split <;> simp
@[simp] theorem edgePeriod_envMax (s : State) (n : Nat) : (edgePeriod s n).envMax = s.envMax := by unfold edgePeriod; split <;> simp
@[simp] theorem edgePeriod_level (s : State) (n : Nat) : (edgePeriod s n).level = s.level := by unfold edgePeriod; split <;> simp
@[simp] theorem edgePeriod_cnt (s : State) (n : Nat) : (edgePeriod s n).cnt = s.cnt := by unfold edgePeriod; split <;> simp
@[simp] theorem edgePeriod_tic (s : State) (n : Nat) : (edgePeriod s n).tic = s.tic := by unfold edgePeriod; split <;> simp
@[simp] theorem edgePeriod_tics (s : State) (n : Nat) : (edgePeriod s n).tics = s.tics := by unfold edgePeriod; split <;> simp
@[simp] theorem edgePeriod_biphaseState (s : State) (n : Nat) : (edgePeriod s n).biphaseState = s.biphaseState := by unfold edgePeriod; split <;> simp
@[simp] theorem edgePeriod_biphasePrev (s : State) (n : Nat) : (edgePeriod s n).biphasePrev = s.biphasePrev := by unfold edgePeriod; split <;> simp
@[simp] theorem edgePeriod_frame (s : State) (n : Nat) : (edgePeriod s n).frame = s.frame := by unfold edgePeriod; split <;> simp
@[simp] theorem edgePeriod_syncWord (s : State) (n : Nat) : (edgePeriod s n).syncWord = s.syncWord := by unfold edgePeriod; split <;> simp
@[simp] theorem edgePeriod_frameStart (s : State) (n : Nat) : (edgePeriod s n).frameStart = s.frameStart := by unfold edgePeriod; split <;> simp
@[simp] theorem edgePeriod_lastBitPos (s : State) (n : Nat) : (edgePeriod s n).lastBitPos = s.lastBitPos := by unfold edgePeriod; split <;> simp
@[simp] theorem edgePeriod_lastBitValid (s : State) (n : Nat) : (edgePeriod s n).lastBitValid = s.lastBitValid := by unfold edgePeriod; split <;> simp
@[simp] theorem edgePeriod_pos (s : State) (n : Nat) : (edgePeriod s n).pos = s.pos := by unfold edgePeriod; split <;> simp
@[simp] theorem edgePeriod_qWr (s : State) (n : Nat) : (edgePeriod s n).qWr = s.qWr := by unfold edgePeriod; split <;> simp
@[simp] theorem edgePeriod_qRd (s : State) (n : Nat) : (edgePeriod s n).qRd = s.qRd := by unfold edgePeriod; split <;> simp
@[simp] theorem edgePeriod_qCount (s : State) (n : Nat) : (edgePeriod s n).qCount = s.qCount := by unfold edgePeriod; split <;> simp
@[simp] theorem edgePeriod_slots (s : State) (n : Nat) : (edgePeriod s n).slots = s.slots := by unfold edgePeriod; split <;> simp

@[simp] theorem edge_cfg (s : State) : (edge s).cfg = s.cfg := by simp [edge]
@[simp] theorem edge_inputs (s : State) : (edge s).inputs = s.inputs := by simp [edge]
@[simp] theorem edge_rsp (s : State) : (edge s).rsp = s.rsp := by simp [edge]
@[simp] theorem edge_cfgOk (s : State) : (edge s).cfgOk = s.cfgOk := by simp [edge]
@[simp] theorem edge_cfgErr (s : State) : (edge s).cfgErr = s.cfgErr := by simp [edge]
@[simp] theorem edge_qCap (s : State) : (edge s).qCap = s.qCap := by simp [edge]
@[simp] theorem edge_envMin (s : State) : (edge s).envMin = s.envMin := by simp [edge]
@[simp] theorem edge_envMax (s : State) : (edge s).envMax = s.envMax := by simp [edge]
@[simp] theorem edge_pos (s : State) : (edge s).pos = s.pos := by simp [edge]

@[simp] theorem processSample_cfg (s : State) (v : Sample) : (processSample s v).cfg = s.cfg := by unfold processSample; split <;> simp
@[simp] theorem processSample_inputs (s : State) (v : Sample) : (processSample s v).inputs = s.inputs := by unfold processSample; split <;> simp
@[simp] theorem processSample_rsp (s : State) (v : Sample) : (processSample s v).rsp = s.rsp := by unfold processSample; split <;> simp
@[simp] theorem processSample_cfgOk (s : State) (v : Sample) : (processSample s v).cfgOk = s.cfgOk := by unfold processSample; split <;> simp
@[simp] theorem processSample_cfgErr (s : State) (v : Sample) : (processSample s v).cfgErr = s.cfgErr := by unfold processSample; split <;> simp
@[simp] theorem processSample_qCap (s : State) (v : Sample) : (processSample s v).qCap = s.qCap := by unfold processSample; split <;> simp

end Sys2Proof.Machine
end

