-- ==== Sys2Proof/Laws/Assembler.lean ====
section
/-!
SUPPORT. BIT said once: what making room and taking the bit in leave (R154 to R157), and the three ends a bit can have
(R158 to R160).
-/

namespace Sys2Proof

open Machine

theorem advanceByPeriod_eq (x : Position) (p : Raw) :
    advanceByPeriod x p = x + BitVec.ofNat 64 (ceilOnes p.toNat) := by
  simp only [advanceByPeriod, ceilSamples_eq, ceilOnes]

theorem backByPeriod_eq (x : Position) (p : Raw) : backByPeriod x p = x - BitVec.ofNat 64 (ceilOnes p.toNat) := by
  simp only [backByPeriod, ceilSamples_eq, ceilOnes]

theorem reverseShift_eq (p : Raw) : reverseShift p = BitVec.ofNat 64 (ceilOnes (16 * p.toNat)) := by
  simp only [reverseShift, ceilSamples_eq, ceilOnes, Config.syncBits]

theorem reverseSpan_eq (c : Config) (p : Raw) :
    reverseSpan c p = BitVec.ofNat 64 (c.revSpanBits * p.toNat / 65536) := by
  simp only [reverseSpan, Config.one]

theorem volume_eq (lo hi : Sample) : volume lo hi = volDb (hi.toNat - lo.toNat) := (rfl)

/-- The place a tick decodes at (R151). -/
theorem tickPosition_eq (pos : Position) (n : Nat) (p : Raw) (short : Bool) :
    tickPosition pos n p short =
      if short then pos + BitVec.ofInt 64 (((n : Int) * 65536 - (p.toNat : Int)) / 65536) else pos := by
  simp [tickPosition, countRaw_eq, Config.one]

theorem makeRecord_hist (s : State) (f : Payload) (a b : Position) (r : BitVec 64) (i : Fin 80) :
    (s.makeRecord f a b r).hist[i.val] = s.tics[(s.tic.val + i.val) % 80]'(Nat.mod_lt _ (by decide)) := by
  simp [State.makeRecord]

/-- The state BIT tests for a sync pattern: room made, the bit taken in. -/
abbrev taken (s : State) (b : Bool) (x : Position) : State := (makeRoom s x).takeBit b

theorem makeRoom_bitCnt (s : State) (x : Position) :
    (makeRoom s x).bitCnt = if s.bitCnt = 80 then 79 else s.bitCnt := by
  simp only [makeRoom]
  by_cases h0 : s.bitCnt = 0
  · simp [h0]
  · by_cases h80 : s.bitCnt = 80 <;> simp [h80, h0]

theorem makeRoom_frame (s : State) (x : Position) :
    (makeRoom s x).frame =
      if s.bitCnt = 0 then Vector.replicate 10 0#8 else if s.bitCnt = 80 then shift1 s.frame else s.frame := by
  simp only [makeRoom]
  by_cases h0 : s.bitCnt = 0
  · simp [h0]
  · by_cases h80 : s.bitCnt = 80 <;> simp [h80, h0]

theorem makeRoom_frameStart (s : State) (x : Position) :
    (makeRoom s x).frameStart =
      if s.bitCnt = 0 then (if s.lastBitValid then s.lastBitPos else backByPeriod x s.period)
      else if s.bitCnt = 80 then advanceByPeriod s.frameStart s.period else s.frameStart := by
  simp only [makeRoom]
  by_cases h0 : s.bitCnt = 0
  · simp [h0]
  · by_cases h80 : s.bitCnt = 80 <;> simp [h80, h0]

/-- A bit adds one to the count, which stops at 80 (R157, R161). -/
theorem taken_bitCnt (s : State) (b : Bool) (x : Position) :
    (taken s b x).bitCnt.val = min (s.bitCnt.val + 1) 80 := by
  rw [State.takeBit_bitCnt, Fin.val_succ, storeIndex_val, makeRoom_bitCnt]
  split
  · rename_i h; rw [h]; rfl
  · have := s.bitCnt.isLt; rename_i h
    have : s.bitCnt.val ≠ 80 := fun e => h (Fin.ext e)
    omega

theorem taken_full_iff (s : State) (b : Bool) (x : Position) : (taken s b x).bitCnt = 80 ↔ 79 ≤ s.bitCnt.val := by
  have h := taken_bitCnt s b x
  rw [Fin.ext_iff, h]
  show _ = 80 ↔ _
  omega

/-- The payload register after a bit, position by position (R154, R156, R157, R163). -/
theorem taken_payloadBit (s : State) (b : Bool) (x : Position) (p : Fin 80) :
    payloadBit (taken s b x).frame p =
      if s.bitCnt = 0 then (decide (p = 0) && b)
      else if s.bitCnt = 80 then (if h : p.val < 79 then payloadBit s.frame ⟨p.val + 1, by omega⟩ else b)
      else (payloadBit s.frame p || (decide (p.val = s.bitCnt.val) && b)) := by
  have key : payloadBit (taken s b x).frame p =
      (payloadBit (makeRoom s x).frame p || (decide (p = storeIndex (makeRoom s x).bitCnt) && b)) := by
    rw [State.takeBit_frame]
    cases b <;> simp [payloadBit_set]
  rw [key, makeRoom_frame, makeRoom_bitCnt]
  by_cases h0 : s.bitCnt = 0
  · have e : storeIndex 0 = 0 := rfl
    simp [h0, payloadBit_replicate, e]
  · by_cases h80 : s.bitCnt = 80
    · simp only [h80, if_true]
      have hv : (80 : Fin 81) ≠ 0 := by decide
      have e : storeIndex 79 = 79 := rfl
      simp only [hv, if_false, e]
      by_cases h : p.val < 79
      · have : p ≠ 79 := by rintro rfl; exact absurd h (by decide)
        simp [h, this, payloadBit_shift1]
      · have : p = 79 := Fin.ext (by have := p.isLt; omega)
        subst this; simp [payloadBit_shift1]
    · have hlt : s.bitCnt.val < 80 := by
        have := s.bitCnt.isLt
        have : s.bitCnt.val ≠ 80 := fun e => h80 (Fin.ext e)
        omega
      have e : (p = storeIndex s.bitCnt) ↔ p.val = s.bitCnt.val := by
        rw [Fin.ext_iff, storeIndex_val]; omega
      simp [h0, h80, e]

/-- Without a sync match a bit is only taken in (R157). -/
theorem bit_eq_taken (s : State) (b : Bool) (x : Position) (hf : shiftIn s.syncWord b ≠ s.cfg.syncFwd)
    (hr : shiftIn s.syncWord b ≠ s.cfg.syncRev) : bit s b x = taken s b x := by
  have h1 : syncForward s.cfg (shiftIn s.syncWord b) = false := by simp [syncForward, hf]
  have h2 : syncReverse s.cfg (shiftIn s.syncWord b) = false := by simp [syncReverse, hr]
  simp [bit, finishForward, finishReverse, h1, h2]

/-- A forward match: a full register is published, and the count is cleared (R158, R160). -/
theorem bit_eq_forward (s : State) (b : Bool) (x : Position) (hf : shiftIn s.syncWord b = s.cfg.syncFwd)
    (hr : s.cfg.syncRev ≠ s.cfg.syncFwd) :
    bit s b x = (if (taken s b x).bitCnt = 80 then publishForward (taken s b x) x else taken s b x).clearBitCnt := by
  have h1 : syncForward s.cfg (shiftIn s.syncWord b) = true := by simp [syncForward, hf]
  have h2 : syncReverse s.cfg (shiftIn s.syncWord b) = false := by simp [syncReverse, hf, hr.symm]
  have e : finishForward (taken s b x) x =
      (if (taken s b x).bitCnt = 80 then publishForward (taken s b x) x else taken s b x).clearBitCnt := by
    unfold finishForward
    rw [if_pos (by simpa using h1)]
  have h3 : syncReverse (finishForward (taken s b x) x).cfg (finishForward (taken s b x) x).syncWord = false := by
    simpa using h2
  show finishReverse (finishForward (taken s b x) x) x = _
  unfold finishReverse
  rw [h3, e]
  rfl

/-- A reverse match: a full register is published as a reverse frame, and the count is cleared (R159, R160). -/
theorem bit_eq_reverse (s : State) (b : Bool) (x : Position) (hr : shiftIn s.syncWord b = s.cfg.syncRev)
    (hf : s.cfg.syncRev ≠ s.cfg.syncFwd) :
    bit s b x = (if (taken s b x).bitCnt = 80 then publishReverse (taken s b x) x else taken s b x).clearBitCnt := by
  have h1 : syncForward s.cfg (shiftIn s.syncWord b) = false := by simp [syncForward, hr, hf]
  have h2 : syncReverse s.cfg (shiftIn s.syncWord b) = true := by simp [syncReverse, hr]
  have e : finishForward (taken s b x) x = taken s b x := by
    unfold finishForward
    rw [if_neg (by simp [h1])]
  show finishReverse (finishForward (taken s b x) x) x = _
  rw [e]
  unfold finishReverse
  rw [if_pos (by simpa using h2)]

/-- The configuration check of R11 on the sync patterns. -/
theorem syncRev_ne_syncFwd {c : Config} (h : c.wellFormed = true) : c.syncRev ≠ c.syncFwd := by
  simp only [Config.wellFormed, Bool.and_eq_true, Config.syncOk, bne_iff_ne] at h
  exact h.2

/-- The payload register a bit leaves: a sync match does not touch it. -/
theorem bit_frame (s : State) (b : Bool) (x : Position) : (bit s b x).frame = (taken s b x).frame := by simp [bit]

theorem bit_frameStart (s : State) (b : Bool) (x : Position) :
    (bit s b x).frameStart = (makeRoom s x).frameStart := by simp [bit]

/-- The count a bit leaves: 0 on a match, one more without (R157, R160). -/
theorem bit_bitCnt (s : State) (b : Bool) (x : Position) :
    (bit s b x).bitCnt =
      if shiftIn s.syncWord b = s.cfg.syncFwd ∨ shiftIn s.syncWord b = s.cfg.syncRev then 0 else (taken s b x).bitCnt := by
  by_cases hr : shiftIn s.syncWord b = s.cfg.syncRev
  · have h2 : syncReverse s.cfg (shiftIn s.syncWord b) = true := by simp [syncReverse, hr]
    have e : bit s b x = finishReverse (finishForward (taken s b x) x) x := rfl
    rw [e, finishReverse, if_pos (by simpa using h2)]
    simp [hr]
  · have h2 : syncReverse s.cfg (shiftIn s.syncWord b) = false := by simp [syncReverse, hr]
    by_cases hf : shiftIn s.syncWord b = s.cfg.syncFwd
    · have h1 : syncForward s.cfg (shiftIn s.syncWord b) = true := by simp [syncForward, hf]
      have e : bit s b x = finishReverse (finishForward (taken s b x) x) x := rfl
      rw [e, finishReverse, if_neg (by simpa using h2), finishForward, if_pos (by simpa using h1)]
      simp [hf]
    · rw [bit_eq_taken s b x hf hr]
      simp [hf, hr]

/-- What a bit does to the queue: nothing, or one push of the register that had just become full (R158, R159). -/
theorem bit_queue (s : State) (b : Bool) (x : Position) :
    SameQueue s (bit s b x) ∨
    (79 ≤ s.bitCnt.val ∧ (bit s b x).bitCnt = 0 ∧
      ∃ r, SameQueue (s.enqueue r) (bit s b x)) := by
  by_cases hc : 79 ≤ s.bitCnt.val
  · have hfull := (taken_full_iff s b x).2 hc
    by_cases hf : shiftIn s.syncWord b = s.cfg.syncFwd
    · right
      refine ⟨hc, by rw [bit_bitCnt]; simp [hf], ?_⟩
      have e : finishForward (taken s b x) x = (publishForward (taken s b x) x).clearBitCnt := by
        unfold finishForward
        rw [if_pos (by simp [syncForward, hf]), if_pos hfull]
      refine ⟨(taken s b x).makeRecord (taken s b x).frame (taken s b x).frameStart (x - 1#64) 0#64, ?_⟩
      have e2 : SameQueue (finishForward (taken s b x) x) (bit s b x) := by
        show SameQueue _ (finishReverse (finishForward (taken s b x) x) x)
        unfold finishReverse
        split
        · rw [if_neg (by rw [e]; simp)]
          exact ⟨rfl, rfl, rfl, rfl⟩
        · exact ⟨rfl, rfl, rfl, rfl⟩
      rw [e] at e2
      obtain ⟨a1, a2, a3, a4⟩ := e2
      refine ⟨a1.trans ?_, a2.trans ?_, a3.trans ?_, a4.trans ?_⟩ <;> simp [publishForward, push]
    · by_cases hr : shiftIn s.syncWord b = s.cfg.syncRev
      · right
        refine ⟨hc, by rw [bit_bitCnt]; simp [hr], ?_⟩
        have h := bit_eq_reverse s b x hr (by rw [← hr]; exact hf)
        rw [if_pos hfull] at h
        let u := taken s b x
        refine ⟨u.makeRecord (unreverse u.frame) (u.frameStart - reverseShift u.period)
          (x - 1#64 - reverseShift u.period) (reverseSpan u.cfg u.period), ?_⟩
        rw [h]
        refine ⟨?_, ?_, ?_, ?_⟩ <;> simp [publishReverse, push, u]
      · left
        rw [bit_eq_taken s b x hf hr]
        simp [SameQueue]
  · left
    have hfull := mt (taken_full_iff s b x).1 hc
    have hfull2 : (finishForward (taken s b x) x).bitCnt ≠ 80 := by
      unfold finishForward
      split
      · simp
      · exact hfull
    have e1 : SameQueue s (finishForward (taken s b x) x) := by
      unfold finishForward
      split
      · simp [SameQueue]
      · simp [SameQueue]
    have e2 : SameQueue (finishForward (taken s b x) x) (bit s b x) := by
      show SameQueue _ (finishReverse (finishForward (taken s b x) x) x)
      unfold finishReverse
      split
      · exact ⟨rfl, rfl, rfl, rfl⟩
      · exact ⟨rfl, rfl, rfl, rfl⟩
    obtain ⟨a1, a2, a3, a4⟩ := e1
    obtain ⟨b1, b2, b3, b4⟩ := e2
    exact ⟨b1.trans a1, b2.trans a2, b3.trans a3, b4.trans a4⟩

end Sys2Proof
end

