-- ==== Sys2Proof/Laws/Commands.lean ====
section
/-!
SUPPORT. One law per command: every way it can end (R211 to R215), and the ways a step can end (R210, R218, R280).
-/

namespace Sys2Proof.Machine

theorem exec_init_cases (seed : BitVec 48) (cap : BitVec 16) (s : State) :
    ((seed ≠ 0#48 ∧ 1 ≤ cap.toNat ∧ cap.toNat ≤ s.cfg.queueMax) ∧
      exec (.init seed cap) s = .next ((s.construct seed cap).respond .ok none)) ∨
    ((seed = 0#48 ∨ cap = 0#16 ∨ s.cfg.queueMax < cap.toNat) ∧
      exec (.init seed cap) s = .next (s.failInit.respond .configError none)) := by
  simp only [exec, execInit]
  split
  · rename_i h
    exact .inl ⟨(initValid_iff ..).1 h, rfl⟩
  · rename_i h
    refine .inr ⟨?_, rfl⟩
    rw [initValid_iff] at h
    by_cases h1 : seed = 0#48
    · exact .inl h1
    · by_cases h2 : cap.toNat = 0
      · exact .inr (.inl (BitVec.eq_of_toNat_eq h2))
      · exact .inr (.inr (by by_contra h3; exact h ⟨h1, by omega, by omega⟩))

theorem exec_setpos_cases (p : Position) (s : State) :
    (s.cfgOk = true ∧ exec (.setpos p) s = .next ((s.setPos p).respond .ok none)) ∨
    (s.cfgOk = false ∧ exec (.setpos p) s = .next (s.respond .notConfigured none)) := by
  simp only [exec, execSetpos]
  cases h : s.cfgOk <;> simp

theorem exec_sample_cases (v : Sample) (s : State) :
    (s.cfgOk = true ∧ exec (.sample v) s = .next ((processSample s v).respond .ok none)) ∨
    (s.cfgOk = false ∧ exec (.sample v) s = .next (s.respond .notConfigured none)) := by
  simp only [exec, execSample]
  cases h : s.cfgOk <;> simp

theorem exec_pop_cases (s : State) :
    (s.cfgOk = true ∧ s.qCount = 0#16 ∧ exec .pop s = .next (s.respond .empty none)) ∨
    (s.cfgOk = true ∧ s.qCount ≠ 0#16 ∧ ∃ r, s.slots.read s.qRd.toNat = some r ∧
      exec .pop s = .next (s.dequeue.respond .ok (some r))) ∨
    (s.cfgOk = true ∧ s.qCount ≠ 0#16 ∧ s.slots.read s.qRd.toNat = none ∧ exec .pop s = .fault .unwrittenSlot) ∨
    (s.cfgOk = false ∧ exec .pop s = .next (s.respond .notConfigured none)) := by
  simp only [exec, execPop, popQueue]
  cases h : s.cfgOk
  · simp
  · by_cases h2 : s.qCount = 0#16
    · simp [h2]
    · cases h3 : s.slots.read s.qRd.toNat <;> simp [h2]

/-- Every way a command can end, whichever it is. -/
theorem exec_cases (i : Instr) (s : State) :
    (∃ seed cap, i = .init seed cap) ∨ (∃ p, i = .setpos p) ∨ (∃ v, i = .sample v) ∨ i = .pop ∨
    ((∀ seed cap, i ≠ .init seed cap) ∧ (∀ p, i ≠ .setpos p) ∧ (∀ v, i ≠ .sample v) ∧ i ≠ .pop ∧
      exec i s = .next (s.respond .illegal none) ∧ (opcode i = 0x0#4 ∨ 5 ≤ (opcode i).toNat)) := by
  cases i <;> simp [opcode, exec] <;> rfl

/-- Every way a step can end. -/
theorem step_cases (s : State) :
    (s.cfg.wellFormed = false ∧ step s = .refused .configIllFormed) ∨
    (s.cfg.wellFormed = true ∧ s.inputs = [] ∧ step s = .next s.noResponse) ∨
    (s.cfg.wellFormed = true ∧ ∃ rest, s.inputs = .hardReset :: rest ∧ step s = .next (s.withInputs rest).hardReset) ∨
    (s.cfg.wellFormed = true ∧ ∃ w rest, s.inputs = .command w :: rest ∧
      ((∃ i, decode w = .ok i ∧ step s = exec i (s.withInputs rest)) ∨
       (∃ e, decode w = .error e ∧ step s = .next ((s.withInputs rest).respond .illegal none)))) := by
  cases h : s.cfg.wellFormed
  · left; exact ⟨rfl, by unfold step stepOnce; simp [h]⟩
  · right
    cases hi : s.inputs with
    | nil => left; exact ⟨rfl, rfl, by unfold step stepOnce serve; rw [if_pos h, hi]⟩
    | cons x rest =>
      right
      cases x with
      | hardReset => left; exact ⟨rfl, rest, rfl, by unfold step stepOnce serve; rw [if_pos h, hi]⟩
      | command w =>
        right
        refine ⟨rfl, w, rest, rfl, ?_⟩
        have e : step s = acceptWord w (s.withInputs rest) := by unfold step stepOnce serve; rw [if_pos h, hi]
        rw [e, acceptWord]
        cases hd : decode w with
        | ok i => left; exact ⟨i, rfl, rfl⟩
        | error d => right; exact ⟨d, rfl, rfl⟩

/-- A response without a record shows all zeros (R87). -/
theorem recordBytes_none (st : Status) : (Response.mk st none).recordBytes = List.replicate 684 0#8 := (rfl)

end Sys2Proof.Machine
end

