-- ==== Sys2Proof/Laws/Envelope.lean ====
section
/-!
SUPPORT. LEVEL in natural numbers: while `env_min <= CENTER <= env_max`, the exact integer rules of R111 to R114 are the
truncated natural-number formulas of Safety.lean.
-/

namespace Sys2Proof

open Machine

theorem decayMin_eq (c : Config) (lo : Sample) (h : lo.toNat ≤ c.center.toNat) :
    decayMin c lo = ((c.center.toNat - (c.center.toNat - lo.toNat) * 15 / 16 : Nat) : Int) := by
  simp only [decayMin, sampleInt, Config.decayNum, Config.decayDen]; omega

theorem decayMax_eq (c : Config) (hi : Sample) (h : c.center.toNat ≤ hi.toNat) :
    decayMax c hi = ((c.center.toNat + (hi.toNat - c.center.toNat) * 15 / 16 : Nat) : Int) := by
  simp only [decayMax, sampleInt, Config.decayNum, Config.decayDen]; omega

/-- `env_min` after decay and clamp (R111, R112). -/
theorem envMinNext_toNat (c : Config) (lo v : Sample) (h : lo.toNat ≤ c.center.toNat) :
    (envMinNext c lo v).toNat = specEnvMin c.center.toNat lo.toNat v.toNat := by
  have h1 := c.center.isLt
  have h2 := v.isLt
  have key : (if sampleInt v < decayMin c lo then sampleInt v else decayMin c lo)
      = ((specEnvMin c.center.toNat lo.toNat v.toNat : Nat) : Int) := by
    rw [decayMin_eq c lo h, specEnvMin, sampleInt]; split <;> omega
  rw [envMinNext, key, BitVec.ofInt_natCast, BitVec.toNat_ofNat, Nat.mod_eq_of_lt]
  unfold specEnvMin; omega

/-- `env_max` after decay and clamp (R111, R112). -/
theorem envMaxNext_toNat (c : Config) (hi v : Sample) (h : c.center.toNat ≤ hi.toNat) :
    (envMaxNext c hi v).toNat = specEnvMax c.center.toNat hi.toNat v.toNat := by
  have h1 := c.center.isLt
  have h2 := v.isLt
  have h3 := hi.isLt
  have key : (if decayMax c hi < sampleInt v then sampleInt v else decayMax c hi)
      = ((specEnvMax c.center.toNat hi.toNat v.toNat : Nat) : Int) := by
    rw [decayMax_eq c hi h, specEnvMax, sampleInt]; split <;> omega
  rw [envMaxNext, key, BitVec.ofInt_natCast, BitVec.toNat_ofNat, Nat.mod_eq_of_lt]
  unfold specEnvMax; omega

/-- The change test of the machine is the one Safety.lean states in natural numbers (R113, R114). -/
theorem levelSignals_iff (s : State) (v : Sample) (h : EnvelopeOk s) : levelSignals s v = true ↔ Changes s v := by
  have h1 := envMinNext_toNat s.cfg s.envMin v h.lo
  have h2 := envMaxNext_toNat s.cfg s.envMax v h.hi
  have h3 : specEnvMin s.cfg.center.toNat s.envMin.toNat v.toNat ≤ s.cfg.center.toNat := by unfold specEnvMin; omega
  have h4 : s.cfg.center.toNat ≤ specEnvMax s.cfg.center.toNat s.envMax.toNat v.toNat := by unfold specEnvMax; omega
  simp only [levelSignals, levelChange, thrLo, thrHi, sampleInt, Config.thrNum, Config.thrDen, h1, h2, Changes, envLow,
    envHigh, Bool.or_eq_true, Bool.and_eq_true, decide_eq_true_eq, Bool.not_eq_true']
  constructor
  · rintro (⟨a, b⟩ | ⟨a, b⟩)
    · left; exact ⟨a, by omega⟩
    · right; exact ⟨a, by omega⟩
  · rintro (⟨a, b⟩ | ⟨a, b⟩)
    · left; exact ⟨a, by omega⟩
    · right; exact ⟨a, by omega⟩

/-- The envelope EDGE finds, in the terms of Safety.lean (R111, R112). -/
theorem trackEnvelope_eq_tracked (s : State) (v : Sample) (h : EnvelopeOk s) : s.trackEnvelope v = tracked s v := by
  have lo : envMinNext s.cfg s.envMin v = BitVec.ofNat 8 (envLow s v) := by
    rw [envLow, ← envMinNext_toNat _ _ _ h.lo, BitVec.ofNat_toNat, BitVec.setWidth_eq]
  have hi : envMaxNext s.cfg s.envMax v = BitVec.ofNat 8 (envHigh s v) := by
    rw [envHigh, ← envMaxNext_toNat _ _ _ h.hi, BitVec.ofNat_toNat, BitVec.setWidth_eq]
  rw [State.trackEnvelope, lo, hi]
  rfl

/-- The envelope a sample leaves. -/
theorem processSample_envMin (s : State) (v : Sample) :
    (processSample s v).envMin = envMinNext s.cfg s.envMin v := by
  unfold processSample; split <;> simp

theorem processSample_envMax (s : State) (v : Sample) :
    (processSample s v).envMax = envMaxNext s.cfg s.envMax v := by
  unfold processSample; split <;> simp

/-- A sample keeps the envelope on both sides of the centre. -/
theorem envelopeOk_next (s : State) (v : Sample) (h : EnvelopeOk s) :
    (envMinNext s.cfg s.envMin v).toNat ≤ s.cfg.center.toNat ∧
    s.cfg.center.toNat ≤ (envMaxNext s.cfg s.envMax v).toNat := by
  rw [envMinNext_toNat _ _ _ h.lo, envMaxNext_toNat _ _ _ h.hi]
  unfold specEnvMin specEnvMax; omega

end Sys2Proof
end

