-- ==== Sys2Proof/Laws/Fields.lean ====
section
/-!
SUPPORT. The fields of a command word: `cmd = {op, arg}` and back (R81), and the values of the operand fields (R82, R84).
-/

namespace Sys2Proof

@[simp] theorem opField_append (op : BitVec 4) (arg : Arg) : opField (op ++ arg) = op := by
  apply BitVec.eq_of_getLsbD_eq
  intro i hi
  rw [opField, BitVec.getLsbD_extractLsb']
  refine (congrArg _ (BitVec.getLsbD_append ..)).trans ?_
  simp [hi]

@[simp] theorem argField_append (op : BitVec 4) (arg : Arg) : argField (op ++ arg) = arg := by
  apply BitVec.eq_of_getLsbD_eq
  intro i hi
  rw [argField, BitVec.getLsbD_extractLsb']
  refine (congrArg _ (BitVec.getLsbD_append ..)).trans ?_
  simp [hi]

/-- Every command word is its two fields (R81). -/
theorem word_split (w : CmdWord) : opField w ++ argField w = w := by
  apply BitVec.eq_of_getLsbD_eq
  intro i hi
  simp only [opField, argField, BitVec.getLsbD_extractLsb', BitVec.getLsbD_append]
  by_cases h : i < 64
  · simp [h]
  · have e : 64 + (i - 64) = i := by omega
    simp [h, e]
    omega

theorem opField_encode (i : Instr) : opField (encode i) = opcode i := opField_append _ _

theorem argField_encode (i : Instr) : argField (encode i) = argument i := argField_append _ _

/-- The reserved bits of SAMPLE are zero exactly when the argument is below 256 (R84). -/
theorem reservedSampleBits_iff (arg : Arg) : arg.extractLsb' 8 56 = 0#56 ↔ arg.toNat < 256 := by
  have := arg.isLt
  rw [← BitVec.toNat_inj, BitVec.extractLsb'_toNat, Nat.shiftRight_eq_div_pow]
  simp
  omega

/-- The sample operand (R84). -/
theorem sampleField_toNat (arg : Arg) : (arg.extractLsb' 0 8).toNat = arg.toNat % 256 := by
  simp [BitVec.extractLsb'_toNat]

/-- The two operands of INIT make up its argument (R82). -/
theorem initFields_append (arg : Arg) : arg.extractLsb' 48 16 ++ arg.extractLsb' 0 48 = arg := by
  apply BitVec.eq_of_getLsbD_eq
  intro i hi
  simp only [BitVec.getLsbD_extractLsb', BitVec.getLsbD_append]
  by_cases h : i < 48
  · simp [h]
  · have e : 48 + (i - 48) = i := by omega
    simp [h, e]
    omega

theorem seedField_append (seed : BitVec 48) (cap : BitVec 16) :
    BitVec.extractLsb' 0 48 (cap ++ seed : BitVec 64) = seed := by
  apply BitVec.eq_of_getLsbD_eq
  intro i hi
  rw [BitVec.getLsbD_extractLsb']
  refine (congrArg _ (BitVec.getLsbD_append ..)).trans ?_
  simp [hi]

theorem capField_append (seed : BitVec 48) (cap : BitVec 16) :
    BitVec.extractLsb' 48 16 (cap ++ seed : BitVec 64) = cap := by
  apply BitVec.eq_of_getLsbD_eq
  intro i hi
  rw [BitVec.getLsbD_extractLsb']
  refine (congrArg _ (BitVec.getLsbD_append ..)).trans ?_
  simp [hi]

end Sys2Proof
end

