-- ==== Sys2Proof/Laws/Memory.lean ====
section
/-!
SUPPORT. The laws of the queue memory: read after write, the frame of a write, and that a write keeps the canonical form.
-/

namespace Sys2Proof.Machine

theorem Memory.read_write_same (m : Memory) (i : Nat) (r : FrameRecord) : (m.write i r).read i = some r := by
  induction m with
  | nil => simp [Memory.write, Memory.read]
  | cons e m ih =>
    obtain ⟨a, q⟩ := e
    unfold Memory.write
    split
    · simp [Memory.read]
    · split
      · simp [Memory.read]
      · rename_i h; simp [Memory.read, Ne.symm h, ih]

theorem Memory.read_write_other (m : Memory) {i j : Nat} (h : j ≠ i) (r : FrameRecord) :
    (m.write i r).read j = m.read j := by
  induction m with
  | nil => simp [Memory.write, Memory.read, Ne.symm h]
  | cons e m ih =>
    obtain ⟨a, q⟩ := e
    unfold Memory.write
    split
    · simp [Memory.read, Ne.symm h]
    · split
      · rename_i h2; subst h2; simp [Memory.read, Ne.symm h]
      · simp [Memory.read, ih]

/-- Read after write, in one. -/
theorem Memory.read_write (m : Memory) (i j : Nat) (r : FrameRecord) :
    Memory.read (Memory.write m i r) j = if j = i then some r else Memory.read m j := by
  by_cases h : j = i
  · subst h; simp [Memory.read_write_same]
  · simp [h, Memory.read_write_other m h]

/-- Every entry of a written memory is the new one or an old one. -/
theorem Memory.mem_write (m : Memory) (i : Nat) (r : FrameRecord) {e : Nat × FrameRecord} (h : e ∈ m.write i r) :
    e = (i, r) ∨ e ∈ m := by
  induction m with
  | nil => simpa [Memory.write] using h
  | cons f m ih =>
    obtain ⟨a, q⟩ := f
    unfold Memory.write at h
    split at h
    · simpa using h
    · split at h
      · simp only [List.mem_cons] at h ⊢; tauto
      · simp only [List.mem_cons] at h ⊢
        rcases h with h | h
        · tauto
        · have := ih h; tauto

/-- A write keeps the canonical form. -/
theorem Memory.write_wf (m : Memory) (i : Nat) (r : FrameRecord) (h : m.wf) : (m.write i r).wf := by
  induction m with
  | nil => simp [Memory.write, Memory.wf]
  | cons e m ih =>
    obtain ⟨a, q⟩ := e
    simp only [Memory.wf, List.map_cons, List.pairwise_cons] at h ih
    unfold Memory.write
    split
    · rename_i hlt
      simp only [Memory.wf, List.map_cons, List.pairwise_cons, List.mem_cons]
      refine ⟨?_, h⟩
      rintro b (rfl | hb)
      · exact hlt
      · exact lt_trans hlt (h.1 b hb)
    · split
      · rename_i heq
        subst heq
        simpa only [Memory.wf, List.map_cons, List.pairwise_cons] using h
      · rename_i hge hne
        simp only [Memory.wf, List.map_cons, List.pairwise_cons]
        refine ⟨?_, ih h.2⟩
        intro b hb
        obtain ⟨e, he, rfl⟩ := List.mem_map.1 hb
        rcases Memory.mem_write m i r he with rfl | he
        · show a < i; omega
        · exact h.1 _ (List.mem_map_of_mem he)

/-- A slot below every listed one holds no value. -/
theorem Memory.read_none_of_lt (m : Memory) (i : Nat) (h : ∀ e ∈ m, i < e.1) : m.read i = none := by
  induction m with
  | nil => rfl
  | cons e m ih =>
    have h1 := h e (by simp)
    have h2 := ih fun e he => h e (by simp [he])
    simp [Memory.read, h2]; omega

end Sys2Proof.Machine
end

