-- ==== Sys2Proof/Laws/Sample.lean ====
section
/-!
SUPPORT. TICK, EDGE and SAMPLE said once: what each does to the queue and to `bit_cnt` (R150 to R164), to the ring and the
parity (R150 to R153), and to the period (R131 to R138).
-/

namespace Sys2Proof

open Machine

theorem SameQueue.refl (s : State) : SameQueue s s := ⟨rfl, rfl, rfl, rfl⟩

theorem SameQueue.symm {s t : State} (h : SameQueue s t) : SameQueue t s := by
  obtain ⟨a, b, c, d⟩ := h
  exact ⟨a.symm, b.symm, c.symm, d.symm⟩

theorem SameQueue.trans {s t u : State} (h : SameQueue s t) (h' : SameQueue t u) : SameQueue s u := by
  obtain ⟨a, b, c, d⟩ := h
  obtain ⟨e, f, g, i⟩ := h'
  exact ⟨e.trans a, f.trans b, g.trans c, i.trans d⟩

/-- The same record pushed into the same queue gives the same queue. -/
theorem SameQueue.enqueue {s t : State} (h : SameQueue s t) (hc : t.qCap = s.qCap) (r : FrameRecord) :
    SameQueue (s.enqueue r) (t.enqueue r) := by
  obtain ⟨a, b, c, d⟩ := h
  simp [SameQueue, a, b, c, d, hc]

/-- What a tick does to the queue. -/
theorem tick_queue (s : State) (n : Nat) (short : Bool) :
    SameQueue s (tick s n short) ∨
    (79 ≤ s.bitCnt.val ∧ (tick s n short).bitCnt = 0 ∧ ∃ r, SameQueue (s.enqueue r) (tick s n short)) := by
  simp only [tick]
  generalize (parityStep s.level s.biphasePrev s.biphaseState).1 = p
  generalize (parityStep s.level s.biphasePrev s.biphaseState).2 = d
  generalize tickPosition s.pos n s.period short = x
  have e : SameQueue s (s.ringWrite.setParity p) := by simp [SameQueue]
  cases d with
  | none => left; exact e
  | some b =>
    rcases bit_queue (s.ringWrite.setParity p) b x with h | ⟨h1, h2, r, h3⟩
    · left; exact e.trans h
    · right
      refine ⟨by simpa using h1, by simpa [feedBit] using h2, r, ?_⟩
      exact (e.enqueue (by simp) r).trans h3

theorem bit_bitCnt_le (s : State) (b : Bool) (x : Position) : (bit s b x).bitCnt.val ≤ s.bitCnt.val + 1 := by
  rw [bit_bitCnt]
  split
  · simp
  · rw [taken_bitCnt]; omega

/-- A tick adds at most one bit. -/
theorem tick_bitCnt_le (s : State) (n : Nat) (short : Bool) : (tick s n short).bitCnt.val ≤ s.bitCnt.val + 1 := by
  simp only [tick]
  generalize (parityStep s.level s.biphasePrev s.biphaseState).1 = p
  generalize (parityStep s.level s.biphasePrev s.biphaseState).2 = d
  generalize tickPosition s.pos n s.period short = x
  cases d with
  | none => simp [feedBit]
  | some b =>
    have := bit_bitCnt_le (s.ringWrite.setParity p) b x
    simpa [feedBit] using this

/-- What the ticks of an interval do to the queue: at most one push, after which the register is all but empty. -/
theorem edgeTicks_queue (s : State) (long : Bool) (n : Nat) :
    SameQueue s (edgeTicks s long n) ∨
    (78 ≤ s.bitCnt.val ∧ (edgeTicks s long n).bitCnt.val ≤ 1 ∧ ∃ r, SameQueue (s.enqueue r) (edgeTicks s long n)) := by
  cases long with
  | false =>
    rcases tick_queue s n true with h | ⟨h1, h2, h3⟩
    · left; exact h
    · right; refine ⟨by omega, ?_, h3⟩
      show (tick s n true).bitCnt.val ≤ 1
      rw [h2]; decide
  | true =>
    have hle := tick_bitCnt_le s n false
    have hle2 := tick_bitCnt_le (tick s n false) n false
    have hs : edgeTicks s true n = tick (tick s n false) n false := rfl
    rw [hs]
    rcases tick_queue s n false with h | ⟨h1, h2, r, h3⟩
    · rcases tick_queue (tick s n false) n false with g | ⟨g1, g2, r, g3⟩
      · left; exact h.trans g
      · right
        refine ⟨by omega, by rw [g2]; decide, r, (h.enqueue (by simp) r).trans g3⟩
    · rw [h2] at hle2
      rcases tick_queue (tick s n false) n false with g | ⟨g1, -, -⟩
      · right
        exact ⟨by omega, by simpa using hle2, r, h3.trans g⟩
      · rw [h2] at g1; exact absurd g1 (by decide)

theorem edgeTicks_bitCnt_le (s : State) (long : Bool) (n : Nat) :
    (edgeTicks s long n).bitCnt.val ≤ s.bitCnt.val + 2 := by
  cases long with
  | false => have := tick_bitCnt_le s n true; show (tick s n true).bitCnt.val ≤ _; omega
  | true =>
    have h1 := tick_bitCnt_le s n false
    have h2 := tick_bitCnt_le (tick s n false) n false
    show (tick (tick s n false) n false).bitCnt.val ≤ _
    omega

theorem edgePeriod_queue (s : State) (n : Nat) : SameQueue s (edgePeriod s n) := by simp [SameQueue]

theorem edgePeriod_bitCnt_le (s : State) (n : Nat) : (edgePeriod s n).bitCnt.val ≤ s.bitCnt.val := by
  unfold edgePeriod
  split <;> simp

/-- EDGE with its classification named: the ticks, the period or the silence, and the end (R130). -/
theorem edge_eq {s : State} {long : Bool} {n : Nat} (hl : isLong s.cnt s.limit = long)
    (hn : classifiedCount long s.cnt = n) : edge s = (edgePeriod (edgeTicks s long n) n).endEdge := by
  simp only [edge, hl, hn]

theorem edge_queue (s : State) :
    SameQueue s (edge s) ∨ (78 ≤ s.bitCnt.val ∧ (edge s).bitCnt.val ≤ 1 ∧ ∃ r, SameQueue (s.enqueue r) (edge s)) := by
  generalize hl : isLong s.cnt s.limit = long
  generalize hn : classifiedCount long s.cnt = n
  have e : edge s = (edgePeriod (edgeTicks s long n) n).endEdge := edge_eq hl hn
  have q : SameQueue (edgeTicks s long n) (edge s) := by
    rw [e]; exact (edgePeriod_queue _ n).trans (by simp [SameQueue])
  have hb := edgePeriod_bitCnt_le (edgeTicks s long n) n
  rcases edgeTicks_queue s long n with h | ⟨h1, h2, r, h3⟩
  · left; exact h.trans q
  · right; exact ⟨h1, by rw [e]; simp only [State.endEdge_bitCnt]; omega, r, h3.trans q⟩

theorem edge_bitCnt_le (s : State) : (edge s).bitCnt.val ≤ s.bitCnt.val + 2 := by
  generalize hl : isLong s.cnt s.limit = long
  generalize hn : classifiedCount long s.cnt = n
  have e : edge s = (edgePeriod (edgeTicks s long n) n).endEdge := edge_eq hl hn
  have h1 := edgePeriod_bitCnt_le (edgeTicks s long n) n
  have h2 := edgeTicks_bitCnt_le s long n
  rw [e]; simp only [State.endEdge_bitCnt]; omega

/-- A sample that signals a change goes through EDGE (R213). -/
theorem processSample_change {s : State} {v : Sample} (h : levelSignals s v = true) :
    processSample s v = (edge (s.trackEnvelope v)).endSample := by
  unfold processSample; rw [if_pos h]

/-- A sample that signals none leaves EDGE out (R213). -/
theorem processSample_quiet {s : State} {v : Sample} (h : levelSignals s v = false) :
    processSample s v = (s.trackEnvelope v).endSample := by
  unfold processSample; rw [if_neg (by simp [h])]

/-- What a sample does to the queue (R164). -/
theorem sample_queue (s : State) (v : Sample) :
    SameQueue s (processSample s v) ∨
    (levelSignals s v = true ∧ 78 ≤ s.bitCnt.val ∧ (processSample s v).bitCnt.val ≤ 1 ∧
      ∃ r, SameQueue (s.enqueue r) (processSample s v)) := by
  cases h : levelSignals s v with
  | false => left; rw [processSample_quiet h]; simp [SameQueue]
  | true =>
    rw [processSample_change h]
    have q : SameQueue s (s.trackEnvelope v) := by simp [SameQueue]
    have q2 : SameQueue (edge (s.trackEnvelope v)) (edge (s.trackEnvelope v)).endSample := by simp [SameQueue]
    rcases edge_queue (s.trackEnvelope v) with g | ⟨g1, g2, r, g3⟩
    · left; exact (q.trans g).trans q2
    · right
      exact ⟨rfl, by simpa using g1, by simpa using g2, r, ((q.enqueue (by simp) r).trans g3).trans q2⟩

theorem sample_bitCnt_le (s : State) (v : Sample) : (processSample s v).bitCnt.val ≤ s.bitCnt.val + 2 := by
  cases h : levelSignals s v with
  | false => rw [processSample_quiet h]; simp
  | true =>
    rw [processSample_change h]
    have := edge_bitCnt_le (s.trackEnvelope v)
    simpa using this

/-- What a sample that signals a change leaves in the level, the counter and the parity memory (R136, R137, R153). -/
theorem edge_level (s : State) : (edge s).level = !s.level := by simp [edge]

theorem edge_cnt (s : State) : (edge s).cnt = 0#32 := by simp [edge]

theorem edge_biphasePrev (s : State) : (edge s).biphasePrev = s.level := by
  simp only [edge, State.endEdge_biphasePrev, edgePeriod_biphasePrev]
  cases isLong s.cnt s.limit <;> simp [edgeTicks]

/-- The period EDGE leaves (R131 to R135). -/
theorem edge_period (s : State) :
    (edge s).period =
      if isSilence s.cfg s.period (classifiedCount (isLong s.cnt s.limit) s.cnt) then s.period
      else nextPeriod s.period (classifiedCount (isLong s.cnt s.limit) s.cnt) := by
  simp only [edge, edgePeriod, State.endEdge_period]
  split <;> rename_i h <;> simp at h <;> simp [h]

theorem edge_limit (s : State) :
    (edge s).limit =
      if isSilence s.cfg s.period (classifiedCount (isLong s.cnt s.limit) s.cnt) then s.limit
      else limitOf (nextPeriod s.period (classifiedCount (isLong s.cnt s.limit) s.cnt)) := by
  simp only [edge, edgePeriod, State.endEdge_limit]
  split <;> rename_i h <;> simp at h <;> simp [h]

/-- A SAMPLE that signals a change, as one expression (R213). -/
theorem execSample_change {s : State} {v : Sample} (hok : s.cfgOk = true) (he : EnvelopeOk s) (hc : Changes s v) :
    exec (.sample v) s = .next ((edge (tracked s v)).endSample.respond .ok none) := by
  rw [← trackEnvelope_eq_tracked s v he, ← processSample_change ((levelSignals_iff s v he).2 hc)]
  show execSample v s = _
  simp [execSample, hok]

/-- What follows the ticks of a change writes `bit_cnt`, `period`, `limit`, `cnt`, `level` and `pos`, and nothing else
(R133 to R137). -/
theorem afterTicks_eq (u : State) (n : Nat) :
    (edgePeriod u n).endEdge.endSample.respond .ok none =
      { u with
        bitCnt := (edgePeriod u n).bitCnt, period := (edgePeriod u n).period, limit := (edgePeriod u n).limit,
        cnt := 1#32, level := !u.level, pos := u.pos + 1#64, rsp := some ⟨.ok, none⟩ } := by
  unfold edgePeriod
  split <;> rfl

/-- Bits counted, and one more where a tick of a pair stands open: what a level change can raise by at most one. -/
def pendingBits (s : State) : Nat := s.bitCnt.val + if s.biphaseState = .mid then 1 else 0

/-- A tick on a level that toggled counts at most one more bit, and none once it is paired (R152). -/
theorem tick_pendingBits_toggled (s : State) (n : Nat) (short : Bool) (h : s.level ≠ s.biphasePrev) :
    (s.biphaseState = .mid → pendingBits (tick s n short) ≤ pendingBits s ∧ (tick s n short).biphaseState = .boundary) ∧
    (s.biphaseState = .boundary →
      pendingBits (tick s n short) = pendingBits s + 1 ∧ (tick s n short).biphaseState = .mid) := by
  have hb := tick_bitCnt_le s n short
  have hp := tick_biphaseState s n short
  rw [parityStep_toggle h] at hp
  constructor
  · intro hm
    have e : (tick s n short).biphaseState = .boundary := by rw [hp, if_pos hm]
    refine ⟨?_, e⟩
    simp only [pendingBits, e, hm]
    simpa using hb
  · intro hm
    have e : (tick s n short).biphaseState = .mid := by rw [hp, if_neg (by rw [hm]; decide)]
    refine ⟨?_, e⟩
    have hc : (tick s n short).bitCnt = s.bitCnt := by
      simp [tick, parityStep_toggle h, hm, feedBit]
    simp only [pendingBits, e, hm, hc]
    rfl

/-- A tick on the level of the previous tick counts at most one bit and closes the pair (R152). -/
theorem tick_pendingBits_same (s : State) (n : Nat) (short : Bool) (h : s.level = s.biphasePrev) :
    pendingBits (tick s n short) ≤ s.bitCnt.val + 1 := by
  have hb := tick_bitCnt_le s n short
  have hp := tick_biphaseState s n short
  rw [h, parityStep_same] at hp
  simp only [pendingBits, hp]
  simpa using hb

/-- In lock with the level, a level change raises `pendingBits` by at most one (R152, R153, R165). -/
theorem edge_pendingBits (s : State) (h : s.level ≠ s.biphasePrev) : pendingBits (edge s) ≤ pendingBits s + 1 := by
  generalize hl : isLong s.cnt s.limit = long
  generalize hn : classifiedCount long s.cnt = n
  have e : edge s = (edgePeriod (edgeTicks s long n) n).endEdge := edge_eq hl hn
  have hp : pendingBits (edge s) ≤ pendingBits (edgeTicks s long n) := by
    have := edgePeriod_bitCnt_le (edgeTicks s long n) n
    rw [e]
    simp only [pendingBits, State.endEdge_bitCnt, State.endEdge_biphaseState, edgePeriod_biphaseState]
    omega
  have ht : pendingBits (edgeTicks s long n) ≤ pendingBits s + 1 := by
    cases hm : s.biphaseState with
    | mid =>
      cases long with
      | false => have := ((tick_pendingBits_toggled s n true h).1 hm).1; show pendingBits (tick s n true) ≤ _; omega
      | true =>
        have h1 := ((tick_pendingBits_toggled s n false h).1 hm)
        have h2 := tick_pendingBits_same (tick s n false) n false (by simp)
        show pendingBits (tick (tick s n false) n false) ≤ _
        have h3 := h1.1
        simp only [pendingBits, h1.2] at h2 h3 ⊢
        simp at h3
        omega
    | boundary =>
      cases long with
      | false => have := ((tick_pendingBits_toggled s n true h).2 hm).1; show pendingBits (tick s n true) ≤ _; omega
      | true =>
        have h1 := ((tick_pendingBits_toggled s n false h).2 hm)
        have h2 := tick_pendingBits_same (tick s n false) n false (by simp)
        show pendingBits (tick (tick s n false) n false) ≤ _
        have h3 := h1.1
        simp only [pendingBits, h1.2, hm] at h2 h3 ⊢
        simp at h3
        omega
  omega

/-- The levels of two consecutive changes differ (R136, R153). -/
theorem edge_toggled (s : State) : (edge s).level ≠ (edge s).biphasePrev := by
  rw [edge_level, edge_biphasePrev]; cases s.level <;> decide

end Sys2Proof
end

