-- ==== Sys2Proof/Laws/Invariant.lean ====
section
/-!
SUPPORT. What the shared operations keep of the invariant's parts: a bit and a tick keep what is said of the payload
register, a push keeps what is said of the queue.
-/

namespace Sys2Proof

open Machine

/-- What the invariant says of the frame assembly. -/
structure AssemblyOk (s : State) : Prop where
  payload : PayloadOk s
  window : WindowOk s
  firstBit : FirstBitOk s

/-- The parts of a state that `AssemblyOk` speaks of. -/
theorem AssemblyOk.congr {s t : State} (h : AssemblyOk s) (h1 : t.bitCnt = s.bitCnt) (h2 : t.frame = s.frame)
    (h3 : t.syncWord = s.syncWord) (h4 : t.lastBitValid = s.lastBitValid) : AssemblyOk t := by
  refine ⟨?_, ?_, ?_⟩
  · unfold PayloadOk; rw [h1, h2]; exact h.payload
  · have := h.window
    unfold WindowOk at *
    simp only [h1, h2, h3]; exact this
  · unfold FirstBitOk; rw [h4, h1]; exact h.firstBit

/-- With `bit_cnt = 0` the invariant says nothing of the register. -/
theorem AssemblyOk.of_zero {s : State} (h : s.bitCnt = 0) : AssemblyOk s := by
  refine ⟨fun hn => absurd h hn, ?_, fun _ => h⟩
  intro j _ hj
  rw [h] at hj
  exact absurd hj (Nat.not_lt_zero _)

theorem taken_payloadOk (s : State) (b : Bool) (x : Position) (h : AssemblyOk s) : PayloadOk (taken s b x) := by
  intro _ p hp
  rw [taken_bitCnt] at hp
  have hp80 := p.isLt
  rw [taken_payloadBit]
  by_cases h0 : s.bitCnt = 0
  · have : p ≠ 0 := by rintro rfl; rw [h0] at hp; exact absurd hp (by decide)
    simp [h0, this]
  · by_cases h80 : s.bitCnt = 80
    · rw [h80] at hp
      have : (80 : Fin 81).val = 80 := rfl
      omega
    · have hn : s.bitCnt.val ≠ 80 := fun e => h80 (Fin.ext e)
      have hlt := s.bitCnt.isLt
      have h1 := h.payload h0 p (by omega)
      have : p.val ≠ s.bitCnt.val := by omega
      simp [h0, h80, h1, this]

theorem taken_windowOk (s : State) (b : Bool) (x : Position) (h : AssemblyOk s) : WindowOk (taken s b x) := by
  intro j hj hlt
  have hn := taken_bitCnt s b x
  have hs : (taken s b x).syncWord = shiftIn s.syncWord b := by simp
  rw [hs, shiftIn_getLsbD _ _ _ hj, taken_payloadBit]
  simp only [hn] at hlt ⊢
  by_cases h0 : s.bitCnt = 0
  · have h0v : s.bitCnt.val = 0 := by rw [h0]; rfl
    have : j = 0 := by omega
    subst this
    simp [h0]
  · by_cases h80 : s.bitCnt = 80
    · have h8v : s.bitCnt.val = 80 := by rw [h80]; rfl
      rw [if_neg h0, if_pos h80]
      by_cases hj0 : j = 0
      · subst hj0; simp [h8v]
      · have := h.window (j - 1) (by omega) (by omega)
        rw [if_neg hj0, this, dif_pos (by simp [h8v]; omega)]
        congr 2
        simp [h8v]; omega
    · have hv : s.bitCnt.val ≠ 80 := fun e => h80 (Fin.ext e)
      have hl := s.bitCnt.isLt
      rw [if_neg h0, if_neg h80]
      by_cases hj0 : j = 0
      · subst hj0
        have e : min (s.bitCnt.val + 1) 80 - 1 - 0 = s.bitCnt.val := by omega
        have := h.payload h0 ⟨s.bitCnt.val, by omega⟩ (Nat.le_refl _)
        simp only [e, this]
        simp
      · have hw := h.window (j - 1) (by omega) (by omega)
        have e : min (s.bitCnt.val + 1) 80 - 1 - j = s.bitCnt.val - 1 - (j - 1) := by omega
        have e2 : s.bitCnt.val - 1 - (j - 1) ≠ s.bitCnt.val := by omega
        rw [if_neg hj0, hw]
        simp only [e, e2]
        simp

/-- A bit keeps what the invariant says of the frame assembly. -/
theorem bit_assemblyOk (s : State) (b : Bool) (x : Position) (h : AssemblyOk s) : AssemblyOk (bit s b x) := by
  by_cases hm : shiftIn s.syncWord b = s.cfg.syncFwd ∨ shiftIn s.syncWord b = s.cfg.syncRev
  · exact .of_zero (by rw [bit_bitCnt, if_pos hm])
  · have e : bit s b x = taken s b x := bit_eq_taken s b x (fun e => hm (.inl e)) (fun e => hm (.inr e))
    rw [e]
    refine ⟨taken_payloadOk s b x h, taken_windowOk s b x h, ?_⟩
    intro hv
    simp at hv

theorem tick_assemblyOk (s : State) (n : Nat) (short : Bool) (h : AssemblyOk s) : AssemblyOk (tick s n short) := by
  simp only [tick]
  generalize (parityStep s.level s.biphasePrev s.biphaseState).1 = p
  generalize (parityStep s.level s.biphasePrev s.biphaseState).2 = d
  generalize tickPosition s.pos n s.period short = x
  have h1 : AssemblyOk (s.ringWrite.setParity p) := h.congr (by simp) (by simp) (by simp) (by simp)
  cases d with
  | none => exact h1.congr (by simp [feedBit]) (by simp [feedBit]) (by simp [feedBit]) (by simp [feedBit])
  | some b =>
    exact (bit_assemblyOk _ b x h1).congr (by simp [feedBit]) (by simp [feedBit]) (by simp [feedBit]) (by simp [feedBit])

/-- EDGE keeps what the invariant says of the frame assembly. -/
theorem edge_assemblyOk (s : State) (h : AssemblyOk s) : AssemblyOk (edge s) := by
  generalize hl : isLong s.cnt s.limit = long
  generalize hn : classifiedCount long s.cnt = n
  have e : edge s = (edgePeriod (edgeTicks s long n) n).endEdge := edge_eq hl hn
  have ht : AssemblyOk (edgeTicks s long n) := by
    cases long with
    | false => exact tick_assemblyOk s n true h
    | true => exact tick_assemblyOk _ n false (tick_assemblyOk s n false h)
  rw [e]
  have hp : AssemblyOk (edgePeriod (edgeTicks s long n) n) := by
    unfold edgePeriod
    split
    · exact .of_zero rfl
    · exact ht.congr (by simp) (by simp) (by simp) (by simp)
  exact hp.congr (by simp) (by simp) (by simp) (by simp)

theorem sample_assemblyOk (s : State) (v : Sample) (h : AssemblyOk s) : AssemblyOk (processSample s v) := by
  have ht : AssemblyOk (s.trackEnvelope v) := h.congr (by simp) (by simp) (by simp) (by simp)
  cases hl : levelSignals s v with
  | false =>
    rw [processSample_quiet hl]
    exact ht.congr (by simp) (by simp) (by simp) (by simp)
  | true =>
    rw [processSample_change hl]
    exact (edge_assemblyOk _ ht).congr (by simp) (by simp) (by simp) (by simp)

/-- The parts of a state that `QueueOk` speaks of. -/
theorem QueueOk.congr {s t : State} (h : QueueOk s) (hq : SameQueue s t) (hc : t.qCap = s.qCap)
    (hm : t.cfg.queueMax = s.cfg.queueMax) : QueueOk t := by
  obtain ⟨h1, h2, h3, h4⟩ := hq
  refine ⟨?_, ?_, ?_, ?_, ?_, ?_, ?_⟩ <;> (try rw [hm]) <;> (try simp only [h1, h2, h3, h4, hc])
  · exact h.cap_pos
  · exact h.cap_max
  · exact h.wr
  · exact h.rd
  · exact h.count
  · exact h.ring
  · exact h.unread

/-- A push keeps the queue registers legal (R191, R193). -/
theorem enqueue_queueOk (s : State) (r : FrameRecord) (h : QueueOk s) : QueueOk (s.enqueue r) := by
  have hcap := h.cap_pos
  have hwr : (nextSlot s.qWr s.qCap).toNat = (s.qWr.toNat + 1) % s.qCap.toNat := nextSlot_toNat _ _ hcap
  have hrd : (nextSlot s.qRd s.qCap).toNat = (s.qRd.toNat + 1) % s.qCap.toNat := nextSlot_toNat _ _ hcap
  have hlt := s.qCap.isLt
  have hring := h.ring
  have hcount := h.count
  by_cases hfull : s.qCount = s.qCap
  · have hfn : s.qCount.toNat = s.qCap.toNat := by rw [hfull]
    have hwrd : s.qWr.toNat = s.qRd.toNat := by
      rw [hring, hfn, Nat.add_mod_right, Nat.mod_eq_of_lt h.rd]
    refine ⟨hcap, h.cap_max, ?_, ?_, ?_, ?_, ?_⟩ <;> simp only [State.enqueue_qWr, State.enqueue_qRd, State.enqueue_qCap,
      State.enqueue_qCount, State.enqueue_slots, hfull, if_true, hwr, hrd]
    · exact Nat.mod_lt _ hcap
    · exact Nat.mod_lt _ hcap
    · exact Nat.le_refl _
    · rw [Nat.add_mod_right, Nat.mod_mod, hwrd]
    · intro k hk
      rw [Nat.mod_add_mod, Memory.read_write]
      by_cases hkc : k + 1 = s.qCap.toNat
      · have : (s.qRd.toNat + 1 + k) % s.qCap.toNat = s.qWr.toNat := by
          rw [hwrd, show s.qRd.toNat + 1 + k = s.qRd.toNat + s.qCap.toNat by omega, Nat.add_mod_right,
            Nat.mod_eq_of_lt h.rd]
        rw [if_pos this]; rfl
      · split
        · rfl
        · have := h.unread (k + 1) (by omega)
          rwa [show s.qRd.toNat + 1 + k = s.qRd.toNat + (k + 1) by omega]
  · have hne : s.qCount.toNat ≠ s.qCap.toNat := fun e => hfull (BitVec.eq_of_toNat_eq e)
    have hc1 : (s.qCount + 1#16).toNat = s.qCount.toNat + 1 := by
      rw [BitVec.toNat_add]; simp; omega
    refine ⟨hcap, h.cap_max, ?_, ?_, ?_, ?_, ?_⟩ <;> simp only [State.enqueue_qWr, State.enqueue_qRd, State.enqueue_qCap,
      State.enqueue_qCount, State.enqueue_slots, hfull, if_false, hwr, hc1]
    · exact Nat.mod_lt _ hcap
    · exact h.rd
    · omega
    · rw [hring, Nat.mod_add_mod, Nat.add_assoc]
    · intro k hk
      rw [Memory.read_write]
      split
      · rfl
      · rename_i hx
        refine h.unread k ?_
        by_contra hk2
        have : k = s.qCount.toNat := by omega
        exact hx (by rw [this, hring])

theorem dequeue_queueOk (s : State) (h : QueueOk s) (hn : s.qCount ≠ 0#16) : QueueOk s.dequeue := by
  have hcap := h.cap_pos
  have hrd : (nextSlot s.qRd s.qCap).toNat = (s.qRd.toNat + 1) % s.qCap.toNat := nextSlot_toNat _ _ hcap
  have h0 : s.qCount.toNat ≠ 0 := fun e => hn (BitVec.eq_of_toNat_eq e)
  have hlt := s.qCount.isLt
  have hc1 : (s.qCount - 1#16).toNat = s.qCount.toNat - 1 := by
    rw [BitVec.toNat_sub]; simp; omega
  have hcount := h.count
  have hring := h.ring
  refine ⟨hcap, h.cap_max, h.wr, ?_, ?_, ?_, ?_⟩ <;> simp only [State.dequeue_qWr, State.dequeue_qRd,
    State.dequeue_qCap, State.dequeue_qCount, State.dequeue_slots, hrd, hc1]
  · exact Nat.mod_lt _ hcap
  · omega
  · rw [Nat.mod_add_mod, hring]; congr 1; omega
  · intro k hk
    rw [Nat.mod_add_mod]
    have := h.unread (k + 1) (by omega)
    rwa [show s.qRd.toNat + 1 + k = s.qRd.toNat + (k + 1) by omega]

/-- A push keeps the queue memory in canonical form and inside its bounds (R43, R60). -/
theorem enqueue_slotsOk (s : State) (r : FrameRecord) (h : SlotsOk s) (hq : s.qWr.toNat < s.cfg.queueMax) :
    SlotsOk (s.enqueue r) := by
  refine ⟨?_, ?_⟩
  · simpa using Memory.write_wf s.slots s.qWr.toNat r h.wf
  · intro e he
    rcases Memory.mem_write s.slots s.qWr.toNat r (by simpa using he) with rfl | he
    · simpa using hq
    · simpa using h.bound e he

end Sys2Proof
end

