-- ==== Sys2Proof/Laws/PerInstr.lean ====
section
/-!
SUPPORT. Statements per instruction: the fields of a command's word are its opcode and its argument, and its row of the
opcode table exists (R81 to R86).
-/

namespace Sys2Proof.Laws.OpcodeField

/-- The word of a command carries its opcode in `op` and its operands in `arg`, and the command has a row in the table. -/
def Statement (i : Instr) : Prop :=
  opField (encode i) = opcode i ∧ argField (encode i) = argument i ∧ tableIndex i < opcodeTable.length

theorem init (seed : BitVec 48) (cap : BitVec 16) : Statement (.init seed cap) := ⟨opField_encode _, argField_encode _, by simp [tableIndex, opcodeTable]⟩

theorem setpos (p : Position) : Statement (.setpos p) := ⟨opField_encode _, argField_encode _, by simp [tableIndex, opcodeTable]⟩

theorem sample (v : Sample) : Statement (.sample v) := ⟨opField_encode _, argField_encode _, by simp [tableIndex, opcodeTable]⟩

theorem pop : Statement .pop := ⟨opField_encode _, argField_encode _, by simp [tableIndex, opcodeTable]⟩

theorem illegalOp0 (x : Arg) : Statement (.illegalOp0 x) := ⟨opField_encode _, argField_encode _, by simp [tableIndex, opcodeTable]⟩

theorem illegalOp5 (x : Arg) : Statement (.illegalOp5 x) := ⟨opField_encode _, argField_encode _, by simp [tableIndex, opcodeTable]⟩

theorem illegalOp6 (x : Arg) : Statement (.illegalOp6 x) := ⟨opField_encode _, argField_encode _, by simp [tableIndex, opcodeTable]⟩

theorem illegalOp7 (x : Arg) : Statement (.illegalOp7 x) := ⟨opField_encode _, argField_encode _, by simp [tableIndex, opcodeTable]⟩

theorem illegalOp8 (x : Arg) : Statement (.illegalOp8 x) := ⟨opField_encode _, argField_encode _, by simp [tableIndex, opcodeTable]⟩

theorem illegalOp9 (x : Arg) : Statement (.illegalOp9 x) := ⟨opField_encode _, argField_encode _, by simp [tableIndex, opcodeTable]⟩

theorem illegalOpA (x : Arg) : Statement (.illegalOpA x) := ⟨opField_encode _, argField_encode _, by simp [tableIndex, opcodeTable]⟩

theorem illegalOpB (x : Arg) : Statement (.illegalOpB x) := ⟨opField_encode _, argField_encode _, by simp [tableIndex, opcodeTable]⟩

theorem illegalOpC (x : Arg) : Statement (.illegalOpC x) := ⟨opField_encode _, argField_encode _, by simp [tableIndex, opcodeTable]⟩

theorem illegalOpD (x : Arg) : Statement (.illegalOpD x) := ⟨opField_encode _, argField_encode _, by simp [tableIndex, opcodeTable]⟩

theorem illegalOpE (x : Arg) : Statement (.illegalOpE x) := ⟨opField_encode _, argField_encode _, by simp [tableIndex, opcodeTable]⟩

theorem illegalOpF (x : Arg) : Statement (.illegalOpF x) := ⟨opField_encode _, argField_encode _, by simp [tableIndex, opcodeTable]⟩

end Sys2Proof.Laws.OpcodeField
end

