-- ==== Sys2Proof/Laws/View.lean ====
section
/-!
SUPPORT. Positions and the queue's read side never decide what is decoded (R217): every operation of the pipeline takes
states that agree on the decoding registers to states that agree on them, and states that differ only in positions to
states that differ only in positions.
-/

namespace Sys2Proof

open Machine

/-- The states agree on every decoding register. -/
theorem decodeView_eq_iff (s t : State) :
    decodeView s = decodeView t ↔
      s.cfg = t.cfg ∧ s.cfgOk = t.cfgOk ∧ s.cfgErr = t.cfgErr ∧ s.qCap = t.qCap ∧ s.envMin = t.envMin ∧
      s.envMax = t.envMax ∧ s.level = t.level ∧ s.cnt = t.cnt ∧ s.period = t.period ∧ s.limit = t.limit ∧
      s.tic = t.tic ∧ s.tics = t.tics ∧ s.biphaseState = t.biphaseState ∧ s.biphasePrev = t.biphasePrev ∧
      s.bitCnt = t.bitCnt ∧ s.frame = t.frame ∧ s.syncWord = t.syncWord ∧ s.lastBitValid = t.lastBitValid := by
  simp [decodeView]

theorem taken_frame (s : State) (b : Bool) (x : Position) :
    (taken s b x).frame =
      if b then setPayloadBit (makeRoom s x).frame (storeIndex (makeRoom s x).bitCnt) else (makeRoom s x).frame := by
  simp

/-- What BIT leaves in the decoding registers, from what they were. -/
theorem bit_view {s t : State} (h : decodeView s = decodeView t) (b : Bool) (x y : Position) :
    decodeView (bit s b x) = decodeView (bit t b y) := by
  rw [decodeView_eq_iff] at *
  obtain ⟨h1, h2, h3, h4, h5, h6, h7, h8, h9, h10, h11, h12, h13, h14, h15, h16, h17, h18⟩ := h
  have hf : (makeRoom s x).frame = (makeRoom t y).frame := by simp only [makeRoom_frame, h15, h16]
  have hb : (makeRoom s x).bitCnt = (makeRoom t y).bitCnt := by simp only [makeRoom_bitCnt, h15]
  have ht : (taken s b x).bitCnt = (taken t b y).bitCnt := by simp only [State.takeBit_bitCnt, hb]
  refine ⟨by simp [h1], by simp [h2], by simp [h3], by simp [h4], by simp [h5], by simp [h6], by simp [h7], by simp [h8],
    by simp [h9], by simp [h10], by simp [h11], by simp [h12], by simp [h13], by simp [h14], ?_, ?_, by simp [h17],
    by simp⟩
  · simp only [bit_bitCnt, h17, h1, ht]
  · simp only [bit_frame, taken_frame, hf, hb]

/-- The steps of the pipeline that touch no position and no queue. -/
theorem simple_view {s t : State} (h : decodeView s = decodeView t) :
    (∀ lo hi, decodeView (s.setEnvelope lo hi) = decodeView (t.setEnvelope lo hi)) ∧
    decodeView s.ringWrite = decodeView t.ringWrite ∧
    (∀ p, decodeView (s.setParity p) = decodeView (t.setParity p)) ∧
    decodeView s.rememberLevel = decodeView t.rememberLevel ∧
    decodeView s.clearBitCnt = decodeView t.clearBitCnt ∧
    (∀ p l, decodeView (s.setPeriod p l) = decodeView (t.setPeriod p l)) ∧
    decodeView s.endEdge = decodeView t.endEdge ∧
    decodeView s.endSample = decodeView t.endSample := by
  have e := (decodeView_eq_iff s t).1 h
  obtain ⟨h1, h2, h3, h4, h5, h6, h7, h8, h9, h10, h11, h12, h13, h14, h15, h16, h17, h18⟩ := e
  refine ⟨?_, ?_, ?_, ?_, ?_, ?_, ?_, ?_⟩ <;> intros <;> rw [decodeView_eq_iff] <;> simp [*]

theorem tick_view {s t : State} (h : decodeView s = decodeView t) (n : Nat) (short : Bool) :
    decodeView (tick s n short) = decodeView (tick t n short) := by
  have e := (decodeView_eq_iff s t).1 h
  obtain ⟨h1, h2, h3, h4, h5, h6, h7, h8, h9, h10, h11, h12, h13, h14, h15, h16, h17, h18⟩ := e
  simp only [tick, h7, h13, h14]
  generalize (parityStep t.level t.biphasePrev t.biphaseState).1 = p
  generalize (parityStep t.level t.biphasePrev t.biphaseState).2 = d
  have hr : decodeView (s.ringWrite.setParity p) = decodeView (t.ringWrite.setParity p) :=
    (simple_view (simple_view h).2.1).2.2.1 p
  refine (simple_view ?_).2.2.2.1
  cases d with
  | none => exact hr
  | some b => exact bit_view hr b _ _

theorem edge_view {s t : State} (h : decodeView s = decodeView t) : decodeView (edge s) = decodeView (edge t) := by
  have e := (decodeView_eq_iff s t).1 h
  obtain ⟨h1, h2, h3, h4, h5, h6, h7, h8, h9, h10, -⟩ := e
  simp only [edge, h8, h10]
  generalize isLong t.cnt t.limit = long
  generalize classifiedCount long t.cnt = n
  have ht : decodeView (edgeTicks s long n) = decodeView (edgeTicks t long n) := by
    cases long with
    | false => exact tick_view h n true
    | true => exact tick_view (tick_view h n false) n false
  refine (simple_view ?_).2.2.2.2.2.2.1
  have hc : (edgeTicks s long n).cfg = (edgeTicks t long n).cfg := by simp [h1]
  have hp : (edgeTicks s long n).period = (edgeTicks t long n).period := by simp [h9]
  unfold edgePeriod
  rw [hc, hp]
  split
  · exact (simple_view ht).2.2.2.2.1
  · simp only [State.updatePeriod_eq, hp]
    exact (simple_view ht).2.2.2.2.2.1 _ _

/-- The decoding registers after a sample depend on the decoding registers before it alone (R217). -/
theorem processSample_view {s t : State} (h : decodeView s = decodeView t) (v : Sample) :
    decodeView (processSample s v) = decodeView (processSample t v) := by
  have e := (decodeView_eq_iff s t).1 h
  obtain ⟨h1, h2, h3, h4, h5, h6, h7, -⟩ := e
  have hl : levelSignals s v = levelSignals t v := by simp only [levelSignals, h1, h5, h6, h7]
  have ht : decodeView (s.trackEnvelope v) = decodeView (t.trackEnvelope v) := by
    simp only [State.trackEnvelope_eq, h1, h5, h6]
    exact (simple_view h).1 _ _
  refine (simple_view (s := if levelSignals s v then edge (s.trackEnvelope v) else s.trackEnvelope v)
    (t := if levelSignals t v then edge (t.trackEnvelope v) else t.trackEnvelope v) ?_).2.2.2.2.2.2.2
  rw [hl]
  split
  · exact edge_view ht
  · exact ht

end Sys2Proof
end

