-- ==== Sys2Proof/Laws/Widths.lean ====
section
/-!
SUPPORT. The named widths of R10 and the types: each type of Word.lean and each register of State has the width or the
length that Config.lean names.
-/

namespace Sys2Proof

open Machine

theorem Count_width : Count = BitVec Config.cntBits := (rfl)

theorem Raw_width : Raw = BitVec Config.periodBits := (rfl)

theorem Position_width : Position = BitVec Config.posBits := (rfl)

theorem Sample_width : Sample = BitVec Config.sampleBits := (rfl)

theorem Payload_length : Payload = Vector Byte Config.payloadBytes := (rfl)

theorem TicRing_length : TicRing = Vector Raw Config.frameBits := (rfl)

/-- `cnt` counts to `CNT_MAX` and no further (R27). -/
theorem cnt_le_cntMax (s : State) : s.cnt.toNat ≤ Config.cntMax := Nat.le_pred_of_lt s.cnt.isLt

theorem syncWord_lt (s : State) : s.syncWord.toNat < 2 ^ Config.syncBits := s.syncWord.isLt

/-- `tic` and `bit_cnt` range below and up to `N` (R30, R34). -/
theorem tic_lt (s : State) : s.tic.val < Config.frameBits := s.tic.isLt

theorem bitCnt_le (s : State) : s.bitCnt.val ≤ Config.frameBits := Nat.le_of_lt_succ s.bitCnt.isLt

end Sys2Proof
end

