-- ==== Sys2Proof/Tests/Slice0.lean ====
section
/-!
SUPPORT. Tests against the spec's own vectors (95_test_vectors.md V1 to V23, PR1) and examples, the smoke test of
well-formedness, and a witness for the hypotheses of every statement of Certificates/Slice0/Obligations.lean.
Each test cites where its expected value stands.
-/

namespace Sys2Proof.Tests

open Sys2Proof Sys2Proof.Machine

/-! ## States -/

/-- After `INIT seed=0x80000 cap=4`: `period = 8.0`, `limit = 6.0` (R211). -/
def configured : State := (State.reset.construct 0x80000#48 4#16).respond .ok none

/-- The payload T of 95_test_vectors.md, with a given last byte. -/
def payloadT (last : Byte) : Payload := #v[0x21#8, 0x43#8, 0x65#8, 0x07#8, 0x11#8, 0x02#8, 0x03#8, 0x00#8, 0xFC#8, last]

/-- The register of V16 before its last bit: T received in reverse, but for bit 79, which is 0 anyway. -/
def payloadReversed : Payload :=
  #v[0x00#8, 0xC0#8, 0x40#8, 0x88#8, 0xE0#8, 0xA6#8, 0xC2#8, 0x84#8, 0xFD#8, 0x3F#8]

/-- The state of V14: 79 bits of T in the register, the forward pattern one bit short. -/
def nearForward : State :=
  { configured with
    bitCnt := 79
    syncWord := 0x9FFE#16
    frame := payloadT 0x3F#8
    frameStart := 1640#64
    lastBitPos := 2272#64
    lastBitValid := true
    cnt := 4#32
    level := true
    pos := 2280#64
    envMin := 38#8
    envMax := 218#8 }

/-- The state of V16 one bit before: 79 bits in the register, the reverse pattern one bit short. -/
def nearReverse : State :=
  { nearForward with
    syncWord := 0xDFFE#16
    frame := payloadReversed
    frameStart := 768#64
    period := 524285#64
    limit := 393213#64 }

/-- A record told apart by its `off_start`. -/
def record (k : Nat) : FrameRecord where
  payload := Vector.replicate 10 0#8
  offStart := BitVec.ofNat 64 k
  offEnd := 0#64
  reverse := 0#64
  volume := 0#64
  sampleMin := 0#8
  sampleMax := 0#8
  hist := Vector.replicate 80 0#64

/-- `q_cap = 2`, and the queue registers of V17. -/
def queueOfTwo : State := { configured with qCap := 2#16 }

/-- The host presents one word. -/
def presenting (s : State) (w : CmdWord) : State := { s with inputs := [.command w] }

/-- The state a step or a command leaves, where it leaves one. -/
def after (o : Host.Outcome State Fault Refusal) : Option State :=
  match o with
  | .next t => some t
  | _ => none

/-! ## Well-formedness of a configuration (R11) -/

theorem test_wf_default : defaultConfig.wellFormed = true := by decide
theorem test_wf_fixed_checks :
    Config.frameFits = true ∧ Config.syncFits = true ∧ Config.fullScaleFits = true ∧ Config.fractionFits = true := by decide
theorem test_wf_refuses_centre_zero : Config.wellFormed { defaultConfig with center := 0#8 } = false := by decide
theorem test_wf_refuses_no_queue : Config.wellFormed { defaultConfig with queueMax := 0 } = false := by decide
theorem test_wf_refuses_palindrome : Config.wellFormed { defaultConfig with syncFwd := 0x8001#16 } = false := by decide
theorem test_step_refuses_ill_formed :
    step { State.reset with cfg := { defaultConfig with center := 0#8 } } = .refused .configIllFormed := by
  rfl

/-! ## Decoding (R81 to R86: the word of every row written out, and the examples of R82 to R85) -/

theorem test_decode_init : decode 0x1_0004_0000_0018_0000#68 = .ok (.init 0x180000#48 4#16) := by decide
theorem test_decode_init_fields : decode 0x1_FFFE_8000_0000_0001#68 = .ok (.init 0x800000000001#48 0xFFFE#16) := by decide
theorem test_decode_setpos : decode 0x2_0000_0000_0000_03E8#68 = .ok (.setpos 1000#64) := by decide
theorem test_decode_setpos_negative : decode 0x2_FFFF_FFFF_FFFF_FFFF#68 = .ok (.setpos (-1#64)) := by decide
theorem test_decode_sample : decode 0x3_0000_0000_0000_00DA#68 = .ok (.sample 218#8) := by decide
theorem test_decode_sample_reserved : decode 0x3_0000_0000_0000_0100#68 = .error .reservedSampleBits := by decide
theorem test_decode_sample_reserved_top : decode 0x3_8000_0000_0000_0000#68 = .error .reservedSampleBits := by decide
theorem test_decode_pop : decode 0x4_0000_0000_0000_0000#68 = .ok .pop := by decide
theorem test_decode_pop_reserved : decode 0x4_0000_0000_0000_0001#68 = .error .reservedPopBits := by decide
theorem test_decode_op0 : decode 0x0_0000_0000_0000_0000#68 = .ok (.illegalOp0 0#64) := by decide
theorem test_decode_op5 : decode 0x5_0000_0000_0000_0001#68 = .ok (.illegalOp5 1#64) := by decide
theorem test_decode_op6 : decode 0x6_0000_0000_0000_0000#68 = .ok (.illegalOp6 0#64) := by decide
theorem test_decode_op7 : decode 0x7_8000_0000_0000_0000#68 = .ok (.illegalOp7 0x8000000000000000#64) := by decide
theorem test_decode_op8 : decode 0x8_0000_0000_0000_0000#68 = .ok (.illegalOp8 0#64) := by decide
theorem test_decode_op9 : decode 0x9_0000_0000_0000_0000#68 = .ok (.illegalOp9 0#64) := by decide
theorem test_decode_opA : decode 0xA_0000_0000_0000_0000#68 = .ok (.illegalOpA 0#64) := by decide
theorem test_decode_opB : decode 0xB_0000_0000_0000_0000#68 = .ok (.illegalOpB 0#64) := by decide
theorem test_decode_opC : decode 0xC_0000_0000_0000_0000#68 = .ok (.illegalOpC 0#64) := by decide
theorem test_decode_opD : decode 0xD_0000_0000_0000_0000#68 = .ok (.illegalOpD 0#64) := by decide
theorem test_decode_opE : decode 0xE_0000_0000_0000_0000#68 = .ok (.illegalOpE 0#64) := by decide
theorem test_decode_opF : decode 0xF_0000_0000_0000_0000#68 = .ok (.illegalOpF 0#64) := by decide
theorem test_table_numbering : decodeTableWord 72 0x3_0000_0000_0000_00DA = some (.sample 218#8) := by decide
theorem test_table_port_width : decodeTableWord 72 0xF3_0000_0000_0000_00DA = some (.sample 218#8) := by decide
theorem test_table_reserved : decodeTableWord 72 0x3_0000_0000_0000_0100 = none := by decide

/-! ## The commands, one step each -/

/-- V18. -/
theorem test_init_ok :
    (after (step (State.reset.withFetchWord 72 0x1_0004_0000_0008_0000))).map
      (fun t => (t.rsp, t.cfgOk, t.qCap, t.period, t.limit))
    = some (some ⟨.ok, none⟩, true, 4#16, 524288#64, 393216#64) := by decide

/-- V18: `cap = 33`, on a configured block. -/
theorem test_init_config_error :
    (after (step (presenting configured 0x1_0021_0000_0008_0000#68))).map (fun t => (t.rsp, t.cfgOk, t.cfgErr, t.qCap))
    = some (some ⟨.configError, none⟩, false, true, 0#16) := by decide

/-- V19: position -1. -/
theorem test_setpos :
    (after (step (presenting configured 0x2_FFFF_FFFF_FFFF_FFFF#68))).map (fun t => (t.rsp, t.pos, t.cnt))
    = some (some ⟨.ok, none⟩, -1#64, 0#32) := by decide

/-- V19: from position -1 a SAMPLE reaches position 0. -/
theorem test_sample_wraps :
    (after (exec (.sample 128#8) { configured with pos := -1#64 })).map (fun t => (t.rsp, t.pos, t.cnt, t.level))
    = some (some ⟨.ok, none⟩, 0#64, 1#32, false) := by decide

/-- V8: the first sample of a run of zeros. -/
theorem test_sample_first_change :
    (after (exec (.sample 0#8) configured)).map
      (fun t => (t.level, t.cnt, t.period, t.limit, t.lastBitPos, t.frameStart, t.bitCnt, t.envMin))
    = some (true, 1#32, 393216#64, 294912#64, -8#64, -16#64, 1, 0#8) := by decide

/-- R214, V20. -/
theorem test_pop_empty :
    (after (exec .pop configured)).map (fun t => (t.rsp, t.qCount)) = some (some ⟨.empty, none⟩, 0#16) := by decide

/-- V17: after five pushes A to E into two slots, POP returns D. -/
theorem test_pop_wraparound :
    (after (exec .pop (enqueueAll queueOfTwo [record 1, record 2, record 3, record 4, record 5]))).map
      (fun t => (t.rsp.bind (fun r => r.record.map FrameRecord.offStart), t.qWr, t.qRd, t.qCount))
    = some (some 4#64, 1#16, 0#16, 1#16) := by decide

/-- V20: an illegal word on the unconfigured block. -/
theorem test_illegal :
    (after (step (State.reset.withFetchWord 72 0xF_0000_0000_0000_0000))).map (fun t => (t.rsp, t.cfgOk))
    = some (some ⟨.illegal, none⟩, false) := by decide

/-- V20: `ILLEGAL` comes before `NOT_CONFIGURED`. -/
theorem test_illegal_before_not_configured :
    (after (step (presenting State.reset 0x3_0000_0000_0000_0100#68))).map (fun t => t.rsp) = some (some ⟨.illegal, none⟩) ∧
    (after (step (presenting State.reset 0x3_0000_0000_0000_0080#68))).map (fun t => t.rsp)
      = some (some ⟨.notConfigured, none⟩) := by decide

/-! ## The internal operations -/

/-- V1, V4: the change test. -/
theorem test_level_change :
    levelSignals configured 38#8 = true ∧ levelSignals configured 218#8 = false ∧ levelSignals configured 127#8 = true ∧
    levelSignals configured 128#8 = false ∧ levelSignals { configured with envMin := 60#8 } 100#8 = false ∧
    levelSignals { configured with envMin := 60#8 } 96#8 = true := by decide

/-- V5, V7: the long and short boundary and the period update. -/
theorem test_edge_period :
    (edge { configured with cnt := 6#32 }).period = 589824#64 ∧
    (edge { configured with cnt := 6#32 }).tic = 1 ∧ (edge { configured with cnt := 7#32 }).tic = 2 ∧
    (edge { configured with cnt := 5#32 }).period = 557056#64 ∧ (edge { configured with cnt := 5#32 }).limit = 417792#64 := by
  decide

/-- V6: the silence boundary. -/
theorem test_edge_silence :
    (edge { configured with cnt := 32#32 }).period = 917504#64 ∧ (edge { configured with cnt := 33#32 }).period = 524288#64 ∧
    (edge { configured with cnt := 33#32 }).bitCnt = 0 ∧
    (edge { configured with cnt := 16#32, period := 131072#64, limit := 98304#64 }).period = 360448#64 ∧
    (edge { configured with cnt := 17#32, period := 131072#64, limit := 98304#64 }).period = 131072#64 := by decide

/-- V9: the position of a tick. -/
theorem test_tick_position :
    tickPosition 2000#64 8 540672#64 true = 1999#64 ∧ tickPosition 2000#64 8 507904#64 true = 2000#64 ∧
    tickPosition 2000#64 8 655360#64 true = 1998#64 ∧ tickPosition 2000#64 8 393216#64 true = 2002#64 ∧
    tickPosition 2000#64 8 655360#64 false = 2000#64 := by decide

/-- V10: the parity table. -/
theorem test_parity :
    parityStep false false .mid = (.boundary, some false) ∧ parityStep true true .boundary = (.boundary, some false) ∧
    parityStep false true .mid = (.boundary, some true) ∧ parityStep true false .boundary = (.mid, none) := by decide

/-- V11: the first bit of a frame. -/
theorem test_bit_first :
    (bit configured false 1004#64).frameStart = 996#64 ∧
    (bit { configured with period := 524289#64 } false 1004#64).frameStart = 995#64 ∧
    (bit { configured with lastBitValid := true, lastBitPos := 1640#64 } false 2000#64).frameStart = 1640#64 := by decide

/-- V12: the resync shift. -/
theorem test_shift :
    shift1 (payloadT 0xBF#8) = #v[0x90#8, 0xA1#8, 0xB2#8, 0x83#8, 0x08#8, 0x81#8, 0x01#8, 0x00#8, 0xFE#8, 0x5F#8] := by decide

/-- V12: the resync shift inside BIT. -/
theorem test_bit_resync :
    (bit { configured with bitCnt := 80, frameStart := 996#64, lastBitValid := true } true 1700#64).frameStart = 1004#64 ∧
    (bit { configured with bitCnt := 80, frameStart := 996#64, lastBitValid := true } true 1700#64).frame[9] = 0x80#8 ∧
    (bit { configured with bitCnt := 80, frameStart := 996#64, lastBitValid := true } true 1700#64).bitCnt = 80 := by decide

/-- V13: taking a bit in. -/
theorem test_shift_in : shiftIn 0x9FFE#16 true = 0x3FFD#16 ∧ shiftIn 0xFFFF#16 false = 0xFFFE#16 := by decide

/-- V14: a forward frame. The envelope is that of V22's `d = 180`. -/
theorem test_bit_forward :
    (bit nearForward true 2280#64).bitCnt = 0 ∧
    ((bit nearForward true 2280#64).slots.read 0).map
      (fun r => (r.payload, r.offStart, r.offEnd, r.reverse, r.volume))
    = some (payloadT 0xBF#8, 1640#64, 2279#64, 0#64, 0xC00833EC8A0DEEF5#64) := by decide

/-- V15: a match at the wrong count. -/
theorem test_bit_match_early :
    (bit { nearForward with bitCnt := 36 } true 2280#64).bitCnt = 0 ∧
    (bit { nearForward with bitCnt := 36 } true 2280#64).qCount = 0#16 := by decide

/-- V16: a reverse frame. -/
theorem test_bit_reverse :
    ((bit nearReverse false 1408#64).slots.read 0).map (fun r => (r.payload, r.offStart, r.offEnd, r.reverse))
    = some (#v[0x21#8, 0x43#8, 0x65#8, 0x07#8, 0x11#8, 0x02#8, 0x03#8, 0x00#8, 0xBF#8, 0xFC#8], 640#64, 1279#64, 639#64) := by
  decide

/-- V17: the queue registers after five pushes into two slots. -/
theorem test_push_wraparound :
    (fun t : State => (t.qWr, t.qRd, t.qCount)) (enqueueAll queueOfTwo [record 1, record 2, record 3]) = (1#16, 1#16, 2#16) ∧
    (fun t : State => (t.qWr, t.qRd, t.qCount)) (enqueueAll queueOfTwo [record 1, record 2, record 3, record 4])
      = (0#16, 0#16, 2#16) := by decide

/-- V22: the volume table. -/
theorem test_volume :
    volDb 0 = 0xFFF0000000000000#64 ∧ volDb 2 = 0xC0450E1B2799D1CE#64 ∧ volDb 90 = 0xC022178734E727FC#64 ∧
    volDb 127 = 0xC018380AEDBD2FC2#64 ∧ volDb 174 = 0xC00A8EFD13A39EC9#64 ∧ volDb 254 = 0xBFA179647AEBA1BE#64 := by decide

/-- V16: bit reversal. -/
theorem test_bitrev :
    bitrev8 0x21#8 = 0x84#8 ∧ bitrev8 0xFD#8 = 0xBF#8 ∧ bitrev8 0x3F#8 = 0xFC#8 ∧ bitrev16 0x3FFD#16 = 0xBFFC#16 := by decide

/-- V23: the byte layout of `off_start`, `off_end`, `volume` and the extremes. -/
theorem test_layout :
    (FrameRecord.toBytes
      { record 1004 with offEnd := 1639#64, volume := 0xC00A8EFD13A39EC9#64, sampleMin := 0x2C#8, sampleMax := 0xDA#8 }).take 44
    = List.replicate 10 0#8 ++ [0xEC#8, 0x03#8, 0#8, 0#8, 0#8, 0#8, 0#8, 0#8] ++ [0x67#8, 0x06#8, 0#8, 0#8, 0#8, 0#8, 0#8, 0#8]
      ++ List.replicate 8 0#8 ++ [0xC9#8, 0x9E#8, 0xA3#8, 0x13#8, 0xFD#8, 0x8E#8, 0x0A#8, 0xC0#8] ++ [0x2C#8, 0xDA#8] := by
  decide

/-! ## Witnesses: for every statement with hypotheses, states and operands that meet all of them, each clause at a
boundary of its range -/

/-- A configured block meets the invariant. -/
theorem configured_invariant : Invariant configured := by
  refine ⟨by decide, ⟨by decide, by decide⟩, ⟨by decide, by decide⟩, fun _ => ⟨by decide, by decide, by decide, by decide,
    by decide, by decide, ?_⟩, ⟨by decide, by decide⟩, fun h => absurd rfl h, ?_, fun _ => rfl, ?_, ?_⟩
  · intro k hk; exact absurd hk (Nat.not_lt_zero k)
  · intro j _ h; exact absurd h (Nat.not_lt_zero j)
  · intro h; exact absurd h (by decide)
  · unfold ErrorOk; decide

/-- The state of V14 with the window that a run leaves there: bit 63 of T is 0. -/
def reachableForward : State := { nearForward with syncWord := 0x1FFE#16 }

theorem reachableForward_payload : PayloadOk reachableForward := by unfold PayloadOk; decide

theorem reachableForward_window : WindowOk reachableForward := by
  intro j hj
  interval_cases j <;> decide

/-- A block one bit away from a forward frame meets the invariant. -/
theorem reachableForward_invariant : Invariant reachableForward := by
  refine ⟨by decide, ⟨by decide, by decide⟩, ⟨by decide, by decide⟩, fun _ => ⟨by decide, by decide, by decide, by decide,
    by decide, by decide, ?_⟩, ⟨by decide, by decide⟩, reachableForward_payload, reachableForward_window, ?_, ?_, ?_⟩
  · intro k hk; exact absurd hk (Nat.not_lt_zero k)
  · intro h; exact absurd h (by decide)
  · intro h; exact absurd h (by decide)
  · unfold ErrorOk; decide

/-- A configured block with one unread record, its queue full (`q_cap = 1`). -/
def oneUnread : State := ({ configured with qCap := 1#16 } : State).enqueue (record 7)

theorem oneUnread_queue : QueueOk oneUnread := by
  refine ⟨by decide, by decide, by decide, by decide, by decide, by decide, ?_⟩
  intro k hk
  have : k < 1 := hk
  interval_cases k
  decide

theorem oneUnread_invariant : Invariant oneUnread := by
  refine ⟨by decide, ⟨by decide, by decide⟩, ⟨by decide, by decide⟩, fun _ => oneUnread_queue, ⟨by decide, by decide⟩,
    fun h => absurd rfl h, ?_, fun _ => rfl, ?_, ?_⟩
  · intro j _ h; exact absurd h (Nat.not_lt_zero j)
  · intro h; exact absurd h (by decide)
  · unfold ErrorOk; decide

/-! ### The step, the decoder and reset -/

theorem witness_StepRunsDecodedCommand :
    let s := presenting configured 0x3_0000_0000_0000_00DA#68
    s.cfg.wellFormed = true ∧ s.inputs = [.command 0x3_0000_0000_0000_00DA#68] ∧
      decode 0x3_0000_0000_0000_00DA#68 = .ok (.sample 218#8) := by decide

theorem witness_IllegalWordsRespondIllegal :
    (presenting State.reset (0x0#4 ++ 0#64)).cfg.wellFormed = true ∧
    (presenting State.reset (0x0#4 ++ 0#64)).inputs = [.command (0x0#4 ++ 0#64)] ∧
    5 ≤ (0x5#4).toNat ∧ 5 ≤ (0xF#4).toNat ∧ 256 ≤ (256#64).toNat ∧ 256 ≤ (-1#64).toNat ∧ (1#64 : Arg) ≠ 0#64 ∧
    (255#64).toNat < 256 := by decide

theorem witness_PresentedWordIsServedNext :
    State.reset.cfg.wellFormed = true ∧ decodeTableWord 72 0x1_0004_0000_0008_0000 = some (.init 0x80000#48 4#16) := by decide

theorem witness_IdleStepChangesNoRegister : configured.cfg.wellFormed = true ∧ configured.inputs = [] := by decide

theorem witness_HardResetInput :
    let s : State := { configured with inputs := [.hardReset] }
    s.cfg.wellFormed = true ∧ s.inputs = [.hardReset] := by decide

theorem witness_IllFormedConfigurationRefused :
    ({ State.reset with cfg := { defaultConfig with queueMax := 0 } } : State).cfg.wellFormed = false := by decide

theorem witness_EncodeDecodeRoundTrip : decode 0x4_0000_0000_0000_0000#68 = .ok .pop := by decide

theorem witness_DecoderFollowsOpcodeTable :
    decode 0x3_0000_0000_0000_00FF#68 = .ok (.sample 255#8) ∧ 2 < opcodeTable.length ∧
    decode 0x3_0000_0000_0000_0100#68 = .error .reservedSampleBits := by decide

/-! ### The invariant -/

theorem witness_StepKeepsInvariant :
    Invariant configured ∧ step configured = .next configured.noResponse := ⟨configured_invariant, rfl⟩

theorem witness_RunsNeverStop : Invariant reachableForward := reachableForward_invariant

theorem witness_ConfiguredCommandsSucceed :
    (Invariant configured ∧ configured.cfgOk = true) ∧ (Invariant oneUnread ∧ oneUnread.cfgOk = true) :=
  ⟨⟨configured_invariant, by decide⟩, oneUnread_invariant, by decide⟩

/-! ### INIT, SETPOS and POP -/

theorem witness_InitCommand :
    ((1#48 : BitVec 48) ≠ 0#48 ∧ 1 ≤ (1#16).toNat ∧ (32#16).toNat ≤ State.reset.cfg.queueMax) ∧
    State.reset.cfg.queueMax < (33#16).toNat := by decide

theorem witness_InitForgetsEarlierState :
    let t := (State.reset.construct 1#48 1#16).respond .ok none
    State.reset.cfg = configured.cfg ∧ t.cfgOk = true ∧ exec (.init 1#48 1#16) State.reset = .next t ∧
      exec (.init 1#48 1#16) configured = .next ((configured.construct 1#48 1#16).respond .ok none) :=
  ⟨by decide, by decide, rfl, rfl⟩

theorem witness_SetposCommand : configured.cfgOk = true ∧ State.reset.cfgOk = false := by decide

theorem witness_PopCommand :
    State.reset.cfgOk = false ∧ (configured.cfgOk = true ∧ configured.qCount = 0#16) ∧
    (oneUnread.cfgOk = true ∧ oneUnread.qCount ≠ 0#16 ∧ oneUnread.slots.read oneUnread.qRd.toNat = some (record 7)) := by
  decide

/-! ### Responses and errors -/

theorem witness_ResponseOfEveryWord :
    let s := presenting State.reset 0x4_0000_0000_0000_0000#68
    s.inputs = [.command 0x4_0000_0000_0000_0000#68] ∧
      step s = .next ((s.withInputs []).respond .notConfigured none) := ⟨rfl, rfl⟩

theorem witness_ErrorsChangeNoState :
    exec .pop State.reset = .next (State.reset.respond .notConfigured none) ∧
    exec (.illegalOp0 0#64) State.reset = .next (State.reset.respond .illegal none) ∧
    exec (.init 0#48 1#16) State.reset = .next (State.reset.failInit.respond .configError none) := ⟨rfl, rfl, rfl⟩

theorem witness_OnlyInitWritesConfiguration :
    exec (.setpos 5#64) configured = .next ((configured.setPos 5#64).respond .ok none) ∧
    ∀ seed cap, Instr.setpos 5#64 ≠ .init seed cap := ⟨rfl, nofun⟩

/-- The block of `oneUnread` with a POP presented, and a configured block with a hard reset presented. -/
theorem witness_OutputCauses :
    let s := presenting oneUnread 0x4_0000_0000_0000_0000#68
    (step s = .next (((s.withInputs []).dequeue).respond .ok (some (record 7))) ∧ s.frameAvail = true) ∧
    (step (presenting State.reset 0x1_0004_0000_0008_0000#68) =
      .next (((presenting State.reset 0x1_0004_0000_0008_0000#68).withInputs []).construct 0x80000#48 4#16
        |>.respond .ok none)) := ⟨⟨rfl, by decide⟩, rfl⟩

/-! ### SAMPLE -/

theorem witness_SampleCompletes : configured.cfgOk = true := by decide

theorem witness_UnconfiguredCommandsRefused : State.reset.cfgOk = false := by decide

/-- V4: the change test at its boundary, in a state whose extremes are 38 and 218 after decay and clamp. -/
def thresholdState (level : Bool) : State := { configured with envMin := 32#8, envMax := 224#8, level := level }

theorem thresholdState_envelope (level : Bool) : EnvelopeOk (thresholdState level) := ⟨by decide +revert, by decide +revert⟩

theorem witness_SampleTracksLevel :
    (thresholdState false).cfgOk = true ∧ EnvelopeOk (thresholdState false) ∧ EnvelopeOk (thresholdState true) ∧
    Changes (thresholdState false) 82#8 ∧ ¬ Changes (thresholdState false) 83#8 ∧
    Changes (thresholdState true) 174#8 ∧ ¬ Changes (thresholdState true) 173#8 := by
  refine ⟨by decide, thresholdState_envelope _, thresholdState_envelope _, ?_⟩
  unfold Changes
  decide

theorem witness_SampleWithoutChange :
    configured.cfgOk = true ∧ EnvelopeOk configured ∧ ¬ Changes configured 128#8 := by
  refine ⟨by decide, configured_invariant.envelope, ?_⟩
  unfold Changes
  decide

theorem witness_EnvelopeBound :
    EnvelopeOk configured ∧ exec (.sample 0#8) configured = .next ((processSample configured 0#8).respond .ok none) ∧
    exec (.init 1#48 1#16) State.reset = .next ((State.reset.construct 1#48 1#16).respond .ok none) :=
  ⟨configured_invariant.envelope, rfl, rfl⟩

theorem witness_ConstantInputChangesOnce : EnvelopeOk configured := configured_invariant.envelope

theorem witness_EnvelopeReachesCentre :
    configured.cfg.center = 128#8 ∧ EnvelopeOk { configured with envMin := 0#8, envMax := 255#8 } ∧ 43 ≤ 43 :=
  ⟨by decide, ⟨by decide, by decide⟩, Nat.le_refl _⟩

/-- A block about to take a sample 38 that falls below its threshold, with `cnt` samples since the last change. -/
def changing (cnt : Count) (period limit : Raw) : State := { configured with cnt := cnt, period := period, limit := limit }

theorem changing_changes (cnt : Count) (period limit : Raw) :
    (changing cnt period limit).cfgOk = true ∧ EnvelopeOk (changing cnt period limit) ∧
    Changes (changing cnt period limit) 38#8 := by
  refine ⟨rfl, ⟨Nat.le_refl _, Nat.le_refl _⟩, .inr ⟨rfl, ?_⟩⟩
  show (38#8).toNat < 128 - (128 - specEnvMin 128 128 38) * 8 / 16
  decide

/-- V5: the longest short interval and the shortest long one. -/
theorem witness_IntervalTicks :
    ((changing 6#32 524288#64 393216#64).cfgOk = true ∧ EnvelopeOk (changing 6#32 524288#64 393216#64) ∧
      Changes (changing 6#32 524288#64 393216#64) 38#8) ∧
    (changing 6#32 524288#64 393216#64).cnt.toNat * 65536 ≤ (changing 6#32 524288#64 393216#64).limit.toNat ∧
    (changing 7#32 524288#64 393216#64).limit.toNat < (changing 7#32 524288#64 393216#64).cnt.toNat * 65536 ∧
    (changing 6#32 524288#64 393216#64).level = (changing 6#32 524288#64 393216#64).biphasePrev ∧
    ({ changing 6#32 524288#64 393216#64 with biphasePrev := true } : State).level ≠ true :=
  ⟨changing_changes _ _ _, by decide, by decide, by decide, by decide⟩

/-- V6: 32 and 33 samples at `period = 8.0`; 16 and 17 at `period = 2.0`. -/
theorem witness_PeriodUpdateOrSilence :
    (let s := changing 33#32 524288#64 393216#64
     s.limit.toNat < s.cnt.toNat * 65536 ∧
     ∃ u, 33 = s.cnt.toNat ∧ u = tick (tick (tracked s 38#8) 33 false) 33 false) ∧
    (let s := changing 6#32 524288#64 393216#64
     ¬ s.limit.toNat < s.cnt.toNat * 65536 ∧ ∃ u, 12 = 2 * s.cnt.toNat ∧ u = tick (tracked s 38#8) 12 true) ∧
    ((changing 33#32 524288#64 393216#64).cfgOk = true ∧ EnvelopeOk (changing 33#32 524288#64 393216#64) ∧
      Changes (changing 33#32 524288#64 393216#64) 38#8) ∧
    (4 * (524288#64).toNat < 33 * 65536 ∧ configured.cfg.silenceMin < 33) ∧ ¬ (4 * (524288#64).toNat < 32 * 65536) ∧
    (4 * (131072#64).toNat < 17 * 65536 ∧ configured.cfg.silenceMin < 17) ∧ ¬ (configured.cfg.silenceMin < 16) ∧
    PeriodOk (changing 6#32 524288#64 393216#64) :=
  ⟨⟨by decide, _, by decide, rfl⟩, ⟨by decide, _, by decide, rfl⟩, changing_changes _ _ _, by decide, by decide, by decide,
    by decide, ⟨by decide, by decide⟩⟩

/-- A whole sample is the smallest period of the last clause; one sample the smallest count. -/
theorem witness_PeriodBounds :
    let s := changing 1#32 65536#64 49152#64
    exec (.sample 38#8) s = .next ((processSample s 38#8).respond .ok none) ∧ 1 ≤ s.cnt.toNat ∧ 65536 ≤ s.period.toNat ∧
    (processSample (changing 5#32 524288#64 393216#64) 38#8).period ≠ (changing 5#32 524288#64 393216#64).period :=
  ⟨rfl, by decide, by decide, by decide⟩

/-! ### TICK and BIT -/

theorem witness_TickDecodesByParity :
    configured.level = configured.biphasePrev ∧
    (nearForward.level ≠ nearForward.biphasePrev ∧ nearForward.biphaseState = .mid) ∧
    (let s : State := { nearForward with biphaseState := .boundary }
     s.level ≠ s.biphasePrev ∧ s.biphaseState = .boundary) := by decide

theorem witness_BitStartsFrame :
    (configured.bitCnt = 0 ∧ configured.lastBitValid = false) ∧
    (let s : State := { configured with lastBitValid := true }
     s.bitCnt = 0 ∧ s.lastBitValid = true) := by decide

theorem witness_BitAppends :
    (let s : State := { configured with bitCnt := 1 }
     0 < s.bitCnt.val ∧ s.bitCnt.val < 80) ∧
    (0 < nearForward.bitCnt.val ∧ nearForward.bitCnt.val < 80) ∧
    ((bit nearForward false 0#64).syncWord ≠ nearForward.cfg.syncFwd ∧
      (bit nearForward false 0#64).syncWord ≠ bitrev16 nearForward.cfg.syncFwd) := by decide

theorem witness_BitSlidesFullRegister :
    let s : State := { nearForward with bitCnt := 80 }
    s.bitCnt = 80 ∧ (bit s false 0#64).syncWord ≠ s.cfg.syncFwd ∧ (bit s false 0#64).syncWord ≠ bitrev16 s.cfg.syncFwd := by
  decide

theorem witness_SyncMatchClearsCount :
    (bit nearForward true 0#64).syncWord = nearForward.cfg.syncFwd ∧
    (bit nearReverse false 0#64).syncWord = bitrev16 nearReverse.cfg.syncFwd ∧
    (bit nearForward false 0#64).syncWord ≠ nearForward.cfg.syncFwd ∧
    (let s : State := { nearForward with bitCnt := 78 }
     s.bitCnt.val < 79) := by decide

theorem witness_ForwardFramePublished :
    (reachableForward.cfg.wellFormed = true ∧ (bit reachableForward true 2280#64).syncWord = reachableForward.cfg.syncFwd ∧
      79 ≤ reachableForward.bitCnt.val ∧ reachableForward.cfg.syncFwd = 0x3FFD#16) ∧
    (PayloadOk reachableForward ∧ WindowOk reachableForward) ∧
    (let s : State := { reachableForward with bitCnt := 78 }
     (bit s true 2280#64).syncWord = s.cfg.syncFwd ∧ s.bitCnt.val < 79) :=
  ⟨by decide, ⟨reachableForward_payload, reachableForward_window⟩, by decide⟩

theorem nearReverse_window : WindowOk nearReverse := by
  intro j hj
  interval_cases j <;> decide

theorem witness_ReverseFramePublished :
    (nearReverse.cfg.wellFormed = true ∧ (bit nearReverse false 1408#64).syncWord = bitrev16 nearReverse.cfg.syncFwd ∧
      79 ≤ nearReverse.bitCnt.val ∧ nearReverse.cfg.syncFwd = 0x3FFD#16) ∧
    (PayloadOk nearReverse ∧ WindowOk nearReverse) ∧
    (let s : State := { nearReverse with bitCnt := 78 }
     (bit s false 1408#64).syncWord = bitrev16 s.cfg.syncFwd ∧ s.bitCnt.val < 79) :=
  ⟨by decide, ⟨by unfold PayloadOk; decide, nearReverse_window⟩, by decide⟩

/-- A frame of 64 zeros and the forward pattern, one bit every 8 samples, without its last bit. -/
def zeroFrame : List (Bool × Position) :=
  (List.replicate 66 false ++ List.replicate 12 true ++ [false]).zipIdx.map fun e => (e.1, BitVec.ofNat 64 (2288 + 8 * e.2))

theorem zeroFrame_assembled :
    (bitAll (bit nearForward true 2280#64) zeroFrame).bitCnt.val = 79 ∧
    (bit (bitAll (bit nearForward true 2280#64) zeroFrame) true 2920#64).syncWord = nearForward.cfg.syncFwd := by
  decide +kernel

theorem witness_ForwardFramesTile :
    nearForward.cfg.wellFormed = true ∧ 79 ≤ nearForward.bitCnt.val ∧
    (bit nearForward true 2280#64).syncWord = nearForward.cfg.syncFwd ∧ zeroFrame.length = 79 ∧
    (bitAll (bit nearForward true 2280#64) zeroFrame).bitCnt.val = 79 ∧
    (bit (bitAll (bit nearForward true 2280#64) zeroFrame) true 2920#64).syncWord = nearForward.cfg.syncFwd :=
  ⟨by decide, by decide, by decide, by decide, zeroFrame_assembled⟩

/-! ### The queue -/

theorem configured_queue : QueueOk configured := configured_invariant.queue rfl

theorem witness_PushQueue :
    (QueueOk configured ∧ configured.qCount.toNat < configured.qCap.toNat) ∧
    (QueueOk oneUnread ∧ oneUnread.qCount = oneUnread.qCap) :=
  ⟨⟨configured_queue, by decide⟩, oneUnread_queue, by decide⟩

theorem queueOfTwo_queue : QueueOk queueOfTwo :=
  ⟨by decide, by decide, by decide, by decide, by decide, by decide, fun k hk => absurd hk (Nat.not_lt_zero k)⟩

/-- With fewer pushes than `q_cap`, and with the five pushes into two slots of R194. -/
theorem witness_QueueWraparound :
    (configured.cfgOk = true ∧ QueueOk configured ∧ configured.qCount = 0#16 ∧ [record 1].length < configured.qCap.toNat) ∧
    (queueOfTwo.cfgOk = true ∧ QueueOk queueOfTwo ∧ queueOfTwo.qCount = 0#16 ∧
      queueOfTwo.qCap.toNat < [record 1, record 2, record 3, record 4, record 5].length) :=
  ⟨⟨by decide, configured_queue, by decide, by decide⟩, by decide, queueOfTwo_queue, by decide, by decide⟩

/-- V14 through SAMPLE: the sample 218 exceeds `thr_hi = 173`, four samples after the last change. -/
theorem witness_OneRecordPerSample :
    nearForward.cfgOk = true ∧ EnvelopeOk nearForward ∧
    exec (.sample 218#8) nearForward = .next ((processSample nearForward 218#8).respond .ok none) ∧
    ¬ Changes nearForward 128#8 := by
  refine ⟨by decide, ⟨by decide, by decide⟩, rfl, ?_⟩
  unfold Changes
  decide

theorem witness_PublishedVolumeFinite :
    Invariant reachableForward ∧
    exec (.sample 218#8) reachableForward = .next ((processSample reachableForward 218#8).respond .ok none) ∧
    ((processSample reachableForward 218#8).slots.read 0).isSome = true ∧ reachableForward.slots.read 0 = none :=
  ⟨reachableForward_invariant, rfl, by decide, by decide⟩

theorem witness_PublicationsAreSpaced :
    ¬ SameQueue nearForward (processSample nearForward 218#8) ∧ (List.replicate 40 (218#8 : Sample)).length ≤ 40 := by
  refine ⟨?_, by decide⟩
  unfold SameQueue
  decide

/-! ### Whole-machine rules -/

theorem witness_PopDoesNotDisturbDecoding :
    exec .pop oneUnread = .next (oneUnread.dequeue.respond .ok (some (record 7))) := rfl

theorem witness_PositionsDoNotDisturbDecoding :
    let t : State := { nearForward with pos := 0#64, frameStart := 5#64, lastBitPos := 7#64 }
    (decodeView nearForward = decodeView t ∧ nearForward.qWr = t.qWr ∧ nearForward.qRd = t.qRd ∧
      nearForward.qCount = t.qCount ∧ unplacedSlots nearForward.slots = unplacedSlots t.slots) ∧
    exec (.setpos 0#64) nearForward = .next ((nearForward.setPos 0#64).respond .ok none) := ⟨⟨rfl, rfl, rfl, rfl, rfl⟩, rfl⟩

theorem witness_ContiguousBlocksJoin : configured.cfgOk = true := by decide

theorem witness_FlatInputPublishesNothing :
    exec (.init 0x80000#48 4#16) State.reset = .next configured ∧ configured.cfgOk = true := ⟨rfl, by decide⟩

theorem witness_RecordLayout :
    ({ configured with rsp := some ⟨.ok, some (record 7)⟩ } : State).rsp = some ⟨.ok, some (record 7)⟩ := rfl

theorem witness_VolumeTableShape : 1 ≤ 1 ∧ 254 ≤ 254 ∧ 253 ≤ 253 := by decide

end Sys2Proof.Tests
end

section
/-! ## Well-formed configurations (00_scope.md R11)

Each check of `Config.wellFormed` as the constraint of R11 it decides, then O6 from them. -/

namespace Sys2Proof.Config

theorem frameFits_iff : frameFits = true ↔ frameBits = 8 * payloadBytes := beq_iff_eq

theorem syncFits_iff : syncFits = true ↔ syncBits = 16 ∧ syncBits ≤ frameBits := by
  simp only [syncFits, Bool.and_eq_true, beq_iff_eq, decide_eq_true_eq]

theorem fullScaleFits_iff : fullScaleFits = true ↔ sampleFs = 2 ^ sampleBits - 1 := beq_iff_eq

/-- `ONE = 2^F` is R15's own constraint, which R11 does not list: the fixed `one` meets it. -/
theorem fractionFits_iff : fractionFits = true ↔ fracBits % 2 = 0 := by
  have hone : one = 2 ^ fracBits := rfl
  simp only [fractionFits, Bool.and_eq_true, beq_iff_eq, hone, and_true]

theorem centerOk_iff (c : Config) : c.centerOk = true ↔ 0 < c.center.toNat ∧ c.center.toNat ≤ sampleFs := by
  simp only [centerOk, Bool.and_eq_true, decide_eq_true_eq]

theorem queueMaxOk_iff (c : Config) : c.queueMaxOk = true ↔ 1 ≤ c.queueMax := decide_eq_true_iff

theorem syncOk_iff (c : Config) : c.syncOk = true ↔ c.syncRev ≠ c.syncFwd := bne_iff_ne

theorem wellFormed_iff (c : Config) :
    c.wellFormed = true ↔
      frameBits = 8 * payloadBytes ∧ (syncBits = 16 ∧ syncBits ≤ frameBits) ∧ sampleFs = 2 ^ sampleBits - 1 ∧
      fracBits % 2 = 0 ∧ (0 < c.center.toNat ∧ c.center.toNat ≤ sampleFs) ∧ 1 ≤ c.queueMax ∧ c.syncRev ≠ c.syncFwd := by
  simp only [wellFormed, Bool.and_eq_true, frameFits_iff, syncFits_iff, fullScaleFits_iff, fractionFits_iff,
    centerOk_iff, queueMaxOk_iff, syncOk_iff, and_assoc]

end Sys2Proof.Config

namespace Sys2Proof.Machine

theorem step_of_wellFormed_eq_false {s : State} (h : s.cfg.wellFormed = false) :
    step s = .refused .configIllFormed := by
  obtain ⟨-, hstep⟩ | ⟨hwf, -⟩ | ⟨hwf, -⟩ | ⟨hwf, -⟩ := step_cases s
  · exact hstep
  all_goals exact absurd hwf (Bool.eq_false_iff.mp h)

/-- Settles O6: the checks of `wellFormed` are the constraints of R11 in another order. Two of R11's constraints need no
check: `SYNC_REV = bitrev16(SYNC_FWD)` defines `syncRev`, and `SILENCE_MIN >= 0` is its type. -/
theorem illFormedConfigurationRefused : Obligations.IllFormedConfigurationRefused := by
  refine ⟨fun c => (Config.wellFormed_iff c).trans ⟨?_, ?_⟩, fun _ => step_of_wellFormed_eq_false⟩
  · rintro ⟨hframe, ⟨hsync, hfit⟩, hscale, hfrac, ⟨hpos, hle⟩, hqueue, hne⟩
    exact ⟨hframe, hsync, hfit, hpos, hle, hscale, hqueue, rfl, hne, hfrac, Nat.zero_le _⟩
  · rintro ⟨hframe, hsync, hfit, hpos, hle, hscale, hqueue, -, hne, hfrac, -⟩
    exact ⟨hframe, ⟨hsync, hfit⟩, hscale, hfrac, ⟨hpos, hle⟩, hqueue, hne⟩

end Sys2Proof.Machine
end

section
/-! ## What the host sees of an unconfigured block, and the registers only INIT writes (10_state.md R21 to R23, R47) -/

namespace Sys2Proof

open Machine

/-- Settles O26: of the ends each of the three commands can have, only the refusal is one of an unconfigured block. -/
theorem unconfiguredCommandsRefused : Obligations.UnconfiguredCommandsRefused := by
  intro s hno
  have hok : s.cfgOk ≠ true := Bool.eq_false_iff.mp hno
  refine ⟨fun v => ?_, fun p => ?_, ?_⟩
  · exact ((exec_sample_cases v s).resolve_left fun h => hok h.1).2
  · exact ((exec_setpos_cases p s).resolve_left fun h => hok h.1).2
  · obtain ⟨h, -⟩ | ⟨h, -⟩ | ⟨h, -⟩ | ⟨-, hpop⟩ := exec_pop_cases s
    · exact absurd h hok
    · exact absurd h hok
    · exact absurd h hok
    · exact hpop

/-- What a command other than INIT leaves before its response: the state as it was, or the work of SETPOS, SAMPLE or a
POP that found a record, each in a configured block only (R212 to R215). -/
inductive CommandEffect (s : State) : State → Prop
  | nothing : CommandEffect s s
  | setPos (p : Position) (hok : s.cfgOk = true) : CommandEffect s (s.setPos p)
  | sample (v : Sample) (hok : s.cfgOk = true) : CommandEffect s (processSample s v)
  | dequeue (hok : s.cfgOk = true) (hunread : s.qCount ≠ 0#16) : CommandEffect s s.dequeue

/-- A command other than INIT that goes on is one of these effects, then its response. -/
theorem exec_next_effect {i : Instr} {s t : State} (hi : ∀ seed cap, i ≠ .init seed cap) (h : exec i s = .next t) :
    ∃ u, CommandEffect s u ∧ ∃ st r, t = u.respond st r := by
  have ends {u : State} {st : Status} {r : Option FrameRecord} (hu : CommandEffect s u)
      (he : exec i s = .next (u.respond st r)) : ∃ u, CommandEffect s u ∧ ∃ st r, t = u.respond st r :=
    ⟨u, hu, st, r, Host.Outcome.next.inj (h.symm.trans he)⟩
  obtain ⟨seed, cap, rfl⟩ | ⟨p, rfl⟩ | ⟨v, rfl⟩ | rfl | ⟨-, -, -, -, he, -⟩ := exec_cases i s
  · exact absurd rfl (hi seed cap)
  · obtain ⟨hok, he⟩ | ⟨-, he⟩ := exec_setpos_cases p s
    · exact ends (.setPos p hok) he
    · exact ends .nothing he
  · obtain ⟨hok, he⟩ | ⟨-, he⟩ := exec_sample_cases v s
    · exact ends (.sample v hok) he
    · exact ends .nothing he
  · obtain ⟨-, -, he⟩ | ⟨hok, hunread, r, -, he⟩ | ⟨-, -, -, he⟩ | ⟨-, he⟩ := exec_pop_cases s
    · exact ends .nothing he
    · exact ends (.dequeue hok hunread) he
    · rw [he] at h; cases h
    · exact ends .nothing he
  · exact ends .nothing he

/-- INIT always goes on: it constructs the decoder from valid operands, or leaves the failed block (R211). -/
theorem exec_init_next {seed : BitVec 48} {cap : BitVec 16} {s t : State} (h : exec (.init seed cap) s = .next t) :
    ((1 ≤ cap.toNat ∧ cap.toNat ≤ s.cfg.queueMax) ∧ t = (s.construct seed cap).respond .ok none) ∨
      t = s.failInit.respond .configError none := by
  obtain ⟨⟨-, hcap⟩, he⟩ | ⟨-, he⟩ := exec_init_cases seed cap s
  · exact .inl ⟨hcap, Host.Outcome.next.inj (h.symm.trans he)⟩
  · exact .inr (Host.Outcome.next.inj (h.symm.trans he))

/-- The parameters and the configuration registers are the same (R10, R21 to R23). -/
structure SameConfiguration (s t : State) : Prop where
  cfg : t.cfg = s.cfg
  ok : t.cfgOk = s.cfgOk
  err : t.cfgErr = s.cfgErr
  cap : t.qCap = s.qCap

theorem CommandEffect.sameConfiguration {s u : State} (h : CommandEffect s u) : SameConfiguration s u := by
  cases h with
  | nothing => exact ⟨rfl, rfl, rfl, rfl⟩
  | setPos p _ => exact ⟨rfl, rfl, rfl, rfl⟩
  | sample v _ => exact ⟨processSample_cfg s v, processSample_cfgOk s v, processSample_cfgErr s v, processSample_qCap s v⟩
  | dequeue _ _ => exact ⟨rfl, rfl, rfl, rfl⟩

theorem exec_sameConfiguration {i : Instr} {s t : State} (hi : ∀ seed cap, i ≠ .init seed cap)
    (h : exec i s = .next t) : SameConfiguration s t := by
  obtain ⟨u, hu, st, r, rfl⟩ := exec_next_effect hi h
  obtain ⟨hcfg, hok, herr, hcap⟩ := hu.sameConfiguration
  exact ⟨hcfg, hok, herr, hcap⟩

theorem exec_init_cfg {seed : BitVec 48} {cap : BitVec 16} {s t : State} (h : exec (.init seed cap) s = .next t) :
    t.cfg = s.cfg := by
  obtain ⟨-, rfl⟩ | rfl := exec_init_next h <;> rfl

/-- Settles O23: both ends of INIT keep the parameters, and every other command keeps the configuration registers too. -/
theorem onlyInitWritesConfiguration : Obligations.OnlyInitWritesConfiguration := by
  intro i s t h
  refine ⟨?_, fun hi => ?_⟩
  · by_cases hi : ∃ seed cap, i = .init seed cap
    · obtain ⟨seed, cap, rfl⟩ := hi
      exact exec_init_cfg h
    · exact (exec_sameConfiguration (fun seed cap e => hi ⟨seed, cap, e⟩) h).cfg
  · obtain ⟨-, hok, herr, hcap⟩ := exec_sameConfiguration hi h
    exact ⟨hok, herr, hcap⟩

end Sys2Proof
end

section
/-! ## The invariant (10_state.md R45)

An unconfigured block is one state up to the host's side, which meets the invariant (`unconfigured_invariant`).
A configured one keeps it part by part. The host's side alone never matters (`Invariant.withPort`). -/

namespace Sys2Proof

open Machine

/-! ### The unconfigured block -/

/-- The hard-reset values meet the invariant, with either value of `cfg_err` (R280, R282). -/
theorem unconfigured_invariant {c : Config} (hc : c.wellFormed = true) (ins : List HostInput) (err : Bool)
    (rsp : Option Response) : Invariant { State.hardResetValue c ins with cfgErr := err, rsp := rsp } := by
  have hassembly : AssemblyOk { State.hardResetValue c ins with cfgErr := err, rsp := rsp } := .of_zero rfl
  have hlimit : (0#64).toNat = 3 * (0#64).toNat / 4 := by decide
  exact
    { config := hc
      envelope := ⟨Nat.le_refl _, Nat.le_refl _⟩
      period := ⟨Nat.two_pow_pos 49, hlimit⟩
      queue := fun h => absurd h Bool.false_ne_true
      slots := ⟨List.Pairwise.nil, fun _ h => absurd h List.not_mem_nil⟩
      payload := hassembly.payload
      window := hassembly.window
      firstBit := hassembly.firstBit
      unconfigured := fun _ => rfl
      error := fun _ => rfl }

/-- Settles O12: the values of R10 meet R11. -/
theorem resetMeetsInvariant : Obligations.ResetMeetsInvariant :=
  unconfigured_invariant (c := defaultConfig) (by decide) [] false none

/-! ### The host's side -/

/-- No part of the invariant speaks of the inputs and the response by themselves. -/
theorem Invariant.withPort {s : State} (h : Invariant s) (ins : List HostInput) (rsp : Option Response) :
    Invariant { s with inputs := ins, rsp := rsp } where
  config := h.config
  envelope := ⟨h.envelope.lo, h.envelope.hi⟩
  period := ⟨h.period.bound, h.period.limit⟩
  queue hok := (h.queue hok).congr (SameQueue.refl s) rfl rfl
  slots := ⟨h.slots.wf, h.slots.bound⟩
  payload := h.payload
  window := h.window
  firstBit := h.firstBit
  unconfigured hno := congrArg (fun u : State => { u with inputs := ins, rsp := rsp }) (h.unconfigured hno)
  error := h.error

theorem Invariant.respond {s : State} (h : Invariant s) (st : Status) (r : Option FrameRecord) :
    Invariant (s.respond st r) := h.withPort s.inputs _

/-! ### The configured block -/

theorem Invariant.assembly {s : State} (h : Invariant s) : AssemblyOk s := ⟨h.payload, h.window, h.firstBit⟩

theorem Invariant.cfgErr_eq_false {s : State} (h : Invariant s) (hok : s.cfgOk = true) : s.cfgErr = false :=
  Bool.eq_false_iff.mpr fun herr => Bool.eq_false_iff.mp (h.error herr) hok

/-- What a configured block has to meet; the other clauses speak of an unconfigured one. -/
theorem Invariant.of_configured {s : State} (hok : s.cfgOk = true) (herr : s.cfgErr = false)
    (hconfig : s.cfg.wellFormed = true) (henvelope : EnvelopeOk s) (hperiod : PeriodOk s) (hqueue : QueueOk s)
    (hslots : SlotsOk s) (hassembly : AssemblyOk s) : Invariant s where
  config := hconfig
  envelope := henvelope
  period := hperiod
  queue _ := hqueue
  slots := hslots
  payload := hassembly.payload
  window := hassembly.window
  firstBit := hassembly.firstBit
  unconfigured hno := absurd hok (Bool.eq_false_iff.mp hno)
  error h := absurd h (Bool.eq_false_iff.mp herr)

theorem SameQueue.slots {s t : State} (h : SameQueue s t) : t.slots = s.slots := by
  obtain ⟨-, -, -, hslots⟩ := h
  exact hslots

/-- The parts of a state that `SlotsOk` speaks of. -/
theorem SlotsOk.congr {s t : State} (h : SlotsOk s) (hs : t.slots = s.slots)
    (hm : t.cfg.queueMax = s.cfg.queueMax) : SlotsOk t :=
  ⟨by rw [hs]; exact h.wf, by rw [hs, hm]; exact h.bound⟩

/-- A limit computed from a legal period goes with it (R135, R211). -/
theorem PeriodOk.of_limitOf {s : State} (hb : s.period.toNat < 2 ^ 49) (hl : s.limit = limitOf s.period) : PeriodOk s :=
  ⟨hb, by rw [hl, limitOf_toNat]⟩

/-- A valid INIT empties the queue of a legal capacity; the slots it keeps were legal before (R211). -/
theorem construct_invariant {s : State} (h : Invariant s) (seed : BitVec 48) {cap : BitVec 16}
    (hpos : 1 ≤ cap.toNat) (hmax : cap.toNat ≤ s.cfg.queueMax) : Invariant (s.construct seed cap) :=
  have hseed : (seedRaw seed).toNat < 2 ^ 49 := by
    rw [seedRaw_toNat]
    exact seed.isLt.trans (by decide)
  .of_configured rfl rfl h.config ⟨Nat.le_refl _, Nat.le_refl _⟩ (.of_limitOf hseed rfl)
    { cap_pos := hpos
      cap_max := hmax
      wr := hpos
      rd := hpos
      count := Nat.zero_le _
      ring := (Nat.zero_mod _).symm
      unread := fun k hk => absurd hk (Nat.not_lt_zero k) }
    (h.slots.congr rfl rfl) (.of_zero rfl)

theorem setPos_invariant {s : State} (h : Invariant s) (hok : s.cfgOk = true) (p : Position) :
    Invariant (s.setPos p) :=
  .of_configured hok (h.cfgErr_eq_false hok) h.config ⟨h.envelope.lo, h.envelope.hi⟩ ⟨h.period.bound, h.period.limit⟩
    ((h.queue hok).congr (SameQueue.refl s) rfl rfl) (h.slots.congr rfl rfl) (h.assembly.congr rfl rfl rfl rfl)

theorem dequeue_invariant {s : State} (h : Invariant s) (hok : s.cfgOk = true) (hunread : s.qCount ≠ 0#16) :
    Invariant s.dequeue :=
  .of_configured hok (h.cfgErr_eq_false hok) h.config ⟨h.envelope.lo, h.envelope.hi⟩ ⟨h.period.bound, h.period.limit⟩
    (dequeue_queueOk s (h.queue hok) hunread) (h.slots.congr rfl rfl) (h.assembly.congr rfl rfl rfl rfl)

/-! ### SAMPLE in a configured block, part by part -/

/-- The weighted mean of a period below `2^49` and an interval below `2^33` samples is below `2^49` (R134, R138(c)). -/
theorem nextPeriod_lt {p : Raw} {n : Nat} (hp : p.toNat < 2 ^ 49) (hn : n < 2 ^ 33) :
    (nextPeriod p n).toNat < 2 ^ 49 := by
  rw [nextPeriod_toNat p n hn]
  omega

/-- EDGE leaves the period and the limit alone in a silence, else writes both (R133 to R135). -/
theorem edge_periodOk {s : State} (h : PeriodOk s) : PeriodOk (edge s) := by
  have hperiod := edge_period s
  have hlimit := edge_limit s
  split at hperiod
  case isTrue hsilence =>
    rw [if_pos hsilence] at hlimit
    exact ⟨by rw [hperiod]; exact h.bound, by rw [hperiod, hlimit]; exact h.limit⟩
  case isFalse hsilence =>
    rw [if_neg hsilence] at hlimit
    refine .of_limitOf ?_ (by rw [hperiod, hlimit])
    rw [hperiod]
    exact nextPeriod_lt h.bound (classifiedCount_lt _ _)

theorem processSample_periodOk {s : State} (h : PeriodOk s) (v : Sample) : PeriodOk (processSample s v) := by
  have htracked : PeriodOk (s.trackEnvelope v) := ⟨h.bound, h.limit⟩
  cases hl : levelSignals s v with
  | false =>
    rw [processSample_quiet hl]
    exact ⟨htracked.bound, htracked.limit⟩
  | true =>
    rw [processSample_change hl]
    have hedge := edge_periodOk htracked
    exact ⟨hedge.bound, hedge.limit⟩

theorem processSample_envelopeOk {s : State} (h : EnvelopeOk s) (v : Sample) : EnvelopeOk (processSample s v) := by
  obtain ⟨hlo, hhi⟩ := envelopeOk_next s v h
  constructor
  · rw [processSample_envMin, processSample_cfg]; exact hlo
  · rw [processSample_envMax, processSample_cfg]; exact hhi

/-- A sample leaves the queue as it was or as one push leaves it (R164), and a push keeps both. -/
theorem processSample_queueOk_slotsOk {s : State} (hq : QueueOk s) (hs : SlotsOk s) (v : Sample) :
    QueueOk (processSample s v) ∧ SlotsOk (processSample s v) := by
  have hcap : (processSample s v).qCap = s.qCap := processSample_qCap s v
  have hmax : (processSample s v).cfg.queueMax = s.cfg.queueMax := by rw [processSample_cfg]
  obtain hsame | ⟨-, -, -, r, hpush⟩ := sample_queue s v
  · exact ⟨hq.congr hsame hcap hmax, hs.congr hsame.slots hmax⟩
  · have hwr : s.qWr.toNat < s.cfg.queueMax := hq.wr.trans_le hq.cap_max
    exact ⟨(enqueue_queueOk s r hq).congr hpush hcap hmax, (enqueue_slotsOk s r hs hwr).congr hpush.slots hmax⟩

theorem processSample_invariant {s : State} (h : Invariant s) (hok : s.cfgOk = true) (v : Sample) :
    Invariant (processSample s v) := by
  obtain ⟨hqueue, hslots⟩ := processSample_queueOk_slotsOk (h.queue hok) h.slots v
  refine .of_configured ?_ ?_ ?_ (processSample_envelopeOk h.envelope v) (processSample_periodOk h.period v)
    hqueue hslots (sample_assemblyOk s v h.assembly)
  · rw [processSample_cfgOk]; exact hok
  · rw [processSample_cfgErr]; exact h.cfgErr_eq_false hok
  · rw [processSample_cfg]; exact h.config

/-! ### Every command and every step -/

theorem CommandEffect.invariant {s u : State} (hu : CommandEffect s u) (h : Invariant s) : Invariant u := by
  cases hu with
  | nothing => exact h
  | setPos p hok => exact setPos_invariant h hok p
  | sample v hok => exact processSample_invariant h hok v
  | dequeue hok hunread => exact dequeue_invariant h hok hunread

theorem exec_init_keepsInvariant {seed : BitVec 48} {cap : BitVec 16} {s t : State} (h : Invariant s)
    (ht : exec (.init seed cap) s = .next t) : Invariant t := by
  obtain ⟨⟨hpos, hmax⟩, rfl⟩ | rfl := exec_init_next ht
  · exact (construct_invariant h seed hpos hmax).respond .ok none
  · exact unconfigured_invariant h.config s.inputs true _

theorem exec_keepsInvariant {i : Instr} {s t : State} (h : Invariant s) (ht : exec i s = .next t) : Invariant t := by
  by_cases hi : ∃ seed cap, i = .init seed cap
  · obtain ⟨seed, cap, rfl⟩ := hi
    exact exec_init_keepsInvariant h ht
  · obtain ⟨u, hu, st, r, rfl⟩ := exec_next_effect (fun seed cap e => hi ⟨seed, cap, e⟩) ht
    exact (hu.invariant h).respond st r

/-- Settles O13: by the ways a step can end. An idle step and an answered word change the host's side alone, the hard
reset leaves the unconfigured block, and a command keeps the invariant from the state its word was taken from. -/
theorem stepKeepsInvariant : Obligations.StepKeepsInvariant := by
  intro s t h ht
  obtain ⟨-, he⟩ | ⟨-, -, he⟩ | ⟨-, rest, -, he⟩ | ⟨-, w, rest, -, hword⟩ := step_cases s
  · rw [he] at ht; cases ht
  · obtain rfl := Host.Outcome.next.inj (ht.symm.trans he)
    exact h.withPort s.inputs none
  · obtain rfl := Host.Outcome.next.inj (ht.symm.trans he)
    exact unconfigured_invariant h.config rest false none
  · have htaken : Invariant (s.withInputs rest) := h.withPort rest s.rsp
    obtain ⟨i, -, he⟩ | ⟨-, -, he⟩ := hword
    · exact exec_keepsInvariant htaken (he.symm.trans ht)
    · obtain rfl := Host.Outcome.next.inj (ht.symm.trans he)
      exact htaken.respond .illegal none

end Sys2Proof
end

section
/-! ## A command word that decodes is what the step executes (44_host_commands.md R210) -/

namespace Sys2Proof.Machine

theorem decodeTableWord_eq_some_iff {nbits w : Nat} {i : Instr} :
    decodeTableWord nbits w = some i ↔ decode (portWord nbits w) = .ok i := by
  unfold decodeTableWord
  cases decode (portWord nbits w) <;> simp [Except.toOption]

/-- Of the ways a step can end, the only one left when the host presents a word that decodes (R210). -/
theorem step_of_decode {s : State} {w : CmdWord} {rest : List HostInput} {i : Instr} (hwf : s.cfg.wellFormed = true)
    (hin : s.inputs = .command w :: rest) (hdec : decode w = .ok i) : step s = exec i (s.withInputs rest) := by
  obtain ⟨hill, -⟩ | ⟨-, hnil, -⟩ | ⟨-, rest', hreset, -⟩ | ⟨-, w', rest', hword, hend⟩ := step_cases s
  · exact absurd hwf (Bool.eq_false_iff.mp hill)
  · cases hin.symm.trans hnil
  · cases hin.symm.trans hreset
  · cases hin.symm.trans hword
    obtain ⟨i', hi', he⟩ | ⟨e, herr, -⟩ := hend
    · cases hdec.symm.trans hi'
      exact he
    · cases hdec.symm.trans herr

theorem State.withFetchWord_cfg (s : State) (nbits w : Nat) : (s.withFetchWord nbits w).cfg = s.cfg := rfl

theorem State.withFetchWord_inputs (s : State) (nbits w : Nat) :
    (s.withFetchWord nbits w).inputs = .command (portWord nbits w) :: s.inputs := rfl

/-- Taking the presented word away again leaves the state as it was. -/
theorem State.withFetchWord_withInputs (s : State) (nbits w : Nat) :
    (s.withFetchWord nbits w).withInputs s.inputs = s := rfl

/-- Settles O3: the presented word stands first among the inputs, so the step executes what it decodes to, on the state
from which it has been taken: the state before it was presented. -/
theorem presentedWordIsServedNext : Obligations.PresentedWordIsServedNext := by
  intro s nbits w i hwf hdec
  have hword : decode (portWord nbits w) = .ok i := decodeTableWord_eq_some_iff.mp hdec
  have hcfg : (s.withFetchWord nbits w).cfg.wellFormed = true := by rw [State.withFetchWord_cfg, hwf]
  calc step (s.withFetchWord nbits w)
      = exec i ((s.withFetchWord nbits w).withInputs s.inputs) := step_of_decode hcfg (s.withFetchWord_inputs nbits w) hword
    _ = exec i s := by rw [State.withFetchWord_withInputs]

end Sys2Proof.Machine
end

section
/-! ## Encoding and decoding a command (30_encoding.md R81 to R86)

A word decodes to the command it encodes, or it has a reserved argument bit set (`decode_cases`). The round trips and
what the decoder rejects follow from that. -/

namespace Sys2Proof

open Machine

theorem decode_append (op : BitVec 4) (arg : Arg) : decode (op ++ arg) = decodeFields op arg := by
  rw [decode, opField_append, argField_append]

theorem decodeFields_init (arg : Arg) :
    decodeFields 0x1#4 arg = .ok (.init (arg.extractLsb' 0 48) (arg.extractLsb' 48 16)) := rfl

theorem decodeFields_setpos (arg : Arg) : decodeFields 0x2#4 arg = .ok (.setpos arg) := rfl

theorem decodeFields_sample (arg : Arg) : decodeFields 0x3#4 arg = decodeSample arg := rfl

theorem decodeFields_pop (arg : Arg) : decodeFields 0x4#4 arg = decodePop arg := rfl

theorem decodeSample_of_lt {arg : Arg} (h : arg.toNat < 256) : decodeSample arg = .ok (.sample (arg.extractLsb' 0 8)) :=
  if_pos ((reservedSampleBits_iff arg).mpr h)

theorem decodeSample_of_le {arg : Arg} (h : 256 ≤ arg.toNat) : decodeSample arg = .error .reservedSampleBits :=
  if_neg fun hz => Nat.not_lt.mpr h ((reservedSampleBits_iff arg).mp hz)

theorem decodePop_zero : decodePop 0#64 = .ok .pop := rfl

theorem decodePop_of_ne_zero {arg : Arg} (h : arg ≠ 0#64) : decodePop arg = .error .reservedPopBits := if_neg h

theorem sampleArgument_lt (v : Sample) : (argument (.sample v)).toNat < 256 := by
  simp only [argument, BitVec.toNat_setWidth]
  omega

theorem sampleField_argument (v : Sample) : (argument (.sample v)).extractLsb' 0 8 = v := by
  apply BitVec.eq_of_toNat_eq
  rw [sampleField_toNat, Nat.mod_eq_of_lt (sampleArgument_lt v), argument, BitVec.toNat_setWidth]
  omega

theorem argument_sampleField {arg : Arg} (h : arg.toNat < 256) : argument (.sample (arg.extractLsb' 0 8)) = arg := by
  apply BitVec.eq_of_toNat_eq
  rw [argument, BitVec.toNat_setWidth, sampleField_toNat]
  omega

/-- Settles O7: each opcode leads to its own arm of the decoder. Only INIT and SAMPLE have operands narrower than the
argument field. -/
theorem decodeEncodeRoundTrip : Obligations.DecodeEncodeRoundTrip := by
  intro i
  rw [encode, decode_append]
  cases i with
  | init seed cap =>
    rw [opcode, decodeFields_init, argument, seedField_append, capField_append]
  | sample v =>
    rw [opcode, decodeFields_sample, decodeSample_of_lt (sampleArgument_lt v), sampleField_argument]
  | _ => rfl

/-- A SAMPLE or POP word with a reserved argument bit set (R84, R85). -/
def ReservedBits (op : BitVec 4) (arg : Arg) : Prop :=
  (op = 0x3#4 ∧ 256 ≤ arg.toNat) ∨ (op = 0x4#4 ∧ arg ≠ 0#64)

/-- The decoder is total, and drops no bit of the two fields (R86). -/
theorem decodeFields_cases (op : BitVec 4) (arg : Arg) :
    (∃ i, decodeFields op arg = .ok i ∧ opcode i = op ∧ argument i = arg) ∨
    (ReservedBits op arg ∧ ∃ e, decodeFields op arg = .error e) := by
  unfold decodeFields
  split
  case h_2 hop =>
    exact .inl ⟨_, rfl, BitVec.eq_of_toNat_eq hop.symm, initFields_append arg⟩
  case h_4 hop =>
    have hop3 : op = 0x3#4 := BitVec.eq_of_toNat_eq hop
    obtain h | h := Nat.lt_or_ge arg.toNat 256
    · exact .inl ⟨_, decodeSample_of_lt h, hop3.symm, argument_sampleField h⟩
    · exact .inr ⟨.inl ⟨hop3, h⟩, _, decodeSample_of_le h⟩
  case h_5 hop =>
    have hop4 : op = 0x4#4 := BitVec.eq_of_toNat_eq hop
    obtain rfl | h := Decidable.eq_or_ne arg 0#64
    · exact .inl ⟨_, rfl, hop4.symm, rfl⟩
    · exact .inr ⟨.inr ⟨hop4, h⟩, _, decodePop_of_ne_zero h⟩
  case h_16 =>
    have hop : op = 0xF#4 := by
      simp only [imp_false] at *
      bv_omega
    exact .inl ⟨_, rfl, hop.symm, rfl⟩
  all_goals
    rename_i hop
    exact .inl ⟨_, rfl, BitVec.eq_of_toNat_eq hop.symm, rfl⟩

theorem decode_cases (w : CmdWord) :
    (∃ i, decode w = .ok i ∧ encode i = w) ∨ (ReservedBits (opField w) (argField w) ∧ ∃ e, decode w = .error e) := by
  obtain ⟨i, hdec, hop, harg⟩ | hres := decodeFields_cases (opField w) (argField w)
  · exact .inl ⟨i, hdec, by rw [encode, hop, harg, word_split]⟩
  · exact .inr hres

/-- Settles O8: the decoder keeps both fields of every word it accepts. -/
theorem encodeDecodeRoundTrip : Obligations.EncodeDecodeRoundTrip := by
  intro w i h
  obtain ⟨j, hj, hw⟩ | ⟨-, e, he⟩ := decode_cases w
  · obtain rfl := Except.ok.inj (h.symm.trans hj)
    exact hw
  · cases h.symm.trans he

theorem opcode_eq_sample_iff (i : Instr) : opcode i = 0x3#4 ↔ ∃ v, i = .sample v := by
  cases i <;> simp [opcode]

theorem opcode_eq_pop_iff (i : Instr) : opcode i = 0x4#4 ↔ i = .pop := by
  cases i <;> simp [opcode]

theorem not_reservedBits_fields (i : Instr) : ¬ ReservedBits (opcode i) (argument i) := by
  rintro (⟨hop, harg⟩ | ⟨hop, harg⟩)
  · obtain ⟨v, rfl⟩ := (opcode_eq_sample_iff i).mp hop
    exact Nat.not_lt.mpr harg (sampleArgument_lt v)
  · obtain rfl := (opcode_eq_pop_iff i).mp hop
    exact harg rfl

theorem fields_of_decode_eq_ok {w : CmdWord} {i : Instr} (h : decode w = .ok i) :
    opField w = opcode i ∧ argField w = argument i := by
  rw [← encodeDecodeRoundTrip w i h]
  exact ⟨opField_encode i, argField_encode i⟩

theorem decode_eq_error_iff (w : CmdWord) :
    (∃ e, decode w = .error e) ↔ ReservedBits (opField w) (argField w) := by
  obtain ⟨i, hdec, rfl⟩ | ⟨hres, herr⟩ := decode_cases w
  · rw [hdec, opField_encode, argField_encode]
    exact iff_of_false (fun ⟨_, h⟩ => nomatch h) (not_reservedBits_fields i)
  · exact iff_of_true herr hres

/-- Settles O10, on closed words. -/
theorem specWordsDecode : Obligations.SpecWordsDecode := by
  unfold Obligations.SpecWordsDecode
  decide

end Sys2Proof
end

section
/-! ## The opcode table (30_encoding.md R86, spec/INDEX.md "Using opcode_table.json")

A row fixes the opcode and asks for zeros at the reserved argument bits (`selects_iff`), and every opcode has one row. -/

namespace Sys2Proof

/-- The argument bits that an opcode reserves (R84, R85). -/
def reservedMask (op : BitVec 4) : Arg :=
  if op = 0x3#4 then 0xFFFFFFFFFFFFFF00#64 else if op = 0x4#4 then BitVec.allOnes 64 else 0#64

/-- What the rows have in common, read off the table. -/
theorem opcodeTable_fields : ∀ r ∈ opcodeTable,
    opField r.mask = BitVec.allOnes 4 ∧ argField r.mask = reservedMask (opField r.pattern) ∧ argField r.pattern = 0#64 := by
  decide

/-- The opcode each row of the table asks for, in the table's order. -/
def tableOpcodes : List (BitVec 4) := opcodeTable.map fun r => opField r.pattern

theorem tableOpcodes_nodup : tableOpcodes.Nodup := by decide

theorem mem_tableOpcodes : ∀ op, op ∈ tableOpcodes := by decide

theorem tableOpcodes_tableIndex (i : Instr) : tableOpcodes[tableIndex i]? = some (opcode i) := by
  cases i <;> rfl

theorem tableOpcodes_getElem? {k : Nat} (hk : k < opcodeTable.length) :
    tableOpcodes[k]? = some (opField opcodeTable[k].pattern) := by
  simp [tableOpcodes, hk]

/-- A command's row is the only one with its opcode. -/
theorem opField_row_eq_opcode_iff {k : Nat} (hk : k < opcodeTable.length) (i : Instr) :
    opField opcodeTable[k].pattern = opcode i ↔ k = tableIndex i := by
  have hlen : k < tableOpcodes.length := (List.length_map ..).symm ▸ hk
  rw [← List.getElem?_inj hlen tableOpcodes_nodup, tableOpcodes_tableIndex, tableOpcodes_getElem? hk, Option.some_inj]

theorem sampleArgument_and_mask : ∀ v : Sample, argument (.sample v) &&& 0xFFFFFFFFFFFFFF00#64 = 0#64 := by
  decide

theorem and_sampleMask_eq_zero_iff (arg : Arg) : arg &&& 0xFFFFFFFFFFFFFF00#64 = 0#64 ↔ arg.toNat < 256 := by
  constructor
  · intro h
    have hfield : arg.extractLsb' 8 56 &&& BitVec.allOnes 56 = 0#56 := by
      have := congrArg (BitVec.extractLsb' 8 56) h
      rwa [BitVec.extractLsb'_and] at this
    rwa [BitVec.and_allOnes, reservedSampleBits_iff] at hfield
  · intro h
    rw [← argument_sampleField h, sampleArgument_and_mask]

theorem and_reservedMask_eq_zero_iff (op : BitVec 4) (arg : Arg) :
    arg &&& reservedMask op = 0#64 ↔ ¬ ReservedBits op arg := by
  unfold reservedMask
  split
  case isTrue hop =>
    subst hop
    rw [and_sampleMask_eq_zero_iff]
    simp [ReservedBits]
  case isFalse hop =>
    split
    case isTrue hpop =>
      subst hpop
      rw [BitVec.and_allOnes]
      simp [ReservedBits]
    case isFalse hpop => simp [ReservedBits, hop, hpop]

theorem word_ext_iff (v w : CmdWord) : v = w ↔ opField v = opField w ∧ argField v = argField w := by
  refine ⟨fun h => h ▸ ⟨rfl, rfl⟩, fun ⟨hop, harg⟩ => ?_⟩
  rw [← word_split v, ← word_split w, hop, harg]

theorem opField_and (v w : CmdWord) : opField (v &&& w) = opField v &&& opField w := BitVec.extractLsb'_and

theorem selects_iff {r : TableRow} (hr : r ∈ opcodeTable) (w : CmdWord) :
    r.selects w = true ↔ opField w = opField r.pattern ∧ ¬ ReservedBits (opField w) (argField w) := by
  obtain ⟨hmaskOp, hmaskArg, hpattern⟩ := opcodeTable_fields r hr
  have hop : opField (w &&& r.mask) = opField w := by
    rw [opField_and, hmaskOp, BitVec.and_allOnes]
  have harg : argField (w &&& r.mask) = argField w &&& reservedMask (opField r.pattern) := by
    rw [← hmaskArg]
    exact BitVec.extractLsb'_and
  rw [TableRow.selects, beq_iff_eq, word_ext_iff, hop, harg, hpattern, and_reservedMask_eq_zero_iff]
  exact and_congr_right fun h => by rw [h]

/-- Settles O9: a word that decodes has no reserved bit set, so it selects the rows with its opcode, of which there is
one; a word that is rejected has one set, and so fails the row of its opcode too. -/
theorem decoderFollowsOpcodeTable : Obligations.DecoderFollowsOpcodeTable := by
  refine ⟨rfl, fun w => ⟨fun i hdec k hk => ?_, ?_⟩⟩
  · obtain ⟨hop, harg⟩ := fields_of_decode_eq_ok hdec
    have hkeep : ¬ ReservedBits (opField w) (argField w) := by
      rw [hop, harg]
      exact not_reservedBits_fields i
    rw [selects_iff (List.getElem_mem hk), and_iff_left hkeep, hop, eq_comm, opField_row_eq_opcode_iff hk]
  · rw [decode_eq_error_iff]
    constructor
    · intro hres r hr
      exact Bool.eq_false_iff.mpr fun hsel => ((selects_iff hr w).mp hsel).2 hres
    · intro hnone
      obtain ⟨r, hr, hop⟩ := List.mem_map.mp (mem_tableOpcodes (opField w))
      by_contra hres
      exact Bool.eq_false_iff.mp (hnone r hr) ((selects_iff hr w).mpr ⟨hop.symm, hres⟩)

end Sys2Proof
end

section
/-! ## Illegal words, and the response of every word (30_encoding.md R86, R87; 44_host_commands.md R215)

A word is illegal or one of the four commands (`fields_cases`), and each end of each command gives the response that R87
names for it (`acceptWord_response`). -/

namespace Sys2Proof

open Machine

/-- The illegal command words, by their fields (R86). -/
def IllegalFields (op : BitVec 4) (arg : Arg) : Prop := op = 0x0#4 ∨ 5 ≤ op.toNat ∨ ReservedBits op arg

theorem seedField_toNat (arg : Arg) : (arg.extractLsb' 0 48).toNat = arg.toNat % 2 ^ 48 := by
  simp [BitVec.extractLsb'_toNat]

theorem capField_toNat (arg : Arg) : (arg.extractLsb' 48 16).toNat = arg.toNat / 2 ^ 48 := by
  have := arg.isLt
  rw [BitVec.extractLsb'_toNat, Nat.shiftRight_eq_div_pow]
  omega

theorem decode_init (arg : Arg) :
    decode (0x1#4 ++ arg) = .ok (.init (arg.extractLsb' 0 48) (arg.extractLsb' 48 16)) := by
  rw [decode_append, decodeFields_init]

theorem decode_setpos (arg : Arg) : decode (0x2#4 ++ arg) = .ok (.setpos arg) := by
  rw [decode_append, decodeFields_setpos]

theorem decode_sample {arg : Arg} (h : arg.toNat < 256) :
    decode (0x3#4 ++ arg) = .ok (.sample (arg.extractLsb' 0 8)) := by
  rw [decode_append, decodeFields_sample, decodeSample_of_lt h]

theorem decode_pop : decode (0x4#4 ++ 0#64) = .ok .pop := by
  rw [decode_append, decodeFields_pop, decodePop_zero]

/-- Every pair of fields is illegal or is one of the four commands (R86). -/
theorem fields_cases (op : BitVec 4) (arg : Arg) :
    IllegalFields op arg ∨ op = 0x1#4 ∨ op = 0x2#4 ∨ (op = 0x3#4 ∧ arg.toNat < 256) ∨ (op = 0x4#4 ∧ arg = 0#64) := by
  have hop : (op = 0x0#4 ∨ 5 ≤ op.toNat) ∨ op = 0x1#4 ∨ op = 0x2#4 ∨ op = 0x3#4 ∨ op = 0x4#4 := by
    decide +revert
  obtain hres | h | h | h | h := hop
  · exact .inl (hres.imp_right .inl)
  · exact .inr (.inl h)
  · exact .inr (.inr (.inl h))
  · obtain hlt | hge := Nat.lt_or_ge arg.toNat 256
    · exact .inr (.inr (.inr (.inl ⟨h, hlt⟩)))
    · exact .inl (.inr (.inr (.inl ⟨h, hge⟩)))
  · obtain hz | hnz := Decidable.eq_or_ne arg 0#64
    · exact .inr (.inr (.inr (.inr ⟨h, hz⟩)))
    · exact .inl (.inr (.inr (.inr ⟨h, hnz⟩)))

theorem step_of_command {s : State} {w : CmdWord} {rest : List HostInput} (hwf : s.cfg.wellFormed = true)
    (hin : s.inputs = .command w :: rest) : step s = acceptWord w (s.withInputs rest) := by
  rw [step, stepOnce, if_pos hwf, serve, hin]

theorem acceptWord_of_decode {w : CmdWord} {i : Instr} (h : decode w = .ok i) (s : State) :
    acceptWord w s = exec i s := by
  rw [acceptWord, h]

theorem acceptWord_of_error {w : CmdWord} {e : DecodeError} (h : decode w = .error e) (s : State) :
    acceptWord w s = .next (s.respond .illegal none) := by
  rw [acceptWord, h]
  rfl

theorem exec_of_reserved {i : Instr} (h : opcode i = 0x0#4 ∨ 5 ≤ (opcode i).toNat) (s : State) :
    exec i s = .next (s.respond .illegal none) := by
  obtain ⟨seed, cap, rfl⟩ | ⟨p, rfl⟩ | ⟨v, rfl⟩ | rfl | ⟨-, -, -, -, hexec, -⟩ := exec_cases i s
  · simp [opcode] at h
  · simp [opcode] at h
  · simp [opcode] at h
  · simp [opcode] at h
  · exact hexec

/-- An illegal word changes no register, whether the decoder rejects it or a reserved opcode runs. -/
theorem acceptWord_of_illegal {w : CmdWord} (h : IllegalFields (opField w) (argField w)) (s : State) :
    acceptWord w s = .next (s.respond .illegal none) := by
  obtain ⟨i, hdec, rfl⟩ | ⟨-, e, herr⟩ := decode_cases w
  · rw [opField_encode, argField_encode] at h
    obtain h0 | h5 | hres := h
    · rw [acceptWord_of_decode hdec, exec_of_reserved (.inl h0)]
    · rw [acceptWord_of_decode hdec, exec_of_reserved (.inr h5)]
    · exact absurd hres (not_reservedBits_fields i)
  · exact acceptWord_of_error herr s

/-- Settles O2: an illegal word is answered before anything else is looked at, and each of the other clauses is one arm of
the decoder. -/
theorem illegalWordsRespondIllegal : Obligations.IllegalWordsRespondIllegal := by
  intro s op arg rest hwf hin
  refine ⟨fun hill => ?_, ?_, ?_, ?_, ?_⟩
  · have hfields : IllegalFields (opField (op ++ arg)) (argField (op ++ arg)) := by
      rw [opField_append, argField_append]
      exact hill
    exact (step_of_command hwf hin).trans (acceptWord_of_illegal hfields _)
  · rintro rfl
    exact ⟨_, _, decode_init arg, seedField_toNat arg, capField_toNat arg⟩
  · rintro rfl
    exact decode_setpos arg
  · rintro rfl hlt
    exact ⟨_, decode_sample hlt, (sampleField_toNat arg).trans (Nat.mod_eq_of_lt hlt)⟩
  · rintro rfl rfl
    exact decode_pop

theorem Machine.Status.code_inj {a b : Status} : a.code = b.code ↔ a = b := by
  cases a <;> cases b <;> decide

theorem Machine.Status.code_le (a : Status) : a.code.toNat ≤ 4 := by
  cases a <;> decide

/-- The operands of INIT that R211 refuses, read off the argument field. -/
def BadInit (s : State) (arg : Arg) : Prop :=
  arg.toNat % 2 ^ 48 = 0 ∨ arg.toNat / 2 ^ 48 = 0 ∨ s.cfg.queueMax < arg.toNat / 2 ^ 48

theorem badInit_iff (s : State) (arg : Arg) :
    BadInit s arg ↔ arg.extractLsb' 0 48 = 0#48 ∨ arg.extractLsb' 48 16 = 0#16 ∨
      s.cfg.queueMax < (arg.extractLsb' 48 16).toNat := by
  rw [BadInit, ← BitVec.toNat_inj, ← BitVec.toNat_inj, seedField_toNat, capField_toNat]
  rfl

theorem not_badInit {s : State} {arg : Arg} (hseed : arg.extractLsb' 0 48 ≠ 0#48)
    (hcap : 1 ≤ (arg.extractLsb' 48 16).toNat) (hmax : (arg.extractLsb' 48 16).toNat ≤ s.cfg.queueMax) :
    ¬ BadInit s arg := by
  rw [badInit_iff]
  rintro (h | h | h)
  · exact hseed h
  · rw [h] at hcap
    exact absurd hcap (by decide)
  · exact Nat.not_lt.mpr hmax h

/-- The response that R87 and R257 give a word with these fields in the state `s`. -/
structure ResponseFits (s : State) (op : BitVec 4) (arg : Arg) (r : Response) : Prop where
  illegal : r.status = .illegal ↔ IllegalFields op arg
  configError : r.status = .configError ↔ op = 0x1#4 ∧ BadInit s arg
  notConfigured : r.status = .notConfigured ↔ ¬ IllegalFields op arg ∧ op ≠ 0x1#4 ∧ s.cfgOk = false
  empty : r.status = .empty ↔ op = 0x4#4 ∧ arg = 0#64 ∧ s.cfgOk = true ∧ s.qCount = 0#16
  record : r.record ≠ none ↔ op = 0x4#4 ∧ arg = 0#64 ∧ r.status = .ok

theorem responseFits_illegal {s : State} {op : BitVec 4} {arg : Arg} (h : IllegalFields op arg) :
    ResponseFits s op arg ⟨.illegal, none⟩ := by
  have hop1 : op ≠ 0x1#4 := by
    rintro rfl
    simp [IllegalFields, ReservedBits] at h
  have hpop : op = 0x4#4 → arg ≠ 0#64 := by
    rintro rfl
    simpa [IllegalFields, ReservedBits] using h
  constructor
  case empty => exact iff_of_false (by decide) fun ⟨hop, harg, _⟩ => hpop hop harg
  all_goals simp [h, hop1]

theorem responseFits_init {s : State} {arg : Arg} (h : ¬ BadInit s arg) : ResponseFits s 0x1#4 arg ⟨.ok, none⟩ := by
  constructor <;> simp [IllegalFields, ReservedBits, h]

theorem responseFits_badInit {s : State} {arg : Arg} (h : BadInit s arg) :
    ResponseFits s 0x1#4 arg ⟨.configError, none⟩ := by
  constructor <;> simp [IllegalFields, ReservedBits, h]

section
variable {s : State} {op : BitVec 4} {arg : Arg} (hlegal : ¬ IllegalFields op arg) (hinit : op ≠ 0x1#4)
include hlegal hinit

theorem responseFits_notConfigured (hno : s.cfgOk = false) : ResponseFits s op arg ⟨.notConfigured, none⟩ := by
  constructor <;> simp [hlegal, hinit, hno]

theorem responseFits_ok (hpop : op ≠ 0x4#4) (hok : s.cfgOk = true) : ResponseFits s op arg ⟨.ok, none⟩ := by
  constructor <;> simp [hlegal, hinit, hpop, hok]

end

theorem responseFits_empty {s : State} (hok : s.cfgOk = true) (hnone : s.qCount = 0#16) :
    ResponseFits s 0x4#4 0#64 ⟨.empty, none⟩ := by
  constructor <;> simp [IllegalFields, ReservedBits, hok, hnone]

theorem responseFits_record {s : State} (hok : s.cfgOk = true) (hunread : s.qCount ≠ 0#16) (r : FrameRecord) :
    ResponseFits s 0x4#4 0#64 ⟨.ok, some r⟩ := by
  constructor <;> simp [IllegalFields, ReservedBits, hok, hunread]

/-- Every accepted word that does not stop the block gets the response that fits it (R87). -/
theorem acceptWord_response {s t : State} {op : BitVec 4} {arg : Arg} (h : acceptWord (op ++ arg) s = .next t) :
    ∃ r, t.rsp = some r ∧ ResponseFits s op arg r := by
  have ends {u : State} {st : Status} {r : Option FrameRecord} (he : acceptWord (op ++ arg) s = .next (u.respond st r))
      (hr : ResponseFits s op arg ⟨st, r⟩) : ∃ r, t.rsp = some r ∧ ResponseFits s op arg r := by
    obtain rfl := Host.Outcome.next.inj (h.symm.trans he)
    exact ⟨_, State.respond_rsp u st r, hr⟩
  obtain hill | rfl | rfl | ⟨rfl, hlt⟩ | ⟨rfl, rfl⟩ := fields_cases op arg
  · refine ends (acceptWord_of_illegal ?_ s) (responseFits_illegal hill)
    rwa [opField_append, argField_append]
  · have hdec := acceptWord_of_decode (decode_init arg) s
    obtain ⟨⟨hseed, hcap, hmax⟩, he⟩ | ⟨hbad, he⟩ := exec_init_cases (arg.extractLsb' 0 48) (arg.extractLsb' 48 16) s
    · exact ends (hdec.trans he) (responseFits_init (not_badInit hseed hcap hmax))
    · exact ends (hdec.trans he) (responseFits_badInit ((badInit_iff s arg).mpr hbad))
  · have hdec := acceptWord_of_decode (decode_setpos arg) s
    have hlegal : ¬ IllegalFields 0x2#4 arg := by simp [IllegalFields, ReservedBits]
    obtain ⟨hok, he⟩ | ⟨hno, he⟩ := exec_setpos_cases arg s
    · exact ends (hdec.trans he) (responseFits_ok hlegal (by decide) (by decide) hok)
    · exact ends (hdec.trans he) (responseFits_notConfigured hlegal (by decide) hno)
  · have hdec := acceptWord_of_decode (decode_sample hlt) s
    have hlegal : ¬ IllegalFields 0x3#4 arg := by simp [IllegalFields, ReservedBits, hlt]
    obtain ⟨hok, he⟩ | ⟨hno, he⟩ := exec_sample_cases (arg.extractLsb' 0 8) s
    · exact ends (hdec.trans he) (responseFits_ok hlegal (by decide) (by decide) hok)
    · exact ends (hdec.trans he) (responseFits_notConfigured hlegal (by decide) hno)
  · have hdec := acceptWord_of_decode decode_pop s
    have hlegal : ¬ IllegalFields 0x4#4 0#64 := by simp [IllegalFields, ReservedBits]
    obtain ⟨hok, hnone, he⟩ | ⟨hok, hunread, r, -, he⟩ | ⟨-, -, -, he⟩ | ⟨hno, he⟩ := exec_pop_cases s
    · exact ends (hdec.trans he) (responseFits_empty hok hnone)
    · exact ends (hdec.trans he) (responseFits_record hok hunread r)
    · cases h.symm.trans (hdec.trans he)
    · exact ends (hdec.trans he) (responseFits_notConfigured hlegal (by decide) hno)

theorem wellFormed_of_step_next {s t : State} (h : step s = .next t) : s.cfg.wellFormed = true := by
  by_contra hwf
  cases h.symm.trans (step_of_wellFormed_eq_false (Bool.eq_false_iff.mpr hwf))

/-- Settles O21: a step that goes on accepted the word under a well-formed configuration, and its response fits the word's
fields. The statement's codes are the statuses of `ResponseFits`. -/
theorem responseOfEveryWord : Obligations.ResponseOfEveryWord := by
  intro s t w rest hin ht op arg illegal
  rw [step_of_command (wellFormed_of_step_next ht) hin, ← word_split w] at ht
  obtain ⟨r, hrsp, hr⟩ := acceptWord_response ht
  refine ⟨r, hrsp, ?_, ?_, ?_, ?_, r.status.code_le, ?_, ?_⟩
  · exact Status.code_inj (b := .illegal).trans hr.illegal
  · exact Status.code_inj (b := .configError).trans hr.configError
  · exact Status.code_inj (b := .notConfigured).trans hr.notConfigured
  · exact Status.code_inj (b := .empty).trans hr.empty
  · exact hr.record.trans (and_congr_right' (and_congr_right' (Status.code_inj (b := .ok)).symm))
  · intro hnone
    rw [Response.recordBytes, hnone]

end Sys2Proof
end

section
/-! ## DECODE_BLOCK (30_encoding.md R98)

A block leaves the decoder `Ready` at the position after its last sample. A SETPOS to that position changes nothing
there, so a contiguous block goes on as if its SETPOS were not presented. -/

namespace Sys2Proof.Machine

theorem execAll_cons {i : Instr} {s t : State} (h : exec i s = .next t) (is : List Instr) :
    execAll (i :: is) s = execAll is t := by
  rw [execAll, h]

theorem execAll_append {is : List Instr} {s t : State} (h : execAll is s = .next t) (js : List Instr) :
    execAll (is ++ js) s = execAll js t := by
  induction is generalizing s with
  | nil =>
    obtain rfl := Host.Outcome.next.inj h
    rfl
  | cons i is ih =>
    rw [List.cons_append, execAll]
    rw [execAll] at h
    split at h
    case h_1 u he => rw [ih h]
    all_goals cases h

theorem processSample_pos (s : State) (v : Sample) : (processSample s v).pos = s.pos + 1#64 := by
  unfold processSample
  split <;> simp

/-- A configured decoder that has just answered `OK` without a record: what SETPOS and SAMPLE leave. -/
structure Ready (s : State) : Prop where
  ok : s.cfgOk = true
  rsp : s.rsp = some ⟨.ok, none⟩

theorem exec_setpos_of_ok {s : State} (hok : s.cfgOk = true) (p : Position) :
    exec (.setpos p) s = .next ((s.setPos p).respond .ok none) := by
  obtain ⟨-, he⟩ | ⟨hno, -⟩ := exec_setpos_cases p s
  · exact he
  · cases hok.symm.trans hno

theorem exec_sample_of_ok {s : State} (hok : s.cfgOk = true) (v : Sample) :
    exec (.sample v) s = .next ((processSample s v).respond .ok none) := by
  obtain ⟨-, he⟩ | ⟨hno, -⟩ := exec_sample_cases v s
  · exact he
  · cases hok.symm.trans hno

/-- SETPOS to the position the decoder already has changes nothing. -/
theorem Ready.exec_setpos_pos {s : State} (h : Ready s) : exec (.setpos s.pos) s = .next s := by
  rw [exec_setpos_of_ok h.ok, State.setPos, State.respond, ← h.rsp]

theorem Ready.execAll_samples {s : State} (h : Ready s) (vs : List Sample) :
    ∃ t, execAll (vs.map .sample) s = .next t ∧ Ready t ∧ t.pos = s.pos + BitVec.ofNat 64 vs.length := by
  induction vs generalizing s with
  | nil => exact ⟨s, rfl, h, (BitVec.add_zero _).symm⟩
  | cons v vs ih =>
    have hnext : Ready ((processSample s v).respond .ok none) := ⟨(processSample_cfgOk s v).trans h.ok, rfl⟩
    obtain ⟨t, ht, hready, hpos⟩ := ih hnext
    refine ⟨t, (execAll_cons (exec_sample_of_ok h.ok v) _).trans ht, hready, ?_⟩
    rw [hpos, State.respond_pos, processSample_pos, List.length_cons, Nat.add_comm, BitVec.ofNat_add, BitVec.add_assoc]

theorem execAll_decodeBlock {s : State} (hok : s.cfgOk = true) (p : Position) (vs : List Sample) :
    ∃ t, execAll (decodeBlock p vs) s = .next t ∧ Ready t ∧ t.pos = p + BitVec.ofNat 64 vs.length := by
  have hset : Ready ((s.setPos p).respond .ok none) := ⟨hok, rfl⟩
  obtain ⟨t, ht, hready, hpos⟩ := hset.execAll_samples vs
  exact ⟨t, (execAll_cons (exec_setpos_of_ok hok p) _).trans ht, hready, hpos⟩

theorem decodeBlock_append (p : Position) (xs ys : List Sample) :
    decodeBlock p (xs ++ ys) = decodeBlock p xs ++ ys.map .sample := by
  rw [decodeBlock, List.map_append, decodeBlock, List.cons_append]

/-- Settles O51: the first block leaves `pos` at the offset of the second and its response at `OK`, so that the second
block's SETPOS changes nothing. -/
theorem contiguousBlocksJoin : Obligations.ContiguousBlocksJoin := by
  refine ⟨fun _ _ => rfl, fun s p xs ys hok => ?_⟩
  obtain ⟨t, ht, hready, hpos⟩ := execAll_decodeBlock hok p xs
  obtain ⟨u, hu, -, hpos'⟩ := hready.execAll_samples ys
  refine ⟨u, ?_, ?_, ?_⟩
  · rw [execAll_append ht, ← hpos, decodeBlock, execAll_cons hready.exec_setpos_pos, hu]
  · rw [decodeBlock_append, execAll_append ht, hu]
  · rw [hpos', hpos, BitVec.add_assoc, BitVec.ofNat_add]

end Sys2Proof.Machine
end

section
/-! ## The record's bytes and the response port (30_encoding.md R93)

A record is a list of byte fields laid end to end, so a byte is found from the lengths of the fields before its own
(`getElem?_flatten_field`). The port is the number these bytes write in base 256, which fits it (`portByte_eq`). -/

namespace Sys2Proof.Machine

theorem leBytes_length (v : BitVec 64) : (leBytes v).length = 8 := by
  rw [leBytes, List.length_map, List.length_range]

theorem length_comp_leBytes : List.length ∘ leBytes = fun _ => 8 := funext leBytes_length

theorem extractByte_eq {n : Nat} (v : BitVec n) (j : Nat) :
    v.extractLsb' (8 * j) 8 = BitVec.ofNat 8 (v.toNat / 256 ^ j) := by
  rw [BitVec.extractLsb', Nat.shiftRight_eq_div_pow, Nat.pow_mul]

theorem leBytes_getElem? (v : BitVec 64) {j : Nat} (h : j < 8) :
    (leBytes v)[j]? = some (BitVec.ofNat 8 (v.toNat / 256 ^ j)) := by
  rw [leBytes, List.getElem?_map, List.getElem?_range h, Option.map_some, extractByte_eq]

/-- A list of fields laid end to end: a field begins where the fields before it end. -/
theorem getElem?_flatten_field {α : Type} {fields : List (List α)} {k n j : Nat} {field : List α}
    (hk : fields[k]? = some field) (hn : ((fields.map List.length).take k).sum = n) (hj : j < field.length) :
    fields.flatten[n + j]? = field[j]? := by
  obtain ⟨hlt, rfl⟩ := List.getElem?_eq_some_iff.mp hk
  have hsplit : fields.flatten = (fields.take k).flatten ++ (fields[k] ++ (fields.drop (k + 1)).flatten) := by
    rw [← List.flatten_cons, ← List.drop_eq_getElem_cons hlt, ← List.flatten_append, List.take_append_drop]
  have hstart : (fields.take k).flatten.length = n := by
    rw [List.length_flatten, List.map_take, hn]
  rw [hsplit, List.getElem?_append_right (by omega), hstart, Nat.add_sub_cancel_left, List.getElem?_append_left hj]

/-- Byte `k` of a little-endian number. -/
theorem leNat_byte {bs : List Byte} {k : Nat} (h : k < bs.length) : BitVec.ofNat 8 (leNat bs / 256 ^ k) = bs[k] := by
  induction bs generalizing k with
  | nil => exact absurd h (Nat.not_lt_zero k)
  | cons b bs ih =>
    have hb := b.isLt
    rw [leNat]
    cases k with
    | zero =>
      apply BitVec.eq_of_toNat_eq
      rw [Nat.pow_zero, Nat.div_one, List.getElem_cons_zero, BitVec.toNat_ofNat]
      omega
    | succ k =>
      have hdrop : (b.toNat + 256 * leNat bs) / 256 = leNat bs := by omega
      rw [Nat.pow_succ', ← Nat.div_div_eq_div_mul, hdrop, List.getElem_cons_succ]
      exact ih (Nat.lt_of_succ_lt_succ h)

theorem leNat_lt (bs : List Byte) : leNat bs < 2 ^ (8 * bs.length) := by
  induction bs with
  | nil => exact Nat.one_pos
  | cons b bs ih =>
    have hb := b.isLt
    rw [leNat, List.length_cons, Nat.mul_succ, Nat.pow_add]
    omega

/-- The fields of a record as R93 lays them out. -/
def FrameRecord.byteFields (r : FrameRecord) : List (List Byte) :=
  [r.payload.toList, leBytes r.offStart, leBytes r.offEnd, leBytes r.reverse, leBytes r.volume,
    [r.sampleMin, r.sampleMax], (r.hist.toList.map leBytes).flatten]

theorem FrameRecord.toBytes_eq (r : FrameRecord) : r.toBytes = r.byteFields.flatten := by
  simp [toBytes, byteFields, List.flatMap_def]

theorem FrameRecord.toBytes_length (r : FrameRecord) : r.toBytes.length = 684 := by
  simp [toBytes, leBytes_length]

theorem FrameRecord.byteFields_lengths (r : FrameRecord) :
    r.byteFields.map List.length = [10, 8, 8, 8, 8, 2, 640] := by
  simp [byteFields, leBytes_length, length_comp_leBytes]

/-- A field begins where the lengths before it add up to. -/
theorem FrameRecord.toBytes_field (r : FrameRecord) (k : Nat) {field : List Byte} (hk : r.byteFields[k]? = some field)
    {j : Nat} (hj : j < field.length) : r.toBytes[([10, 8, 8, 8, 8, 2, 640].take k).sum + j]? = field[j]? := by
  rw [r.toBytes_eq, ← r.byteFields_lengths, getElem?_flatten_field hk rfl hj]

theorem FrameRecord.toBytes_word (r : FrameRecord) (k : Nat) {v : BitVec 64} (hk : r.byteFields[k]? = some (leBytes v))
    {j : Nat} (hj : j < 8) :
    r.toBytes[([10, 8, 8, 8, 8, 2, 640].take k).sum + j]? = some (BitVec.ofNat 8 (v.toNat / 256 ^ j)) := by
  rw [r.toBytes_field k hk ((leBytes_length v).symm ▸ hj), leBytes_getElem? v hj]

theorem ringBytes_length (ring : TicRing) : (ring.toList.map leBytes).flatten.length = 640 := by
  simp [length_comp_leBytes]

theorem ringBytes_getElem? (ring : TicRing) {i j : Nat} (hi : i < 80) (hj : j < 8) :
    (ring.toList.map leBytes).flatten[8 * i + j]? = some (BitVec.ofNat 8 (ring[i].toNat / 256 ^ j)) := by
  have hentry : (ring.toList.map leBytes)[i]? = some (leBytes ring[i]) := by
    simp [hi]
  have hlengths : (ring.toList.map leBytes).map List.length = List.replicate 80 8 := by
    rw [List.map_map, length_comp_leBytes, List.map_const', Vector.length_toList]
  have hoffset : (((ring.toList.map leBytes).map List.length).take i).sum = 8 * i := by
    rw [hlengths, List.take_replicate, List.sum_replicate, smul_eq_mul]
    omega
  rw [getElem?_flatten_field hentry hoffset ((leBytes_length _).symm ▸ hj), leBytes_getElem? _ hj]

/-- A port as wide as the bytes holds them all, byte 0 in its lowest bits. -/
theorem portByte_eq {w : Nat} {bs : List Byte} (hw : w = 8 * bs.length) {k : Nat} (hk : k < bs.length) :
    some ((BitVec.ofNat w (leNat bs)).extractLsb' (8 * k) 8) = bs[k]? := by
  have hfits : leNat bs < 2 ^ w := hw ▸ leNat_lt bs
  rw [extractByte_eq, BitVec.toNat_ofNat, Nat.mod_eq_of_lt hfits, leNat_byte hk, List.getElem?_eq_getElem hk]

/-- Settles O53: each offset of R93 is the sum of the lengths of the fields before it, and the port has the width of the
684 bytes. -/
theorem recordLayout : Obligations.RecordLayout := by
  intro r
  have hpayload : r.payload.toList.length = 10 := r.payload.length_toList
  refine ⟨r.toBytes_length, fun k hk => ?_, fun _ => r.toBytes_word 1 rfl, fun _ => r.toBytes_word 2 rfl,
    fun _ => r.toBytes_word 3 rfl, fun _ => r.toBytes_word 4 rfl, r.toBytes_field 5 rfl (j := 0) Nat.two_pos,
    r.toBytes_field 5 rfl (j := 1) Nat.one_lt_two, fun i hi j hj => ?_, fun s st hrsp => ?_⟩
  · have hbyte := r.toBytes_field 0 rfl (j := k) (hpayload.symm ▸ hk)
    rw [List.take_zero, List.sum_nil, Nat.zero_add] at hbyte
    rw [hbyte]
    simp [hk]
  · have hin : 8 * i + j < (r.hist.toList.map leBytes).flatten.length := by
      rw [ringBytes_length]
      omega
    rw [Nat.add_assoc, ← ringBytes_getElem? r.hist hi hj]
    exact r.toBytes_field 6 rfl hin
  · have hport : s.rspRecord = some (BitVec.ofNat 5472 (leNat r.toBytes)) := by
      rw [State.rspRecord, hrsp, Option.map_some, Response.recordBytes]
    have hwidth : 5472 = 8 * r.toBytes.length := by rw [r.toBytes_length]
    exact ⟨_, hport, fun k hk => portByte_eq hwidth (r.toBytes_length.symm ▸ hk)⟩

end Sys2Proof.Machine
end

section
/-! ## The level tracker (40_level_tracker.md R111 to R117)

While the envelope lies around the centre, a sample's change test is `Changes` (`levelSignals_iff`); by it
`processSample_level` and `processSample_cnt` say what the sample leaves. -/

namespace Sys2Proof

open Machine

/-! ### What one sample leaves -/

/-- `level` toggles exactly on a change (R114, R136). -/
theorem processSample_level (s : State) (v : Sample) :
    (processSample s v).level = if levelSignals s v then !s.level else s.level := by
  cases h : levelSignals s v with
  | false => simp [processSample_quiet h]
  | true => simp [processSample_change h, edge_level]

/-- EDGE clears `cnt` before the sample that caused it is counted (R136, R137). -/
theorem processSample_cnt (s : State) (v : Sample) :
    (processSample s v).cnt = if levelSignals s v then 1#32 else nextCnt s.cnt := by
  have hfirst : nextCnt 0#32 = 1#32 := by decide
  cases h : levelSignals s v with
  | false => simp [processSample_quiet h]
  | true => simp [processSample_change h, edge_cnt, hfirst]

theorem levelSignals_eq_false {s : State} {v : Sample} (he : EnvelopeOk s) (hc : ¬ Changes s v) :
    levelSignals s v = false :=
  Bool.eq_false_iff.mpr fun h => hc ((levelSignals_iff s v he).mp h)

/-- Settles O27: without a change SAMPLE is the tracked envelope, then the counters. -/
theorem sampleWithoutChange : Obligations.SampleWithoutChange := by
  intro s v hok he hc
  have hquiet : processSample s v = (tracked s v).endSample := by
    rw [processSample_quiet (levelSignals_eq_false he hc), trackEnvelope_eq_tracked s v he]
  rw [exec_sample_of_ok hok, hquiet]
  rfl

/-- Settles O28: the envelope is that of `specEnvMin` and `specEnvMax`, and the change of the statement is `Changes`. -/
theorem sampleTracksLevel : Obligations.SampleTracksLevel := by
  intro s v hok he c lo hi change
  have hsignal : levelSignals s v = true ↔ change := levelSignals_iff s v he
  refine ⟨_, exec_sample_of_ok hok v, State.respond_rsp .., ?_, ?_, fun hc => ?_, fun hc => ?_⟩
  · rw [State.respond_envMin, processSample_envMin, envMinNext_toNat _ _ _ he.lo, specEnvMin]
  · rw [State.respond_envMax, processSample_envMax, envMaxNext_toNat _ _ _ he.hi, specEnvMax]
  · rw [State.respond_level, State.respond_cnt, processSample_level, processSample_cnt, hsignal.mpr hc]
    exact ⟨rfl, rfl⟩
  · rw [State.respond_level, State.respond_cnt, processSample_level, processSample_cnt, levelSignals_eq_false he hc]
    exact ⟨rfl, nextCnt_toNat s.cnt⟩

/-! ### The envelope bound (R116) -/

theorem decayMin_bounds {c : Config} {lo : Sample} (h : lo.toNat ≤ c.center.toNat) :
    0 ≤ decayMin c lo ∧ decayMin c lo ≤ (c.center.toNat : Int) := by
  rw [decayMin_eq c lo h]
  omega

theorem decayMax_bounds {c : Config} {hi : Sample} (h : c.center.toNat ≤ hi.toNat) :
    (c.center.toNat : Int) ≤ decayMax c hi ∧ decayMax c hi ≤ 255 := by
  have hbyte := hi.isLt
  rw [decayMax_eq c hi h]
  omega

/-- Settles O29: both ends of INIT put the extremes at the centre, and both ends of SAMPLE keep the bound. -/
theorem envelopeBound : Obligations.EnvelopeBound := by
  refine ⟨⟨Nat.le_refl _, Nat.le_refl _⟩, fun s t seed cap ht => ?_, fun s t v he ht => ⟨?_, ?_⟩⟩
  · obtain ⟨-, rfl⟩ | rfl := exec_init_next ht
    all_goals exact ⟨Nat.le_refl _, Nat.le_refl _⟩
  · obtain ⟨hnonneg, hlo⟩ := decayMin_bounds he.lo
    obtain ⟨hhi, hbyte⟩ := decayMax_bounds he.hi
    exact ⟨hnonneg, hlo, hhi, hbyte⟩
  · obtain ⟨-, hend⟩ | ⟨-, hend⟩ := exec_sample_cases v s
    · obtain rfl := Host.Outcome.next.inj (ht.symm.trans hend)
      have hnext := processSample_envelopeOk he v
      exact ⟨hnext.lo, hnext.hi⟩
    · obtain rfl := Host.Outcome.next.inj (ht.symm.trans hend)
      exact ⟨he.lo, he.hi⟩

/-! ### A constant input (R117) -/

/-- The sample is not beyond the centre on the side where `level` awaits the next crossing (R118). -/
def NotAwaited (s : State) (v : Sample) : Prop :=
  (s.level = true → v.toNat ≤ s.cfg.center.toNat) ∧ (s.level = false → s.cfg.center.toNat ≤ v.toNat)

/-- Both thresholds stand at the centre or beyond it (R113). -/
theorem NotAwaited.not_changes {s : State} {v : Sample} (h : NotAwaited s v) : ¬ Changes s v := by
  obtain ⟨hhigh, hlow⟩ := h
  rintro (⟨hl, hv⟩ | ⟨hl, hv⟩)
  · have := hhigh hl
    omega
  · have := hlow hl
    omega

/-- A change leaves `level` awaiting the other side. -/
theorem notAwaited_of_changes {s : State} {v : Sample} (he : EnvelopeOk s) (hc : Changes s v) :
    NotAwaited (processSample s v) v := by
  rw [NotAwaited, processSample_level, processSample_cfg, (levelSignals_iff s v he).mpr hc, if_pos rfl]
  obtain ⟨hl, hv⟩ | ⟨hl, hv⟩ := hc
  · rw [hl]
    exact ⟨fun h => absurd h (by decide), fun _ => by omega⟩
  · rw [hl]
    exact ⟨fun _ => by omega, fun h => absurd h (by decide)⟩

theorem NotAwaited.next {s : State} {v : Sample} (he : EnvelopeOk s) (h : NotAwaited s v) :
    NotAwaited (processSample s v) v := by
  rw [NotAwaited, processSample_level, processSample_cfg, levelSignals_eq_false he h.not_changes]
  exact h

theorem NotAwaited.changesIn_replicate {s : State} {v : Sample} (he : EnvelopeOk s) (h : NotAwaited s v) (n : Nat) :
    changesIn s (List.replicate n v) = 0 := by
  induction n generalizing s with
  | zero => rfl
  | succ n ih =>
    rw [List.replicate_succ, changesIn, levelSignals_eq_false he h.not_changes,
      ih (processSample_envelopeOk he v) (h.next he)]
    rfl

/-- Settles O30: after the first change the value is not awaited any more. -/
theorem constantInputChangesOnce : Obligations.ConstantInputChangesOnce := by
  intro s v n he
  induction n generalizing s with
  | zero => exact Nat.zero_le 1
  | succ n ih =>
    have hnext := processSample_envelopeOk he v
    rw [List.replicate_succ, changesIn]
    by_cases hc : Changes s v
    · rw [(notAwaited_of_changes he hc).changesIn_replicate hnext, (levelSignals_iff s v he).mpr hc]
      exact Nat.le_refl 1
    · rw [levelSignals_eq_false he hc, if_neg Bool.false_ne_true, Nat.zero_add]
      exact ih _ hnext

/-- The decay of an extreme's distance from the centre (R111). -/
def decayDistance (d : Nat) : Nat := d * 15 / 16

theorem decayDistance_mono : Monotone decayDistance := fun _ _ h =>
  Nat.div_le_div_right (Nat.mul_le_mul_right 15 h)

/-- The farthest an extreme can be from the centre 128 decays to 0 in 43 samples. -/
theorem decayDistance_iterate_43 : decayDistance^[43] 128 = 0 := by decide

theorem decayDistance_iterate_eq_zero {d n : Nat} (hd : d ≤ 128) (hn : 43 ≤ n) : decayDistance^[n] d = 0 := by
  have hreached : decayDistance^[43] d = 0 :=
    Nat.le_zero.mp ((decayDistance_mono.iterate 43 hd).trans_eq decayDistance_iterate_43)
  have hstays : decayDistance 0 = 0 := rfl
  rw [← Nat.sub_add_cancel hn, Function.iterate_add_apply, hreached, Function.iterate_fixed hstays]

/-- The extremes stand `below` and `above` the centre by these distances. -/
structure EnvelopeAt (s : State) (below above : Nat) : Prop where
  lo : s.envMin.toNat + below = s.cfg.center.toNat
  hi : s.envMax.toNat = s.cfg.center.toNat + above

theorem EnvelopeAt.envelopeOk {s : State} {below above : Nat} (h : EnvelopeAt s below above) : EnvelopeOk s :=
  ⟨h.lo ▸ Nat.le_add_right _ _, h.hi ▸ Nat.le_add_right _ _⟩

theorem EnvelopeOk.envelopeAt {s : State} (h : EnvelopeOk s) :
    EnvelopeAt s (s.cfg.center.toNat - s.envMin.toNat) (s.envMax.toNat - s.cfg.center.toNat) :=
  ⟨Nat.add_sub_cancel' h.lo, (Nat.add_sub_cancel' h.hi).symm⟩

/-- A sample at the centre clamps neither extreme. -/
theorem EnvelopeAt.processSample_center {s : State} {below above : Nat} (h : EnvelopeAt s below above) :
    EnvelopeAt (processSample s s.cfg.center) (decayDistance below) (decayDistance above) := by
  have hok := h.envelopeOk
  obtain ⟨hlo, hhi⟩ := h
  constructor
  · rw [processSample_envMin, processSample_cfg, envMinNext_toNat _ _ _ hok.lo, specEnvMin, decayDistance]
    omega
  · rw [processSample_envMax, processSample_cfg, envMaxNext_toNat _ _ _ hok.hi, specEnvMax, decayDistance]
    omega

theorem processAll_cons (s : State) (v : Sample) (vs : List Sample) :
    processAll s (v :: vs) = processAll (processSample s v) vs := rfl

theorem processAll_cfg (s : State) (vs : List Sample) : (processAll s vs).cfg = s.cfg := by
  induction vs generalizing s with
  | nil => rfl
  | cons v vs ih => rw [processAll_cons, ih, processSample_cfg]

theorem EnvelopeAt.processAll_center {s : State} {below above : Nat} (h : EnvelopeAt s below above) (n : Nat) :
    EnvelopeAt (processAll s (List.replicate n s.cfg.center)) (decayDistance^[n] below) (decayDistance^[n] above) := by
  induction n generalizing s below above with
  | zero => exact h
  | succ n ih =>
    have hrest := ih h.processSample_center
    rw [processSample_cfg] at hrest
    rw [List.replicate_succ, processAll_cons, Function.iterate_succ_apply, Function.iterate_succ_apply]
    exact hrest

/-- Settles O31: the distances of the extremes from the centre decay to 0, whatever they were. -/
theorem envelopeReachesCentre : Obligations.EnvelopeReachesCentre := by
  intro s n hcenter he hn
  have hbelow : s.cfg.center.toNat - s.envMin.toNat ≤ 128 := by
    rw [hcenter]
    exact Nat.sub_le _ _
  have habove : s.envMax.toNat - s.cfg.center.toNat ≤ 128 := by
    have hbyte := s.envMax.isLt
    rw [hcenter, BitVec.toNat_ofNat]
    omega
  have hat := he.envelopeAt.processAll_center n
  rw [decayDistance_iterate_eq_zero hbelow hn, decayDistance_iterate_eq_zero habove hn, hcenter] at hat
  obtain ⟨hlo, hhi⟩ := hat
  rw [processAll_cfg, hcenter] at hlo hhi
  exact ⟨BitVec.eq_of_toNat_eq hlo, BitVec.eq_of_toNat_eq hhi⟩

end Sys2Proof
end

section
/-! ## The edge classifier and the period estimator (41_edge_classifier.md R131 to R138)

A SAMPLE that signals a change lets its ticks leave a state `u`, and `afterTicks u n` is what follows them
(`exec_sample_of_changes`). The ticks are `edgeTicks` of the tracked state, two or one by the classification, and they
leave alone what decides its end (`SameInterval`). -/

namespace Sys2Proof

open Machine

/-! ### What ends a change -/

/-- What follows the ticks of a change with classified count `n`: the silence test or the period update, the end of EDGE,
the end of SAMPLE and its response (R133 to R137, R213). -/
def afterTicks (u : State) (n : Nat) : State := (edgePeriod u n).endEdge.endSample.respond .ok none

theorem edgePeriod_of_silence {u : State} {n : Nat} (h : isSilence u.cfg u.period n = true) :
    edgePeriod u n = u.clearBitCnt := if_pos h

theorem edgePeriod_of_not_silence {u : State} {n : Nat} (h : ¬ isSilence u.cfg u.period n = true) :
    edgePeriod u n = u.updatePeriod n := if_neg h

theorem isLong_eq_false {cnt : Count} {limit : Raw} (h : ¬ limit.toNat < cnt.toNat * 65536) :
    isLong cnt limit = false :=
  Bool.eq_false_iff.mpr (mt (isLong_iff cnt limit).mp h)

theorem edgeTicks_long (s : State) (n : Nat) : edgeTicks s true n = tick (tick s n false) n false := (rfl)

theorem edgeTicks_short (s : State) (n : Nat) : edgeTicks s false n = tick s n true := (rfl)

theorem classifiedCount_long (cnt : Count) : classifiedCount true cnt = cnt.toNat := (rfl)

theorem classifiedCount_short (cnt : Count) : classifiedCount false cnt = 2 * cnt.toNat := (rfl)

/-- The registers that decide how a change ends and that its ticks leave alone: the parameters, the level, the period, the
limit and the position. -/
structure SameInterval (s u : State) : Prop where
  cfg : u.cfg = s.cfg
  level : u.level = s.level
  period : u.period = s.period
  limit : u.limit = s.limit
  pos : u.pos = s.pos

theorem edgeTicks_sameInterval (s : State) (v : Sample) (long : Bool) (n : Nat) :
    SameInterval s (edgeTicks (tracked s v) long n) :=
  ⟨edgeTicks_cfg .., edgeTicks_level .., edgeTicks_period .., edgeTicks_limit .., edgeTicks_pos ..⟩

/-- The silence test after the ticks sees the period and the parameters of before (R133). -/
theorem SameInterval.isSilence_iff {s u : State} (h : SameInterval s u) (n : Nat) :
    isSilence u.cfg u.period n = true ↔ 4 * s.period.toNat < n * 65536 ∧ s.cfg.silenceMin < n := by
  rw [Machine.isSilence_iff, h.cfg, h.period]

/-- Whatever becomes of the period, a change writes these registers besides what its ticks left (R136, R137). -/
theorem SameInterval.afterTicks_eq {s u : State} (h : SameInterval s u) (n : Nat) :
    afterTicks u n =
      { u with
        bitCnt := (afterTicks u n).bitCnt, period := (afterTicks u n).period, limit := (afterTicks u n).limit,
        cnt := 1#32, level := !s.level, pos := s.pos + 1#64, rsp := some ⟨.ok, none⟩ } := by
  rw [← h.level, ← h.pos]
  exact Sys2Proof.afterTicks_eq u n

/-- A silence clears `bit_cnt` alone, besides what every change writes (R133). -/
theorem SameInterval.afterTicks_of_silence {s u : State} (h : SameInterval s u) {n : Nat}
    (hsilence : 4 * s.period.toNat < n * 65536 ∧ s.cfg.silenceMin < n) :
    afterTicks u n =
      { u with bitCnt := 0, cnt := 1#32, level := !s.level, pos := s.pos + 1#64, rsp := some ⟨.ok, none⟩ } := by
  rw [afterTicks, edgePeriod_of_silence ((h.isSilence_iff n).mpr hsilence), ← h.level, ← h.pos]
  rfl

/-- A valid transition writes `period` and `limit` alone, besides what every change writes (R134, R135). -/
theorem SameInterval.afterTicks_of_not_silence {s u : State} (h : SameInterval s u) {n : Nat}
    (hvalid : ¬ (4 * s.period.toNat < n * 65536 ∧ s.cfg.silenceMin < n)) :
    afterTicks u n =
      { u with
        period := nextPeriod s.period n, limit := limitOf (nextPeriod s.period n), cnt := 1#32, level := !s.level,
        pos := s.pos + 1#64, rsp := some ⟨.ok, none⟩ } := by
  rw [afterTicks, edgePeriod_of_not_silence (mt (h.isSilence_iff n).mp hvalid), ← h.level, ← h.pos, ← h.period]
  rfl

@[simp] theorem afterTicks_tic (u : State) (n : Nat) : (afterTicks u n).tic = u.tic := by simp [afterTicks]

@[simp] theorem afterTicks_tics (u : State) (n : Nat) : (afterTicks u n).tics = u.tics := by simp [afterTicks]

@[simp] theorem afterTicks_biphaseState (u : State) (n : Nat) : (afterTicks u n).biphaseState = u.biphaseState := by
  simp [afterTicks]

@[simp] theorem afterTicks_biphasePrev (u : State) (n : Nat) : (afterTicks u n).biphasePrev = u.biphasePrev := by
  simp [afterTicks]

section
variable {s : State} {v : Sample} (hok : s.cfgOk = true) (he : EnvelopeOk s) (hc : Changes s v)
include hok he hc

theorem exec_sample_of_changes {long : Bool} (hl : isLong s.cnt s.limit = long) :
    exec (.sample v) s =
      .next (afterTicks (edgeTicks (tracked s v) long (classifiedCount long s.cnt)) (classifiedCount long s.cnt)) := by
  have hedge := edge_eq (s := tracked s v) hl rfl
  rw [execSample_change hok he hc, hedge]
  rfl

/-- After a long interval: two ticks with the unmodified count (R131). -/
theorem exec_sample_of_long (hl : s.limit.toNat < s.cnt.toNat * 65536) :
    exec (.sample v) s =
      .next (afterTicks (tick (tick (tracked s v) s.cnt.toNat false) s.cnt.toNat false) s.cnt.toNat) := by
  rw [exec_sample_of_changes hok he hc ((isLong_iff _ _).mpr hl), edgeTicks_long, classifiedCount_long]

/-- After a short interval: one tick with the doubled count (R132). -/
theorem exec_sample_of_short (hl : ¬ s.limit.toNat < s.cnt.toNat * 65536) :
    exec (.sample v) s = .next (afterTicks (tick (tracked s v) (2 * s.cnt.toNat) true) (2 * s.cnt.toNat)) := by
  rw [exec_sample_of_changes hok he hc (isLong_eq_false hl), edgeTicks_short, classifiedCount_short]

end

/-- Settles O32: `afterTicks` keeps what two ticks or one left. The second tick of two finds `biphase_prev` equal to
`level`, so it ends at the boundary. -/
theorem intervalTicks : Obligations.IntervalTicks := by
  intro s v hok he hc ends
  by_cases hl : s.limit.toNat < s.cnt.toNat * 65536
  · refine ⟨_, exec_sample_of_long hok he hc hl, ?_, fun _ => ⟨?_, ?_, ?_, ?_⟩, fun hle => absurd hl hle.not_gt⟩
    · rw [afterTicks_biphasePrev, tick_biphasePrev, tick_level]
      rfl
    · exact (edgeTicks_sameInterval s v true _).afterTicks_eq _
    · rw [afterTicks_tic, tick_tic, tick_tic, nextTic_val, nextTic_val, Nat.mod_add_mod]
      rfl
    · simp only [afterTicks_tics, tick_tics, tick_tic, tick_period, nextTic_val]
      rfl
    · rw [afterTicks_biphaseState, tick_biphaseState, tick_level, tick_biphasePrev, parityStep_same]
  · have hparity : (afterTicks (tick (tracked s v) (2 * s.cnt.toNat) true) (2 * s.cnt.toNat)).biphaseState =
        (parityStep s.level s.biphasePrev s.biphaseState).1 :=
      (afterTicks_biphaseState ..).trans (tick_biphaseState ..)
    refine ⟨_, exec_sample_of_short hok he hc hl, ?_, fun hl' => absurd hl' hl, fun _ => ⟨?_, ?_, ?_, ?_, ?_⟩⟩
    · rw [afterTicks_biphasePrev, tick_biphasePrev]
      rfl
    · exact (edgeTicks_sameInterval s v false _).afterTicks_eq _
    · rw [afterTicks_tic, tick_tic, nextTic_val]
      rfl
    · rw [afterTicks_tics, tick_tics]
      rfl
    · intro hsame
      rw [hparity, ← hsame, parityStep_same]
    · intro htoggled
      rw [hparity, parityStep_toggle htoggled, apply_ite Prod.fst]

/-! ### The period or the silence -/

/-- In the limit of R45(g) a short interval is never silence: `2 * cnt * ONE` is at most `3 * P / 2` (R133, R135). -/
theorem PeriodOk.short_le {s : State} (h : PeriodOk s) (hshort : ¬ s.limit.toNat < s.cnt.toNat * 65536) :
    2 * s.cnt.toNat * 65536 ≤ 4 * s.period.toNat := by
  have hlimit := h.limit
  omega

/-- Settles O33: `c` and `u` are the classified count and its ticks, and the silence test of R133 sees the period and the
parameters as they were, because no tick writes them. -/
theorem periodUpdateOrSilence : Obligations.PeriodUpdateOrSilence := by
  intro s v hok he hc long c u hlong hshort silence ended
  obtain ⟨wasLong, hclass, rfl, rfl⟩ : ∃ wasLong, isLong s.cnt s.limit = wasLong ∧ classifiedCount wasLong s.cnt = c ∧
      edgeTicks (tracked s v) wasLong c = u := by
    by_cases hl : long
    · obtain ⟨rfl, rfl⟩ := hlong hl
      exact ⟨true, (isLong_iff _ _).mpr hl, classifiedCount_long _, edgeTicks_long _ _⟩
    · obtain ⟨rfl, rfl⟩ := hshort hl
      exact ⟨false, isLong_eq_false hl, classifiedCount_short _, edgeTicks_short _ _⟩
  have hticks := edgeTicks_sameInterval s v wasLong (classifiedCount wasLong s.cnt)
  refine ⟨_, exec_sample_of_changes hok he hc hclass, fun hsil => ?_, fun hvalid => ?_, fun hp hl hsil => ?_⟩
  · rw [hticks.afterTicks_of_silence hsil]
    exact ⟨rfl, hticks.period, hticks.limit⟩
  · rw [hticks.afterTicks_of_not_silence hvalid]
    exact ⟨rfl, rfl, nextPeriod_toNat _ _ (classifiedCount_lt wasLong s.cnt), limitOf_toNat _⟩
  · exact (hp.short_le hl).not_gt ((hshort hl).1 ▸ hsil.1)

/-! ### The bounds of the period (R138) -/

theorem processSample_period (s : State) (v : Sample) :
    (processSample s v).period = s.period ∨
      ∃ long, (processSample s v).period = nextPeriod s.period (classifiedCount long s.cnt) := by
  cases hv : levelSignals s v with
  | false => exact .inl (by rw [processSample_quiet hv]; rfl)
  | true =>
    have hedge := edge_period (s.trackEnvelope v)
    rw [processSample_change hv]
    split at hedge
    · exact .inl hedge
    · exact .inr ⟨_, hedge⟩

/-- The classified count is the count or its double (R131, R132). -/
theorem classifiedCount_bounds (long : Bool) (cnt : Count) :
    cnt.toNat ≤ classifiedCount long cnt ∧ classifiedCount long cnt ≤ 2 * (2 ^ 32 - 1) := by
  have hcnt := cnt.isLt
  cases long with
  | false =>
    rw [classifiedCount_short]
    omega
  | true =>
    rw [classifiedCount_long]
    omega

/-- Settles O34: a period that moves is the weighted mean of the old one and a count between `cnt` and `2 * CNT_MAX`. -/
theorem periodBounds : Obligations.PeriodBounds := by
  intro s t v ht
  have hend : t.period = s.period ∨ ∃ long, t.period = nextPeriod s.period (classifiedCount long s.cnt) := by
    obtain ⟨-, he⟩ | ⟨-, he⟩ := exec_sample_cases v s
    · obtain rfl := Host.Outcome.next.inj (ht.symm.trans he)
      exact processSample_period s v
    · obtain rfl := Host.Outcome.next.inj (ht.symm.trans he)
      exact .inl rfl
  obtain hsame | ⟨long, hmean⟩ := hend
  · rw [hsame]
    exact ⟨Nat.le_max_left _ _, fun hmoved => absurd rfl hmoved, fun hone _ => hone⟩
  · obtain ⟨hmin, hmax⟩ := classifiedCount_bounds long s.cnt
    rw [hmean, nextPeriod_toNat _ _ (classifiedCount_lt long s.cnt)]
    exact ⟨by omega, fun _ _ => by omega, fun _ _ => by omega⟩

end Sys2Proof
end

section
/-! ## The bit synchronizer (42_bit_synchronizer.md R150 to R164)

A tick is the bit its row of the parity table names (`tick_of_bit`), or no bit (`tick_of_no_bit`). A bit is said through
what it finds and what the sync window becomes: the register and `frame_start` (`bit_payloadBit`, `bit_frameStart_eq`), the
count (`bit_bitCnt_of_sync`, `bit_bitCnt_of_not_sync`), and the record that a match pushes out of a full register
(`forwardRecord`, `reverseRecord`). -/

namespace Sys2Proof

open Machine

/-! ### Ticks (R150 to R153) -/

/-- Settles O35: no bit touches the ring, nor what the level tracker and the edge classifier own. -/
theorem tickWritesRing : Obligations.TickWritesRing := fun _ _ _ =>
  ⟨tick_tics .., congrArg Fin.val (tick_tic ..), tick_cfg .., tick_inputs .., tick_rsp .., tick_cfgOk .., tick_cfgErr ..,
    tick_qCap .., tick_envMin .., tick_envMax .., tick_level .., tick_cnt .., tick_period .., tick_limit .., tick_pos ..⟩

theorem bit_syncWord_toNat (s : State) (b : Bool) (x : Position) :
    (bit s b x).syncWord.toNat = (2 * s.syncWord.toNat + b.toNat) % 2 ^ 16 := by
  rw [bit_syncWord, shiftIn_toNat]

theorem rememberLevel_eq {t : State} {level : Bool} (h : t.level = level) :
    t.rememberLevel = { t with biphasePrev := level } := h ▸ rfl

/-- A tick that decodes a bit is that bit on the state with the ring and the parity written, and then the level kept. -/
theorem tick_of_bit {s : State} {p : Parity} {b : Bool}
    (h : parityStep s.level s.biphasePrev s.biphaseState = (p, some b)) (n : Nat) (short : Bool) :
    tick s n short =
      { bit (s.ringWrite.setParity p) b (tickPosition s.pos n s.period short) with biphasePrev := s.level } := by
  rw [tick, h]
  exact rememberLevel_eq (bit_level ..)

/-- Where the bit of a tick is seen. -/
theorem tick_shows_bit {s : State} {p : Parity} {b : Bool}
    (h : parityStep s.level s.biphasePrev s.biphaseState = (p, some b)) (n : Nat) (short : Bool) :
    (tick s n short).biphaseState = p ∧ (tick s n short).lastBitPos = tickPosition s.pos n s.period short ∧
      (tick s n short).lastBitValid = true ∧
      (tick s n short).syncWord.toNat = (2 * s.syncWord.toNat + b.toNat) % 2 ^ 16 := by
  rw [tick_of_bit h]
  exact ⟨bit_biphaseState .., bit_lastBitPos .., bit_lastBitValid ..,
    bit_syncWord_toNat (s.ringWrite.setParity p) b _⟩

theorem tick_of_no_bit {s : State} {p : Parity} (h : parityStep s.level s.biphasePrev s.biphaseState = (p, none))
    (n : Nat) (short : Bool) : tick s n short = { s.ringWrite.setParity p with biphasePrev := s.level } := by
  rw [tick, h]
  exact rememberLevel_eq rfl

theorem parityStep_of_eq {level prev : Bool} (h : level = prev) (st : Parity) :
    parityStep level prev st = (.boundary, some false) := if_pos h

/-- Settles O36: each clause is one row of the parity table. -/
theorem tickDecodesByParity : Obligations.TickDecodesByParity := by
  intro s n short t bpos ticked
  have hticked (p : Parity) : ticked p = s.ringWrite.setParity p := by
    simp only [ticked, t, tick_tic]
    rfl
  have hbpos : bpos = tickPosition s.pos n s.period short := (tickPosition_eq ..).symm
  refine ⟨tick_biphasePrev .., congrArg Fin.val (tick_tic ..), fun hsame => ?_, fun htoggled hmid => ?_,
    fun htoggled hboundary => ?_⟩
  · have hrow := parityStep_of_eq hsame s.biphaseState
    rw [hticked, hbpos]
    exact ⟨tick_of_bit hrow n short, tick_shows_bit hrow n short⟩
  · have hrow := (parityStep_toggle htoggled s.biphaseState).trans (if_pos hmid)
    rw [hticked, hbpos]
    exact ⟨tick_of_bit hrow n short, tick_shows_bit hrow n short⟩
  · have hrow : parityStep s.level s.biphasePrev s.biphaseState = (.mid, none) := by
      rw [parityStep_toggle htoggled, hboundary]
      rfl
    have htick : t = { ticked .mid with biphasePrev := s.level } := by
      rw [hticked]
      exact tick_of_no_bit hrow n short
    refine ⟨htick, ?_⟩
    rw [htick]
    exact ⟨rfl, rfl, rfl, rfl, rfl, rfl, rfl, rfl, rfl, rfl, rfl⟩

/-! ### The register, `frame_start` and the count (R154 to R157, R160) -/

theorem bit_payloadBit (s : State) (b : Bool) (x : Position) (p : Fin 80) :
    payloadBit (bit s b x).frame p =
      if s.bitCnt = 0 then (decide (p = 0) && b)
      else if s.bitCnt = 80 then (if h : p.val < 79 then payloadBit s.frame ⟨p.val + 1, by omega⟩ else b)
      else (payloadBit s.frame p || (decide (p.val = s.bitCnt.val) && b)) := by
  rw [bit_frame, taken_payloadBit]

theorem bit_frameStart_eq (s : State) (b : Bool) (x : Position) :
    (bit s b x).frameStart =
      if s.bitCnt = 0 then (if s.lastBitValid then s.lastBitPos else x - BitVec.ofNat 64 (ceilOnes s.period.toNat))
      else if s.bitCnt = 80 then s.frameStart + BitVec.ofNat 64 (ceilOnes s.period.toNat)
      else s.frameStart := by
  rw [bit_frameStart, makeRoom_frameStart, backByPeriod_eq, advanceByPeriod_eq]

/-- A count strictly between its ends is neither of the two that BIT singles out. -/
theorem bitCnt_ne_of_lt {n : Fin 81} (hpos : 0 < n.val) (hlt : n.val < 80) : n ≠ 0 ∧ n ≠ 80 :=
  ⟨Fin.ne_of_gt hpos, Fin.ne_of_lt hlt⟩

theorem bit_frameStart_of_counted {s : State} (hpos : 0 < s.bitCnt.val) (hlt : s.bitCnt.val < 80) (b : Bool)
    (x : Position) : (bit s b x).frameStart = s.frameStart := by
  obtain ⟨hempty, hfull⟩ := bitCnt_ne_of_lt hpos hlt
  rw [bit_frameStart_eq, if_neg hempty, if_neg hfull]

/-- The sync window, with this bit taken in, is one of the two patterns (R158, R159). -/
abbrev Syncs (s : State) (b : Bool) (x : Position) : Prop :=
  (bit s b x).syncWord = s.cfg.syncFwd ∨ (bit s b x).syncWord = bitrev16 s.cfg.syncFwd

theorem bit_bitCnt_of_sync {s : State} {b : Bool} {x : Position} (h : Syncs s b x) : (bit s b x).bitCnt = 0 := by
  simp only [Syncs, bit_syncWord] at h
  exact (bit_bitCnt s b x).trans (if_pos h)

theorem bit_bitCnt_of_not_sync {s : State} {b : Bool} {x : Position} (h : ¬ Syncs s b x) :
    (bit s b x).bitCnt.val = min (s.bitCnt.val + 1) 80 := by
  simp only [Syncs, bit_syncWord] at h
  have hcount : (bit s b x).bitCnt = (taken s b x).bitCnt := (bit_bitCnt s b x).trans (if_neg h)
  rw [hcount, taken_bitCnt]

theorem bit_sameQueue_of_not_sync {s : State} {b : Bool} {x : Position} (h : ¬ Syncs s b x) :
    SameQueue s (bit s b x) := by
  obtain hsame | ⟨-, hcleared, -⟩ := bit_queue s b x
  · exact hsame
  · have hcount := bit_bitCnt_of_not_sync h
    rw [hcleared, Fin.val_zero] at hcount
    omega

theorem bit_sameQueue_of_lt {s : State} (h : s.bitCnt.val < 79) (b : Bool) (x : Position) :
    SameQueue s (bit s b x) := by
  obtain hsame | ⟨hfull, -⟩ := bit_queue s b x
  · exact hsame
  · omega

/-- Settles O37: the register is cleared before the bit is taken in, so position 0 alone can hold a 1. -/
theorem bitStartsFrame : Obligations.BitStartsFrame := by
  intro s b x hempty t
  refine ⟨fun p => ?_, fun hvalid => ?_, fun hfirst => ?_⟩
  · rw [bit_payloadBit, if_pos hempty]
  · rw [bit_frameStart_eq, if_pos hempty, if_pos hvalid]
  · rw [bit_frameStart_eq, if_pos hempty, hfirst, if_neg Bool.false_ne_true]

/-- Settles O38: between its ends the count neither starts a frame nor slides the register. -/
theorem bitAppends : Obligations.BitAppends := by
  intro s b x hpos hlt t
  obtain ⟨hempty, hfull⟩ := bitCnt_ne_of_lt hpos hlt
  refine ⟨bit_syncWord_toNat s b x, fun p hp => ?_, fun p hp => ?_, bit_frameStart_of_counted hpos hlt b x,
    fun hf hr => ?_⟩
  · rw [bit_payloadBit, if_neg hempty, if_neg hfull, decide_eq_false hp, Bool.false_and, Bool.or_false]
  · rw [bit_payloadBit, if_neg hempty, if_neg hfull, decide_eq_true hp, Bool.true_and]
  · rw [bit_bitCnt_of_not_sync (not_or.mpr ⟨hf, hr⟩)]
    omega

/-- Settles O39: a full register slides before the bit is taken in at position 79. -/
theorem bitSlidesFullRegister : Obligations.BitSlidesFullRegister := by
  intro s b x hfull t
  have hempty : s.bitCnt ≠ 0 := by
    rw [hfull]
    decide
  refine ⟨fun p hp => ?_, ?_, ?_, fun hf hr => Fin.ext ?_⟩
  · rw [bit_payloadBit, if_neg hempty, if_pos hfull, dif_pos hp]
  · rw [bit_payloadBit, if_neg hempty, if_pos hfull, dif_neg (by decide)]
  · rw [bit_frameStart_eq, if_neg hempty, if_pos hfull]
  · rw [bit_bitCnt_of_not_sync (not_or.mpr ⟨hf, hr⟩), hfull]
    rfl

/-- Settles O40: the match alone decides the count, and without a match or a full register nothing is published. -/
theorem syncMatchClearsCount : Obligations.SyncMatchClearsCount := by
  intro s b x t sync
  refine ⟨bit_syncWord_toNat s b x, bit_lastBitPos .., bit_lastBitValid .., bit_bitCnt_of_sync, bit_bitCnt_of_not_sync, ?_⟩
  rintro (hno | hlt)
  · exact bit_sameQueue_of_not_sync hno
  · exact bit_sameQueue_of_lt hlt b x

/-! ### The published records (R158, R159, R162) -/

/-- The forward record of the bit `b` at `x` (R158). -/
def forwardRecord (s : State) (b : Bool) (x : Position) : FrameRecord :=
  s.makeRecord (bit s b x).frame (bit s b x).frameStart (x - 1#64) 0#64

/-- The reverse record of the bit `b` at `x` (R159). -/
def reverseRecord (s : State) (b : Bool) (x : Position) : FrameRecord :=
  s.makeRecord (unreverse (bit s b x).frame) ((bit s b x).frameStart - reverseShift s.period)
    (x - 1#64 - reverseShift s.period) (reverseSpan s.cfg s.period)

theorem taken_frameStart (s : State) (b : Bool) (x : Position) :
    (taken s b x).frameStart = (bit s b x).frameStart := by
  rw [bit_frameStart, State.takeBit_frameStart]

/-- Taking a bit in leaves the ring and the envelope, so PUSH attaches what the bit found. -/
theorem taken_makeRecord (s : State) (b : Bool) (x : Position) (f : Payload) (a e : Position) (r : BitVec 64) :
    (taken s b x).makeRecord f a e r = s.makeRecord f a e r := by
  simp only [State.makeRecord, State.takeBit_envMin, State.takeBit_envMax, State.takeBit_tic, State.takeBit_tics,
    makeRoom_envMin, makeRoom_envMax, makeRoom_tic, makeRoom_tics]

theorem taken_sameQueue (s : State) (b : Bool) (x : Position) : SameQueue s (taken s b x) :=
  ⟨makeRoom_qWr .., makeRoom_qRd .., makeRoom_qCount .., makeRoom_slots ..⟩

theorem enqueue_taken_sameQueue (s : State) (b : Bool) (x : Position) (r : FrameRecord) :
    SameQueue (s.enqueue r) ((taken s b x).enqueue r) :=
  (taken_sameQueue s b x).enqueue (makeRoom_qCap ..) r

theorem publishForward_taken (s : State) (b : Bool) (x : Position) :
    publishForward (taken s b x) x = (taken s b x).enqueue (forwardRecord s b x) := by
  rw [publishForward, push, taken_makeRecord, taken_frameStart, ← bit_frame, forwardRecord]

theorem publishReverse_taken (s : State) (b : Bool) (x : Position) :
    publishReverse (taken s b x) x = (taken s b x).enqueue (reverseRecord s b x) := by
  have hperiod : (taken s b x).period = s.period := makeRoom_period ..
  have hcfg : (taken s b x).cfg = s.cfg := makeRoom_cfg ..
  rw [publishReverse, push, taken_makeRecord, taken_frameStart, ← bit_frame, hperiod, hcfg, reverseRecord]

section
variable {s : State} {b : Bool} {x : Position} (hwf : s.cfg.wellFormed = true) (hfull : 79 ≤ s.bitCnt.val)
include hwf hfull

theorem bit_pushes_forward (h : (bit s b x).syncWord = s.cfg.syncFwd) :
    SameQueue (s.enqueue (forwardRecord s b x)) (bit s b x) := by
  rw [bit_syncWord] at h
  rw [bit_eq_forward s b x h (syncRev_ne_syncFwd hwf), if_pos ((taken_full_iff s b x).mpr hfull), publishForward_taken]
  exact enqueue_taken_sameQueue s b x _

theorem bit_pushes_reverse (h : (bit s b x).syncWord = bitrev16 s.cfg.syncFwd) :
    SameQueue (s.enqueue (reverseRecord s b x)) (bit s b x) := by
  rw [bit_syncWord] at h
  rw [bit_eq_reverse s b x h (syncRev_ne_syncFwd hwf), if_pos ((taken_full_iff s b x).mpr hfull), publishReverse_taken]
  exact enqueue_taken_sameQueue s b x _

end

/-! #### The sync bytes of a full register -/

theorem payloadBit_byte (f : Payload) {k i : Nat} (hk : k < 10) (hi : i < 8) :
    payloadBit f ⟨8 * k + i, by omega⟩ = f[k].getLsbD i := by
  have hbyte : (8 * k + i) / 8 = k := by omega
  have hbit : (8 * k + i) % 8 = i := by omega
  simp only [payloadBit, hbyte, hbit]

/-- Eighty bits hold the sync window in bytes 8 and 9, oldest bit first, so each byte is half the window bit-reversed
(R36, R92). -/
theorem WindowOk.frame_syncByte {t : State} (h : WindowOk t) (hfull : t.bitCnt = 80) {k : Nat} (hk : k < 2) :
    t.frame[9 - k] = bitrev8 (t.syncWord.extractLsb' (8 * k) 8) := by
  have hcount : t.bitCnt.val = 80 := by
    rw [hfull]
    rfl
  refine BitVec.eq_of_getLsbD_eq fun i hi => ?_
  have hwindow := h (8 * k + (7 - i)) (by omega) (by omega)
  have hplace : t.bitCnt.val - 1 - (8 * k + (7 - i)) = 8 * (9 - k) + i := by omega
  have hsmall : 7 - i < 8 := by omega
  simp only [hplace] at hwindow
  rw [bitrev8_getLsbD _ _ hi, BitVec.getLsbD_extractLsb', decide_eq_true hsmall, Bool.true_and, hwindow, payloadBit_byte]
  all_goals omega

/-- Only the first bit of a frame looks at `last_bit_valid` (R154). -/
theorem makeRoom_setLastBitValid {s : State} (h : s.bitCnt ≠ 0) (v : Bool) (x : Position) :
    makeRoom { s with lastBitValid := v } x = makeRoom s x := by
  simp only [makeRoom, if_neg h]
  rfl

/-- `taken_windowOk` for a state of which nothing is said about `last_bit_valid`. -/
theorem taken_windowOk_of_counted {s : State} (hpayload : PayloadOk s) (hwindow : WindowOk s) (h : s.bitCnt ≠ 0)
    (b : Bool) (x : Position) : WindowOk (taken s b x) := by
  have hassembly : AssemblyOk { s with lastBitValid := true } := ⟨hpayload, hwindow, fun hv => Bool.noConfusion hv⟩
  have htaken := taken_windowOk _ b x hassembly
  rwa [taken, makeRoom_setLastBitValid h] at htaken

theorem bit_frame_syncByte {s : State} (hpayload : PayloadOk s) (hwindow : WindowOk s) (hfull : 79 ≤ s.bitCnt.val)
    (b : Bool) (x : Position) {k : Nat} (hk : k < 2) :
    (bit s b x).frame[9 - k] = bitrev8 ((bit s b x).syncWord.extractLsb' (8 * k) 8) := by
  have hcounted : s.bitCnt ≠ 0 := Fin.ne_of_gt (Nat.lt_of_lt_of_le (by decide) hfull)
  have hsync : (bit s b x).syncWord = (taken s b x).syncWord := by
    rw [bit_syncWord, State.takeBit_syncWord, makeRoom_syncWord]
  have hbyte := (taken_windowOk_of_counted hpayload hwindow hcounted b x).frame_syncByte
    ((taken_full_iff s b x).mpr hfull) hk
  simp only [bit_frame, hsync, hbyte]

/-- Settles O41: the record is `forwardRecord`, and its sync bytes are the window's. -/
theorem forwardFramePublished : Obligations.ForwardFramePublished := by
  intro s b x hwf t hsync
  refine ⟨bit_bitCnt_of_sync (.inl hsync), fun hlt => bit_sameQueue_of_lt hlt b x, fun hfull =>
    ⟨forwardRecord s b x, bit_pushes_forward hwf hfull hsync, rfl, rfl, rfl, rfl, makeRecord_hist _ _ _ _ _, rfl, rfl,
      volume_eq .., fun hpayload hwindow hdefault => ?_⟩⟩
  have hbyte {k : Nat} (hk : k < 2) : t.frame[9 - k] = bitrev8 ((0x3FFD#16).extractLsb' (8 * k) 8) := by
    rw [← hdefault, ← hsync]
    exact bit_frame_syncByte hpayload hwindow hfull b x hk
  exact ⟨(hbyte (k := 1) (by decide)).trans (by decide), (hbyte (k := 0) (by decide)).trans (by decide)⟩

/-- The normalisation reverses the 64 data bits (R162). -/
theorem payloadBit_unreverse_data (f : Payload) {p : Fin 80} (hp : p.val < 64) :
    payloadBit (unreverse f) p = payloadBit f ⟨63 - p.val, by omega⟩ := by
  have hbit : p.val % 8 < 8 := Nat.mod_lt _ (by decide)
  have hbyte' : (63 - p.val) / 8 = 7 - p.val / 8 := by omega
  have hbit' : (63 - p.val) % 8 = 7 - p.val % 8 := by omega
  have hdata : p.val / 8 < 8 := by omega
  simp only [payloadBit, unreverse_getElem, if_pos hdata, bitrev8_getLsbD _ _ hbit, hbyte', hbit']

/-- The normalisation reverses each sync byte in place (R162). -/
theorem payloadBit_unreverse_sync (f : Payload) {p : Fin 80} {q : Nat} (hq : q < 80) (hp : 64 ≤ p.val)
    (hbyte' : q / 8 = p.val / 8) (hbit' : q % 8 = 7 - p.val % 8) :
    payloadBit (unreverse f) p = payloadBit f ⟨q, hq⟩ := by
  have hbit : p.val % 8 < 8 := Nat.mod_lt _ (by decide)
  have hsync : ¬ p.val / 8 < 8 := by omega
  simp only [payloadBit, unreverse_getElem, if_neg hsync, bitrev8_getLsbD _ _ hbit, hbyte', hbit']

/-- A sync byte is bit-reversed in place (R162). -/
theorem unreverse_syncByte (f : Payload) {k : Nat} (hk : k < 2) : (unreverse f)[9 - k] = bitrev8 f[9 - k] := by
  rw [unreverse_getElem, if_neg (by omega)]

theorem bitrev16_default : bitrev16 0x3FFD#16 = 0xBFFC#16 := by decide

/-- Settles O42: the record is `reverseRecord`, its payload the normalised register. -/
theorem reverseFramePublished : Obligations.ReverseFramePublished := by
  intro s b x hwf t hsync
  refine ⟨bit_bitCnt_of_sync (.inr hsync), fun hlt => bit_sameQueue_of_lt hlt b x, fun hfull =>
    ⟨reverseRecord s b x, bit_pushes_reverse hwf hfull hsync, fun p hp => payloadBit_unreverse_data _ hp,
      fun p hp hp' => payloadBit_unreverse_sync _ _ hp (by omega) (by omega),
      fun p hp => payloadBit_unreverse_sync _ _ (by omega) (by omega) (by omega),
      congrArg (t.frameStart - ·) (reverseShift_eq _), congrArg (x - 1#64 - ·) (reverseShift_eq _), reverseSpan_eq ..,
      makeRecord_hist _ _ _ _ _, rfl, rfl, volume_eq .., fun hpayload hwindow hdefault => ?_⟩⟩
  · have hbyte {k : Nat} (hk : k < 2) :
        (unreverse t.frame)[9 - k] = (0xBFFC#16).extractLsb' (8 * k) 8 := by
      rw [unreverse_syncByte _ hk, bit_frame_syncByte hpayload hwindow hfull b x hk, hsync, hdefault, bitrev16_default]
      exact BitVec.reverse_reverse_eq
    exact ⟨(hbyte (k := 1) (by decide)).trans (by decide), (hbyte (k := 0) (by decide)).trans (by decide)⟩

/-! ### Consecutive forward frames (R155) -/

theorem bitAll_cons (s : State) (e : Bool × Position) (bs : List (Bool × Position)) :
    bitAll s (e :: bs) = bitAll (bit s e.1 e.2) bs := rfl

theorem bitAll_cfg (s : State) (bs : List (Bool × Position)) : (bitAll s bs).cfg = s.cfg := by
  induction bs generalizing s with
  | nil => rfl
  | cons e bs ih => rw [bitAll_cons, ih, bit_cfg]

theorem bitAll_bitCnt_le (s : State) (bs : List (Bool × Position)) :
    (bitAll s bs).bitCnt.val ≤ s.bitCnt.val + bs.length := by
  induction bs generalizing s with
  | nil => exact Nat.le_refl _
  | cons e bs ih =>
    have hrest := ih (bit s e.1 e.2)
    have hbit := bit_bitCnt_le s e.1 e.2
    rw [bitAll_cons, List.length_cons]
    omega

/-- While every bit is counted, no bit starts a frame or slides the register. -/
theorem bitAll_frameStart_of_counted {s : State} {bs : List (Bool × Position)} (hpos : 0 < s.bitCnt.val)
    (hcounted : (bitAll s bs).bitCnt.val = s.bitCnt.val + bs.length) : (bitAll s bs).frameStart = s.frameStart := by
  induction bs generalizing s with
  | nil => rfl
  | cons e bs ih =>
    rw [bitAll_cons, List.length_cons] at hcounted
    have hrest := bitAll_bitCnt_le (bit s e.1 e.2) bs
    have hbit := bit_bitCnt_le s e.1 e.2
    have hrange := (bit s e.1 e.2).bitCnt.isLt
    rw [bitAll_cons, ih (by omega) (by omega), bit_frameStart_of_counted hpos (by omega)]

theorem bit_frameStart_of_empty {s : State} (hempty : s.bitCnt = 0) (hvalid : s.lastBitValid = true) (b : Bool)
    (y : Position) : (bit s b y).frameStart = s.lastBitPos := by
  rw [bit_frameStart_eq, if_pos hempty, if_pos hvalid]

/-- A frame whose bits were all counted starts at the position of the bit before it. -/
theorem bitAll_frameStart_of_empty {s : State} (hempty : s.bitCnt = 0) (hvalid : s.lastBitValid = true)
    {bs : List (Bool × Position)} (hne : bs ≠ []) (hcounted : (bitAll s bs).bitCnt.val = bs.length) :
    (bitAll s bs).frameStart = s.lastBitPos := by
  cases bs with
  | nil => exact absurd rfl hne
  | cons e bs =>
    rw [bitAll_cons, List.length_cons] at hcounted
    have hrest := bitAll_bitCnt_le (bit s e.1 e.2) bs
    have hbit := bit_bitCnt_le s e.1 e.2
    rw [hempty, Fin.val_zero] at hbit
    rw [bitAll_cons, bitAll_frameStart_of_counted (by omega) (by omega), bit_frameStart_of_empty hempty hvalid]

/-- Settles O43: the match leaves its position in `last_bit_pos` and the count at 0, so the next frame starts there, and
79 counted bits keep that start for the 80th. -/
theorem forwardFramesTile : Obligations.ForwardFramesTile := by
  intro s b b' x y hwf hfull hsync
  have hempty : (bit s b x).bitCnt = 0 := bit_bitCnt_of_sync (.inl hsync)
  have hvalid : (bit s b x).lastBitValid = true := bit_lastBitValid ..
  have hnext : (bit s b x).lastBitPos = x - 1#64 + 1#64 := by rw [bit_lastBitPos, BitVec.sub_add_cancel]
  refine ⟨forwardRecord s b x, bit_pushes_forward hwf hfull hsync, rfl, rfl, ?_, fun bs hlen => ?_⟩
  · exact (bit_frameStart_of_empty hempty hvalid b' y).trans hnext
  · intro u hcount hsync'
    have hcfg : u.cfg = s.cfg := (bitAll_cfg ..).trans (bit_cfg ..)
    have hne : bs ≠ [] := List.ne_nil_of_length_pos (by omega)
    have hstart : u.frameStart = x - 1#64 + 1#64 :=
      (bitAll_frameStart_of_empty hempty hvalid hne (hcount.trans hlen.symm)).trans hnext
    rw [← hcfg] at hwf hsync'
    exact ⟨forwardRecord u b' y, bit_pushes_forward hwf hcount.ge hsync', rfl,
      (bit_frameStart_of_counted (by omega) (by omega) b' y).trans hstart⟩

/-! ### One record per SAMPLE (R164) -/

/-- Settles O46: the second tick of an interval cannot find a full register after the first one published. -/
theorem oneRecordPerSample : Obligations.OneRecordPerSample := by
  intro s t v hok he ht
  obtain rfl := Host.Outcome.next.inj (ht.symm.trans (exec_sample_of_ok hok v))
  refine ⟨?_, fun hquiet => ?_, sample_bitCnt_le s v⟩
  · obtain hsame | ⟨-, -, -, hpush⟩ := sample_queue s v
    · exact .inl hsame
    · exact .inr hpush
  · obtain hsame | ⟨hsignal, -⟩ := sample_queue s v
    · exact hsame
    · exact absurd ((levelSignals_iff s v he).mp hsignal) hquiet

end Sys2Proof
end

section
/-! ## The frame queue (43_frame_queue.md R191 to R197)

The unread records are a list, oldest first (`Unread`): a push appends to it and drops the oldest from a full queue, a POP
takes its head. -/

namespace Sys2Proof

open Machine

/-! ### POP and PUSH (R191 to R193) -/

theorem exec_pop_of_empty {s : State} (hok : s.cfgOk = true) (hempty : s.qCount = 0#16) :
    exec .pop s = .next (s.respond .empty none) := by
  obtain ⟨-, -, he⟩ | ⟨-, hunread, -⟩ | ⟨-, hunread, -⟩ | ⟨hno, -⟩ := exec_pop_cases s
  · exact he
  · exact absurd hempty hunread
  · exact absurd hempty hunread
  · cases hok.symm.trans hno

theorem exec_pop_of_unread {s : State} {r : FrameRecord} (hok : s.cfgOk = true) (hunread : s.qCount ≠ 0#16)
    (hslot : s.slots.read s.qRd.toNat = some r) : exec .pop s = .next (s.dequeue.respond .ok (some r)) := by
  obtain ⟨-, hempty, -⟩ | ⟨-, -, r', hslot', he⟩ | ⟨-, -, hnone, -⟩ | ⟨hno, -⟩ := exec_pop_cases s
  · exact absurd hempty hunread
  · cases hslot.symm.trans hslot'
    exact he
  · cases hslot.symm.trans hnone
  · cases hok.symm.trans hno

theorem qCount_eq_zero_iff (s : State) : s.qCount = 0#16 ↔ s.qCount.toNat = 0 := BitVec.toNat_inj.symm

/-- A count that is not 0 falls by 1 without a borrow. -/
theorem dequeue_qCount_eq {s : State} (hunread : s.qCount ≠ 0#16) :
    s.dequeue.qCount = BitVec.ofNat 16 (s.qCount.toNat - 1) := by
  rw [Ne, qCount_eq_zero_iff] at hunread
  rw [State.dequeue_qCount]
  bv_omega

/-- Settles O19: the ends of POP that the machine goes on from, with the updates written out. -/
theorem popCommand : Obligations.PopCommand := by
  intro s
  refine ⟨fun hno => ?_, exec_pop_of_empty, fun r hok hunread hslot => ?_⟩
  · obtain ⟨-, -, hrefused⟩ := unconfiguredCommandsRefused s hno
    exact hrefused
  · rw [exec_pop_of_unread hok hunread hslot, ← dequeue_qCount_eq hunread]
    rfl

/-- A push into a queue that is not full counts the record without a carry. -/
theorem enqueue_qCount_toNat_of_lt {s : State} (h : s.qCount.toNat < s.qCap.toNat) (r : FrameRecord) :
    (s.enqueue r).qCount.toNat = s.qCount.toNat + 1 := by
  have hcap := s.qCap.isLt
  rw [State.enqueue_qCount, if_neg (fun hfull => absurd (congrArg BitVec.toNat hfull) h.ne)]
  bv_omega

/-- Settles O44: in a full queue the ring closes, so that `q_wr` stands at the oldest unread record. -/
theorem pushQueue : Obligations.PushQueue := by
  intro s r hq t
  refine ⟨Memory.read_write_same .., fun a ha => Memory.read_write_other _ ha r, nextSlot_toNat _ _ hq.cap_pos,
    fun hlt => ⟨enqueue_qCount_toNat_of_lt hlt r, ?_⟩, fun hfull => ⟨?_, ?_, ?_⟩, rfl⟩
  · exact if_neg fun hfull => absurd (congrArg BitVec.toNat hfull) hlt.ne
  · apply BitVec.eq_of_toNat_eq
    rw [hq.ring, hfull, Nat.add_mod_right, Nat.mod_eq_of_lt hq.rd]
  · exact (if_pos hfull).trans hfull
  · rw [State.enqueue_qRd, if_pos hfull, nextSlot_toNat _ _ hq.cap_pos]

/-! ### The unread records (R194) -/

/-- The records `rs` are unread, the oldest first. -/
structure Unread (s : State) (rs : List FrameRecord) : Prop where
  count : s.qCount.toNat = rs.length
  slot : ∀ k < rs.length, s.slots.read ((s.qRd.toNat + k) % s.qCap.toNat) = rs[k]?

/-- Places of the ring less than a lap apart are one slot only if they are the same. -/
theorem eq_of_add_mod_eq {a j n c : Nat} (hle : j ≤ n) (hlap : n - j < c) (h : (a + j) % c = (a + n) % c) : j = n := by
  have hdvd : c ∣ n - j := (Nat.modEq_iff_dvd' hle).mp (Nat.ModEq.add_left_cancel' a h)
  have hzero := Nat.eq_zero_of_dvd_of_lt hdvd hlap
  omega

/-- After a push the place behind the unread records holds the new one, and the places less than a lap before it hold what
they held. -/
theorem Unread.read_enqueue {s : State} {rs : List FrameRecord} (h : Unread s rs) (hq : QueueOk s) (r : FrameRecord)
    {j : Nat} (hj : j ≤ rs.length) (hlap : rs.length - j < s.qCap.toNat) :
    (s.enqueue r).slots.read ((s.qRd.toNat + j) % s.qCap.toNat) = (rs ++ [r])[j]? := by
  have hring : s.qWr.toNat = (s.qRd.toNat + rs.length) % s.qCap.toNat := by rw [hq.ring, h.count]
  obtain ⟨hnew, hother, -⟩ := pushQueue s r hq
  obtain hlt | rfl := hj.lt_or_eq
  · have hne : (s.qRd.toNat + j) % s.qCap.toNat ≠ s.qWr.toNat := fun he =>
      hlt.ne (eq_of_add_mod_eq hj hlap (he.trans hring))
    rw [hother _ hne, h.slot j hlt, List.getElem?_append_left hlt]
  · rw [← hring, hnew, List.getElem?_concat_length]

/-- A push appends its record, and drops the oldest where the queue was full (R191, R193). -/
theorem Unread.enqueue {s : State} {rs : List FrameRecord} (h : Unread s rs) (hq : QueueOk s) (r : FrameRecord) :
    Unread (s.enqueue r) ((rs ++ [r]).drop (rs.length + 1 - s.qCap.toNat)) := by
  have hcount := h.count
  have hle := hq.count
  have hpos := hq.cap_pos
  have hmoved : (s.enqueue r).qCount.toNat = rs.length + 1 - (rs.length + 1 - s.qCap.toNat) ∧
      (s.enqueue r).qRd.toNat = (s.qRd.toNat + (rs.length + 1 - s.qCap.toNat)) % s.qCap.toNat := by
    obtain ⟨-, -, -, hnotFull, hfull, -⟩ := pushQueue s r hq
    obtain hlt | heq := hle.lt_or_eq
    · obtain ⟨hgrows, hkept⟩ := hnotFull hlt
      have hdrop : rs.length + 1 - s.qCap.toNat = 0 := by omega
      rw [hgrows, hkept, hcount, hdrop]
      exact ⟨rfl, (Nat.mod_eq_of_lt hq.rd).symm⟩
    · obtain ⟨-, hstays, hmoves⟩ := hfull (BitVec.eq_of_toNat_eq heq)
      have hdrop : rs.length + 1 - s.qCap.toNat = 1 := by omega
      rw [hstays, hmoves, hdrop]
      exact ⟨by omega, rfl⟩
  obtain ⟨hcount', hrd⟩ := hmoved
  constructor
  · rw [hcount', List.length_drop, List.length_append, List.length_singleton]
  · intro k hk
    rw [List.length_drop, List.length_append, List.length_singleton] at hk
    rw [State.enqueue_qCap, hrd, Nat.mod_add_mod, Nat.add_assoc, List.getElem?_drop]
    exact h.read_enqueue hq r (by omega) (by omega)

theorem Unread.dequeue {s : State} {r : FrameRecord} {rs : List FrameRecord} (h : Unread s (r :: rs))
    (hpos : 1 ≤ s.qCap.toNat) : Unread s.dequeue rs := by
  have hcount := h.count
  rw [List.length_cons] at hcount
  constructor
  · rw [State.dequeue_qCount]
    bv_omega
  · intro k hk
    rw [State.dequeue_slots, State.dequeue_qRd, State.dequeue_qCap, nextSlot_toNat _ _ hpos, Nat.mod_add_mod,
      Nat.add_assoc, Nat.add_comm 1 k, h.slot (k + 1) (Nat.succ_lt_succ hk), List.getElem?_cons_succ]

theorem Unread.read_rd {s : State} {r : FrameRecord} {rs : List FrameRecord} (h : Unread s (r :: rs)) (hq : QueueOk s) :
    s.slots.read s.qRd.toNat = some r := by
  have hslot := h.slot 0 (Nat.zero_lt_succ _)
  rwa [Nat.add_zero, Nat.mod_eq_of_lt hq.rd] at hslot

/-! ### Any sequence of pushes, and the drain (R194) -/

theorem enqueueAll_concat (s : State) (rs : List FrameRecord) (r : FrameRecord) :
    enqueueAll s (rs ++ [r]) = (enqueueAll s rs).enqueue r := List.foldl_concat ..

theorem enqueueAll_qCap (s : State) (rs : List FrameRecord) : (enqueueAll s rs).qCap = s.qCap := by
  induction rs using List.reverseRecOn with
  | nil => rfl
  | append_singleton rs r ih => rw [enqueueAll_concat, State.enqueue_qCap, ih]

theorem enqueueAll_cfgOk (s : State) (rs : List FrameRecord) : (enqueueAll s rs).cfgOk = s.cfgOk := by
  induction rs using List.reverseRecOn with
  | nil => rfl
  | append_singleton rs r ih => rw [enqueueAll_concat, State.enqueue_cfgOk, ih]

theorem enqueueAll_queueOk {s : State} (h : QueueOk s) (rs : List FrameRecord) : QueueOk (enqueueAll s rs) := by
  induction rs using List.reverseRecOn with
  | nil => exact h
  | append_singleton rs r ih =>
    rw [enqueueAll_concat]
    exact enqueue_queueOk _ r ih

theorem enqueueAll_qWr {s : State} (h : QueueOk s) (rs : List FrameRecord) :
    (enqueueAll s rs).qWr.toNat = (s.qWr.toNat + rs.length) % s.qCap.toNat := by
  induction rs using List.reverseRecOn with
  | nil => exact (Nat.mod_eq_of_lt h.wr).symm
  | append_singleton rs r ih =>
    rw [enqueueAll_concat, State.enqueue_qWr, enqueueAll_qCap, nextSlot_toNat _ _ h.cap_pos, ih, Nat.mod_add_mod,
      List.length_append, List.length_singleton, Nat.add_assoc]

/-- The most recent `q_cap` pushes are unread. -/
theorem enqueueAll_unread {s : State} (h : QueueOk s) (hempty : s.qCount = 0#16) (rs : List FrameRecord) :
    Unread (enqueueAll s rs) (rs.drop (rs.length - s.qCap.toNat)) := by
  have hpos := h.cap_pos
  induction rs using List.reverseRecOn with
  | nil =>
    rw [List.drop_nil]
    exact ⟨(qCount_eq_zero_iff s).mp hempty, fun k hk => absurd hk (Nat.not_lt_zero k)⟩
  | append_singleton rs r ih =>
    have hpush := ih.enqueue (enqueueAll_queueOk h rs) r
    rw [← List.drop_append_of_le_length (Nat.sub_le ..), List.drop_drop, List.length_drop, enqueueAll_qCap] at hpush
    have hdrop : rs.length - s.qCap.toNat + (rs.length - (rs.length - s.qCap.toNat) + 1 - s.qCap.toNat) =
        (rs ++ [r]).length - s.qCap.toNat := by
      rw [List.length_append, List.length_singleton]
      omega
    rwa [enqueueAll_concat, ← hdrop]

/-- The ring fixes `q_rd` from `q_wr` and `q_count` (R45(d)). -/
theorem QueueOk.qRd_eq {t : State} (h : QueueOk t) {w m : Nat} (hwr : t.qWr.toNat = (w + m) % t.qCap.toNat)
    (hle : t.qCount.toNat ≤ m) : t.qRd.toNat = (w + (m - t.qCount.toNat)) % t.qCap.toNat := by
  have hback : w + m = w + (m - t.qCount.toNat) + t.qCount.toNat := by omega
  have hlap : t.qRd.toNat + t.qCount.toNat ≡ w + (m - t.qCount.toNat) + t.qCount.toNat [MOD t.qCap.toNat] := by
    rw [Nat.ModEq, ← h.ring, hwr, hback]
  rw [← Nat.mod_eq_of_lt h.rd]
  exact Nat.ModEq.add_right_cancel' _ hlap

theorem popMany_of_pop {s t : State} {r : FrameRecord} (hpop : exec .pop s = .next t) (hrsp : t.rsp = some ⟨.ok, some r⟩)
    (n : Nat) : popMany (n + 1) s = (popMany n t).map fun x => (r :: x.1, x.2) := by
  simp only [popMany, hpop, hrsp]

/-- POPs return the unread records, the oldest first, and leave the queue empty. -/
theorem Unread.popMany {s : State} {rs : List FrameRecord} (h : Unread s rs) (hok : s.cfgOk = true) (hq : QueueOk s) :
    ∃ u, popMany rs.length s = some (rs, u) ∧ u.cfgOk = true ∧ u.qCount = 0#16 := by
  induction rs generalizing s with
  | nil => exact ⟨s, rfl, hok, (qCount_eq_zero_iff s).mpr h.count⟩
  | cons r rs ih =>
    have hunread : s.qCount ≠ 0#16 := by
      rw [Ne, qCount_eq_zero_iff, h.count]
      exact Nat.succ_ne_zero _
    have hrest : Unread (s.dequeue.respond .ok (some r)) rs := ⟨(h.dequeue hq.cap_pos).count, (h.dequeue hq.cap_pos).slot⟩
    obtain ⟨u, hu, huok, huempty⟩ := ih hrest hok ((dequeue_queueOk s hq hunread).congr (SameQueue.refl _) rfl rfl)
    refine ⟨u, ?_, huok, huempty⟩
    rw [List.length_cons, popMany_of_pop (exec_pop_of_unread hok hunread (h.read_rd hq)) rfl, hu, Option.map_some]

/-- Settles O45: the pushes leave the most recent `q_cap` of their records unread. -/
theorem queueWraparound : Obligations.QueueWraparound := by
  intro s rs hok hq hempty t n
  have hlast : rs.length - n = rs.length - s.qCap.toNat := by omega
  have hqt : QueueOk t := enqueueAll_queueOk hq rs
  have hcap : t.qCap = s.qCap := enqueueAll_qCap s rs
  have hunread : Unread t (rs.drop (rs.length - n)) := hlast ▸ enqueueAll_unread hq hempty rs
  have hlen : (rs.drop (rs.length - n)).length = n := by
    rw [List.length_drop]
    omega
  have hcount : t.qCount.toNat = n := hunread.count.trans hlen
  have hwr : t.qWr.toNat = (s.qWr.toNat + rs.length) % s.qCap.toNat := enqueueAll_qWr hq rs
  refine ⟨hcount, hwr, ?_, ?_⟩
  · rw [← hcap] at hwr
    have hrd := hqt.qRd_eq hwr (hcount ▸ Nat.min_le_left ..)
    rwa [hcount, hcap] at hrd
  · obtain ⟨u, hu, huok, huempty⟩ := hunread.popMany ((enqueueAll_cfgOk s rs).trans hok) hqt
    rw [hlen] at hu
    exact ⟨u, hu, exec_pop_of_empty huok huempty⟩

/-! ### Publications are spaced (R197) -/

/-- In lock with the level, a sample raises `pendingBits` by at most one and stays in lock (R152, R153, R165). -/
theorem processSample_pendingBits {s : State} (h : s.level ≠ s.biphasePrev) (v : Sample) :
    (processSample s v).level ≠ (processSample s v).biphasePrev ∧
      pendingBits (processSample s v) ≤ pendingBits s + 1 := by
  cases hl : levelSignals s v with
  | false =>
    rw [processSample_quiet hl]
    exact ⟨h, Nat.le_succ _⟩
  | true =>
    rw [processSample_change hl]
    exact ⟨edge_toggled (s.trackEnvelope v), edge_pendingBits (s.trackEnvelope v) h⟩

theorem bitCnt_le_pendingBits (s : State) : s.bitCnt.val ≤ pendingBits s := Nat.le_add_right ..

/-- In lock with the level, samples leave the queue alone as long as their number cannot fill the register. -/
theorem processAll_sameQueue {s : State} (h : s.level ≠ s.biphasePrev) {vs : List Sample}
    (hfew : pendingBits s + vs.length ≤ 78) : SameQueue s (processAll s vs) := by
  induction vs generalizing s with
  | nil => exact SameQueue.refl s
  | cons v vs ih =>
    rw [List.length_cons] at hfew
    obtain ⟨hlock, hpending⟩ := processSample_pendingBits h v
    have hkept : SameQueue s (processSample s v) := by
      obtain hsame | ⟨-, hfull, -⟩ := sample_queue s v
      · exact hsame
      · have hle := bitCnt_le_pendingBits s
        omega
    exact hkept.trans (ih hlock (by omega))

/-- Settles O48: a publication comes with a change, which puts `biphase_prev` in lock with the level, and leaves at most
one bit counted. -/
theorem publicationsAreSpaced : Obligations.PublicationsAreSpaced := by
  intro s v vs hpublished hfew
  obtain hsame | ⟨hsignal, -, hfewBits, -⟩ := sample_queue s v
  · exact absurd hsame hpublished
  · have hlock : (processSample s v).level ≠ (processSample s v).biphasePrev := by
      rw [processSample_change hsignal]
      exact edge_toggled (s.trackEnvelope v)
    have hpending : pendingBits (processSample s v) ≤ (processSample s v).bitCnt.val + 1 := by
      unfold pendingBits
      split <;> omega
    exact processAll_sameQueue hlock (by omega)

/-! ### The level outputs (R196, R262) -/

theorem frameAvail_iff (s : State) : s.frameAvail = true ↔ s.cfgOk = true ∧ s.qCount ≠ 0#16 := by
  rw [State.frameAvail, Bool.and_eq_true, decide_eq_true_eq]

theorem frameAvail_eq_false_iff (s : State) : s.frameAvail = false ↔ s.cfgOk = true → s.qCount = 0#16 := by
  rw [← Bool.not_eq_true, frameAvail_iff, not_and_not_right]

/-- A push leaves a record to read (R191). -/
theorem enqueue_qCount_ne_zero {s : State} (h : QueueOk s) (r : FrameRecord) : (s.enqueue r).qCount ≠ 0#16 := by
  have hpos := h.cap_pos
  obtain ⟨-, -, -, hnotFull, hfull, -⟩ := pushQueue s r h
  rw [Ne, qCount_eq_zero_iff]
  obtain hlt | heq := h.count.lt_or_eq
  · obtain ⟨hgrows, -⟩ := hnotFull hlt
    omega
  · obtain ⟨-, hstays, -⟩ := hfull (BitVec.eq_of_toNat_eq heq)
    rw [hstays]
    omega

/-- What a command other than INIT does to `q_count`: only SAMPLE and POP move it, and what SAMPLE pushes is unread. -/
theorem exec_qCount {i : Instr} {s t : State} (hi : ∀ seed cap, i ≠ .init seed cap) (hq : s.cfgOk = true → QueueOk s)
    (h : exec i s = .next t) :
    t.qCount = s.qCount ∨ ((∃ v, i = .sample v) ∧ t.qCount ≠ 0#16) ∨
      (i = .pop ∧ s.qCount ≠ 0#16 ∧ t.qCount = s.qCount - 1#16) := by
  have kept {u : State} {st : Status} {r : Option FrameRecord} (he : exec i s = .next (u.respond st r))
      (hu : u.qCount = s.qCount) : t.qCount = s.qCount := by
    obtain rfl := Host.Outcome.next.inj (h.symm.trans he)
    exact hu
  obtain ⟨seed, cap, rfl⟩ | ⟨p, rfl⟩ | ⟨v, rfl⟩ | rfl | ⟨-, -, -, -, he, -⟩ := exec_cases i s
  · exact absurd rfl (hi seed cap)
  · obtain ⟨-, he⟩ | ⟨-, he⟩ := exec_setpos_cases p s
    all_goals exact .inl (kept he rfl)
  · obtain ⟨hok, he⟩ | ⟨-, he⟩ := exec_sample_cases v s
    · obtain ⟨-, -, hcount, -⟩ | ⟨-, -, -, r, -, -, hcount, -⟩ := sample_queue s v
      · exact .inl (kept he hcount)
      · obtain rfl := Host.Outcome.next.inj (h.symm.trans he)
        refine .inr (.inl ⟨⟨v, rfl⟩, ?_⟩)
        rw [State.respond_qCount, hcount]
        exact enqueue_qCount_ne_zero (hq hok) r
    · exact .inl (kept he rfl)
  · obtain ⟨-, -, he⟩ | ⟨-, hunread, r, -, he⟩ | ⟨-, -, -, he⟩ | ⟨-, he⟩ := exec_pop_cases s
    · exact .inl (kept he rfl)
    · obtain rfl := Host.Outcome.next.inj (h.symm.trans he)
      exact .inr (.inr ⟨rfl, hunread, rfl⟩)
    · cases h.symm.trans he
    · exact .inl (kept he rfl)
  · exact .inl (kept he rfl)

/-- What a step does to the registers behind the three level outputs (R262). -/
inductive OutputStep (s t : State) : Prop
  | hardReset (h : TakesHardReset s) (hok : t.cfgOk = false) (herr : t.cfgErr = false)
  | init (h : ∃ seed cap, Accepts s (.init seed cap) ∧ t.rsp = some ⟨.ok, none⟩) (hok : t.cfgOk = true)
      (herr : t.cfgErr = false) (hcount : t.qCount = 0#16)
  | failedInit (h : ∃ seed cap, Accepts s (.init seed cap) ∧ t.rsp = some ⟨.configError, none⟩) (hok : t.cfgOk = false)
      (herr : t.cfgErr = true)
  | other (hok : t.cfgOk = s.cfgOk) (herr : t.cfgErr = s.cfgErr)
      (hcount : t.qCount = s.qCount ∨ ((∃ v, Accepts s (.sample v)) ∧ t.qCount ≠ 0#16) ∨
        (Accepts s .pop ∧ s.qCount ≠ 0#16 ∧ t.qCount = s.qCount - 1#16))

theorem step_outputs {s t : State} (h : Invariant s) (ht : step s = .next t) : OutputStep s t := by
  obtain ⟨-, he⟩ | ⟨-, -, he⟩ | ⟨-, rest, hin, he⟩ | ⟨-, w, rest, hin, hword⟩ := step_cases s
  · cases ht.symm.trans he
  · obtain rfl := Host.Outcome.next.inj (ht.symm.trans he)
    exact .other rfl rfl (.inl rfl)
  · obtain rfl := Host.Outcome.next.inj (ht.symm.trans he)
    exact .hardReset ⟨rest, hin⟩ rfl rfl
  · obtain ⟨i, hdec, he⟩ | ⟨-, -, he⟩ := hword
    · have haccepts : Accepts s i := ⟨w, rest, hin, hdec⟩
      have hexec : exec i (s.withInputs rest) = .next t := he.symm.trans ht
      by_cases hi : ∃ seed cap, i = .init seed cap
      · obtain ⟨seed, cap, rfl⟩ := hi
        obtain ⟨-, rfl⟩ | rfl := exec_init_next hexec
        · exact .init ⟨seed, cap, haccepts, rfl⟩ rfl rfl rfl
        · exact .failedInit ⟨seed, cap, haccepts, rfl⟩ rfl rfl
      · have hother : ∀ seed cap, i ≠ .init seed cap := fun seed cap e => hi ⟨seed, cap, e⟩
        obtain ⟨-, hok, herr, -⟩ := exec_sameConfiguration hother hexec
        refine .other hok herr ?_
        obtain hkept | ⟨⟨v, rfl⟩, hunread⟩ | ⟨rfl, hfell⟩ :=
          exec_qCount hother (h.withPort rest s.rsp).queue hexec
        · exact .inl hkept
        · exact .inr (.inl ⟨⟨v, haccepts⟩, hunread⟩)
        · exact .inr (.inr ⟨haccepts, hfell⟩)
    · obtain rfl := Host.Outcome.next.inj (ht.symm.trans he)
      exact .other rfl rfl (.inl rfl)

section
variable {s t : State} (h : OutputStep s t)
include h

theorem OutputStep.cfgOk_rises (hs : s.cfgOk = false) (ht : t.cfgOk = true) :
    ∃ seed cap, Accepts s (.init seed cap) ∧ t.rsp = some ⟨.ok, none⟩ := by
  cases h with
  | init hinit _ _ _ => exact hinit
  | hardReset _ hok _ | failedInit _ hok _ => cases ht.symm.trans hok
  | other hok _ _ => cases ht.symm.trans (hok.trans hs)

theorem OutputStep.cfgOk_falls (hs : s.cfgOk = true) (ht : t.cfgOk = false) :
    (∃ seed cap, Accepts s (.init seed cap) ∧ t.rsp = some ⟨.configError, none⟩) ∨ TakesHardReset s := by
  cases h with
  | hardReset hreset _ _ => exact .inr hreset
  | failedInit hinit _ _ => exact .inl hinit
  | init _ hok _ _ => cases ht.symm.trans hok
  | other hok _ _ => cases ht.symm.trans (hok.trans hs)

theorem OutputStep.cfgErr_rises (hs : s.cfgErr = false) (ht : t.cfgErr = true) :
    ∃ seed cap, Accepts s (.init seed cap) ∧ t.rsp = some ⟨.configError, none⟩ := by
  cases h with
  | failedInit hinit _ _ => exact hinit
  | hardReset _ _ herr | init _ _ herr _ => cases ht.symm.trans herr
  | other _ herr _ => cases ht.symm.trans (herr.trans hs)

theorem OutputStep.cfgErr_falls (hs : s.cfgErr = true) (ht : t.cfgErr = false) :
    (∃ seed cap, Accepts s (.init seed cap) ∧ t.rsp = some ⟨.ok, none⟩) ∨ TakesHardReset s := by
  cases h with
  | hardReset hreset _ _ => exact .inr hreset
  | init hinit _ _ _ => exact .inl hinit
  | failedInit _ _ herr => cases ht.symm.trans herr
  | other _ herr _ => cases ht.symm.trans (herr.trans hs)

theorem OutputStep.frameAvail_rises (hs : s.frameAvail = false) (ht : t.frameAvail = true) :
    ∃ v, Accepts s (.sample v) := by
  rw [frameAvail_eq_false_iff] at hs
  obtain ⟨hok', hunread⟩ := (frameAvail_iff t).mp ht
  cases h with
  | hardReset _ hok _ | failedInit _ hok _ => cases hok'.symm.trans hok
  | init _ _ _ hcount => exact absurd hcount hunread
  | other hok _ hcount =>
    have hempty : s.qCount = 0#16 := hs (hok.symm.trans hok')
    obtain hkept | ⟨hsample, -⟩ | ⟨-, hunread', -⟩ := hcount
    · exact absurd (hkept.trans hempty) hunread
    · exact hsample
    · exact absurd hempty hunread'

theorem OutputStep.frameAvail_falls (hs : s.frameAvail = true) (ht : t.frameAvail = false) :
    (Accepts s .pop ∧ s.qCount = 1#16) ∨ (∃ seed cap, Accepts s (.init seed cap)) ∨ TakesHardReset s := by
  obtain ⟨hok', hunread⟩ := (frameAvail_iff s).mp hs
  rw [frameAvail_eq_false_iff] at ht
  cases h with
  | hardReset hreset _ _ => exact .inr (.inr hreset)
  | init hinit _ _ _ | failedInit hinit _ _ =>
    obtain ⟨seed, cap, haccepts, -⟩ := hinit
    exact .inr (.inl ⟨seed, cap, haccepts⟩)
  | other hok _ hcount =>
    have hempty : t.qCount = 0#16 := ht (hok.trans hok')
    obtain hkept | ⟨-, hunread'⟩ | ⟨hpop, -, hfell⟩ := hcount
    · exact absurd (hkept.symm.trans hempty) hunread
    · exact absurd hempty hunread'
    · exact .inl ⟨hpop, BitVec.sub_eq_iff_eq_add.mp (hfell.symm.trans hempty)⟩

end

/-- Settles O24: each clause is read off `OutputStep`. -/
theorem outputCauses : Obligations.OutputCauses := by
  intro s t h ht
  have hstep := step_outputs h ht
  exact ⟨frameAvail_iff t, hstep.frameAvail_rises, hstep.frameAvail_falls, hstep.cfgOk_rises, hstep.cfgOk_falls,
    hstep.cfgErr_rises, hstep.cfgErr_falls⟩

end Sys2Proof
end

section
/-! ## Positions and POP stay out of the decoding (44_host_commands.md R217)

What a sample decides, it decides from the decoding registers alone (`processSample_view`). So two blocks that agree on
those push alike: neither pushes, or both push one record that differs at most in its positions (`bit_pushes_alike`). A
relation between the positions and the queues of two blocks is then kept by every sample when BIT, the end of SAMPLE and
whatever leaves positions and queue alone keep it (`KeptByStages`). R217 speaks of two such relations: `SameRecording` for
POP, `SameUnplacedQueue` for positions. -/

namespace Sys2Proof

open Machine

/-! ### What BIT pushes in two blocks with the same decoding registers -/

/-- The record of the bit `b` at `x` with both its positions moved back by `shift`: what R158 and R159 have in common. -/
def shiftedRecord (s : State) (b : Bool) (x : Position) (f : Payload) (shift : Position) (reverse : BitVec 64) :
    FrameRecord :=
  s.makeRecord f ((bit s b x).frameStart - shift) (x - 1#64 - shift) reverse

theorem forwardRecord_eq_shifted (s : State) (b : Bool) (x : Position) :
    forwardRecord s b x = shiftedRecord s b x (bit s b x).frame 0#64 0#64 := by
  rw [forwardRecord, shiftedRecord, BitVec.sub_zero, BitVec.sub_zero]

theorem reverseRecord_eq_shifted (s : State) (b : Bool) (x : Position) :
    reverseRecord s b x =
      shiftedRecord s b x (unreverse (bit s b x).frame) (reverseShift s.period) (reverseSpan s.cfg s.period) := (rfl)

/-- After a forward match the count is cleared, so the reverse test publishes nothing, whatever the patterns are. -/
theorem finishReverse_sameQueue {s : State} (h : s.bitCnt ≠ 80) (x : Position) : SameQueue s (finishReverse s x) := by
  rw [finishReverse, if_neg h]
  split <;> exact SameQueue.refl s

/-- `bit_pushes_forward` without R11's condition on the patterns. -/
theorem bit_sameQueue_forward {s : State} {b : Bool} (hfull : 79 ≤ s.bitCnt.val)
    (h : shiftIn s.syncWord b = s.cfg.syncFwd) (x : Position) :
    SameQueue (s.enqueue (forwardRecord s b x)) (bit s b x) := by
  have hmatch : syncForward (taken s b x).cfg (taken s b x).syncWord = true := by simp [syncForward, h]
  have hforward : finishForward (taken s b x) x = ((taken s b x).enqueue (forwardRecord s b x)).clearBitCnt := by
    rw [finishForward, if_pos hmatch, if_pos ((taken_full_iff s b x).mpr hfull), publishForward_taken]
  have hcleared : (finishForward (taken s b x) x).bitCnt ≠ 80 := by
    rw [hforward, State.clearBitCnt_bitCnt]
    decide
  have hreverse : SameQueue (finishForward (taken s b x) x) (bit s b x) := finishReverse_sameQueue hcleared x
  rw [hforward] at hreverse
  exact (enqueue_taken_sameQueue s b x _).trans hreverse

/-- `bit_pushes_reverse` without R11's condition on the patterns: what is no forward match keeps them apart. -/
theorem bit_sameQueue_reverse {s : State} {b : Bool} (hfull : 79 ≤ s.bitCnt.val)
    (hno : shiftIn s.syncWord b ≠ s.cfg.syncFwd) (h : shiftIn s.syncWord b = s.cfg.syncRev) (x : Position) :
    SameQueue (s.enqueue (reverseRecord s b x)) (bit s b x) := by
  rw [bit_eq_reverse s b x h (h ▸ hno), if_pos ((taken_full_iff s b x).mpr hfull), publishReverse_taken]
  exact enqueue_taken_sameQueue s b x _

theorem bit_pushes_alike {s t : State} (hview : decodeView s = decodeView t) (b : Bool) (x y : Position) :
    (SameQueue s (bit s b x) ∧ SameQueue t (bit t b y)) ∨
    ∃ f shift reverse, SameQueue (s.enqueue (shiftedRecord s b x f shift reverse)) (bit s b x) ∧
      SameQueue (t.enqueue (shiftedRecord t b y f shift reverse)) (bit t b y) := by
  have hcfg : s.cfg = t.cfg := congrArg DecodeView.cfg hview
  have hcount : s.bitCnt = t.bitCnt := congrArg DecodeView.bitCnt hview
  have hword : s.syncWord = t.syncWord := congrArg DecodeView.syncWord hview
  have hperiod : s.period = t.period := congrArg DecodeView.period hview
  have hframe : (bit s b x).frame = (bit t b y).frame := congrArg DecodeView.frame (bit_view hview b x y)
  obtain hlt | hfull := Nat.lt_or_ge s.bitCnt.val 79
  · exact .inl ⟨bit_sameQueue_of_lt hlt b x, bit_sameQueue_of_lt (hcount ▸ hlt) b y⟩
  by_cases hf : shiftIn s.syncWord b = s.cfg.syncFwd
  · have hs := bit_sameQueue_forward hfull hf x
    have ht := bit_sameQueue_forward (hcount ▸ hfull) (hword ▸ hcfg ▸ hf) y
    rw [forwardRecord_eq_shifted] at hs ht
    exact .inr ⟨_, _, _, hs, hframe ▸ ht⟩
  by_cases hr : shiftIn s.syncWord b = s.cfg.syncRev
  · have hs := bit_sameQueue_reverse hfull hf hr x
    have ht := bit_sameQueue_reverse (hcount ▸ hfull) (hword ▸ hcfg ▸ hf) (hword ▸ hcfg ▸ hr) y
    rw [reverseRecord_eq_shifted] at hs ht
    rw [← hframe, ← hperiod, ← hcfg] at ht
    exact .inr ⟨_, _, _, hs, ht⟩
  · have hs : ¬ Syncs s b x := by
      rw [Syncs, bit_syncWord]
      exact not_or.mpr ⟨hf, hr⟩
    have ht : ¬ Syncs t b y := by
      rw [Syncs, bit_syncWord, ← hword, ← hcfg]
      exact not_or.mpr ⟨hf, hr⟩
    exact .inl ⟨bit_sameQueue_of_not_sync hs, bit_sameQueue_of_not_sync ht⟩

/-- PUSH attaches the ring and the envelope, which are decoding registers (R191). -/
theorem makeRecord_view {s t : State} (hview : decodeView s = decodeView t) (f : Payload) (a e : Position)
    (r : BitVec 64) : s.makeRecord f a e r = t.makeRecord f a e r := by
  have hmin : s.envMin = t.envMin := congrArg DecodeView.envMin hview
  have hmax : s.envMax = t.envMax := congrArg DecodeView.envMax hview
  have htic : s.tic = t.tic := congrArg DecodeView.tic hview
  have htics : s.tics = t.tics := congrArg DecodeView.tics hview
  simp only [State.makeRecord, hmin, hmax, htic, htics]

theorem makeRecord_unplaced (s : State) (f : Payload) (a e : Position) (r : BitVec 64) :
    (s.makeRecord f a e r).unplaced = s.makeRecord f 0#64 0#64 r := (rfl)

/-! ### The relations that every sample keeps -/

/-- The positions and the queue are the same (R37 to R43). -/
structure Unmoved (s t : State) : Prop where
  frameStart : t.frameStart = s.frameStart
  lastBitPos : t.lastBitPos = s.lastBitPos
  pos : t.pos = s.pos
  queue : SameQueue s t

/-- A relation between the positions and the queues of two blocks with the same decoding registers that the stages of
SAMPLE keep (R213): a bit, the end of the sample, and whatever leaves positions and queue alone. -/
structure KeptByStages (Q : State → State → Prop) : Prop where
  of_unmoved {s t s' t' : State} : Q s t → Unmoved s s' → Unmoved t t' → Q s' t'
  of_bit {s t : State} : decodeView s = decodeView t → Q s t → ∀ (b : Bool) (n : Nat) (short : Bool),
    Q (bit s b (tickPosition s.pos n s.period short)) (bit t b (tickPosition t.pos n t.period short))
  of_endSample {s t : State} : Q s t → Q s.endSample t.endSample

section
variable {Q : State → State → Prop} (hQ : KeptByStages Q) {s t : State} (hview : decodeView s = decodeView t)
include hQ hview

theorem KeptByStages.of_tick (h : Q s t) (n : Nat) (short : Bool) : Q (tick s n short) (tick t n short) := by
  have hlevel : s.level = t.level := congrArg DecodeView.level hview
  have hprev : s.biphasePrev = t.biphasePrev := congrArg DecodeView.biphasePrev hview
  have hstate : s.biphaseState = t.biphaseState := congrArg DecodeView.biphaseState hview
  obtain ⟨⟨p, d⟩, hs⟩ : ∃ row, parityStep s.level s.biphasePrev s.biphaseState = row := ⟨_, rfl⟩
  have ht := hs
  rw [hlevel, hprev, hstate] at ht
  cases d with
  | none =>
    rw [tick_of_no_bit hs, tick_of_no_bit ht]
    exact hQ.of_unmoved h ⟨rfl, rfl, rfl, SameQueue.refl s⟩ ⟨rfl, rfl, rfl, SameQueue.refl t⟩
  | some b =>
    obtain ⟨-, hring, -⟩ := simple_view hview
    obtain ⟨-, -, hparity, -⟩ := simple_view hring
    have hset : Q (s.ringWrite.setParity p) (t.ringWrite.setParity p) :=
      hQ.of_unmoved h ⟨rfl, rfl, rfl, SameQueue.refl s⟩ ⟨rfl, rfl, rfl, SameQueue.refl t⟩
    rw [tick_of_bit hs, tick_of_bit ht]
    exact hQ.of_unmoved (hQ.of_bit (hparity p) hset b n short) ⟨rfl, rfl, rfl, SameQueue.refl _⟩
      ⟨rfl, rfl, rfl, SameQueue.refl _⟩

theorem KeptByStages.of_edgeTicks (h : Q s t) (long : Bool) (n : Nat) :
    Q (edgeTicks s long n) (edgeTicks t long n) := by
  cases long with
  | false => exact hQ.of_tick hview h n true
  | true => exact hQ.of_tick (tick_view hview n false) (hQ.of_tick hview h n false) n false

theorem KeptByStages.of_edge (h : Q s t) : Q (edge s) (edge t) := by
  have hcnt : s.cnt = t.cnt := congrArg DecodeView.cnt hview
  have hlimit : s.limit = t.limit := congrArg DecodeView.limit hview
  have hend (u : State) (n : Nat) : Unmoved u (edgePeriod u n).endEdge :=
    ⟨edgePeriod_frameStart .., edgePeriod_lastBitPos .., edgePeriod_pos .., edgePeriod_queue ..⟩
  rw [edge_eq (s := s) rfl rfl, edge_eq (s := t) rfl rfl, hcnt, hlimit]
  exact hQ.of_unmoved (hQ.of_edgeTicks hview h _ _) (hend _ _) (hend _ _)

theorem KeptByStages.of_processSample (h : Q s t) (v : Sample) : Q (processSample s v) (processSample t v) := by
  have hcfg : s.cfg = t.cfg := congrArg DecodeView.cfg hview
  have hmin : s.envMin = t.envMin := congrArg DecodeView.envMin hview
  have hmax : s.envMax = t.envMax := congrArg DecodeView.envMax hview
  have hlevel : s.level = t.level := congrArg DecodeView.level hview
  have hsignal : levelSignals s v = levelSignals t v := by
    rw [levelSignals, levelSignals, hcfg, hmin, hmax, hlevel]
  have htracked : Q (s.trackEnvelope v) (t.trackEnvelope v) :=
    hQ.of_unmoved h ⟨rfl, rfl, rfl, SameQueue.refl s⟩ ⟨rfl, rfl, rfl, SameQueue.refl t⟩
  have htrackedView : decodeView (s.trackEnvelope v) = decodeView (t.trackEnvelope v) := by
    obtain ⟨henvelope, -⟩ := simple_view hview
    rw [State.trackEnvelope, State.trackEnvelope, hcfg, hmin, hmax]
    exact henvelope _ _
  cases hc : levelSignals s v with
  | false =>
    rw [processSample_quiet hc, processSample_quiet (hsignal ▸ hc)]
    exact hQ.of_endSample htracked
  | true =>
    rw [processSample_change hc, processSample_change (hsignal ▸ hc)]
    exact hQ.of_endSample (hQ.of_edge htrackedView htracked)

/-- Blocks with the same decoding registers keep them the same, and with them any relation the stages keep. -/
theorem KeptByStages.of_processAll (h : Q s t) (vs : List Sample) :
    decodeView (processAll s vs) = decodeView (processAll t vs) ∧ Q (processAll s vs) (processAll t vs) := by
  induction vs generalizing s t with
  | nil => exact ⟨hview, h⟩
  | cons v vs ih => exact ih (processSample_view hview v) (hQ.of_processSample hview h v)

end

/-! ### Positions (SETPOS) -/

/-- The queues are the same but for the positions in their records. -/
structure SameUnplacedQueue (s t : State) : Prop where
  qWr : s.qWr = t.qWr
  qRd : s.qRd = t.qRd
  qCount : s.qCount = t.qCount
  slots : unplacedSlots s.slots = unplacedSlots t.slots

theorem SameUnplacedQueue.congr {s t s' t' : State} (h : SameUnplacedQueue s t) (hs : SameQueue s s')
    (ht : SameQueue t t') : SameUnplacedQueue s' t' := by
  obtain ⟨hwr, hrd, hcount, hslots⟩ := h
  obtain ⟨hwr₁, hrd₁, hcount₁, hslots₁⟩ := hs
  obtain ⟨hwr₂, hrd₂, hcount₂, hslots₂⟩ := ht
  constructor
  · rw [hwr₁, hwr₂, hwr]
  · rw [hrd₁, hrd₂, hrd]
  · rw [hcount₁, hcount₂, hcount]
  · rw [hslots₁, hslots₂, hslots]

theorem unplacedSlots_cons (a : Nat) (q : FrameRecord) (m : Memory) :
    unplacedSlots ((a, q) :: m) = (a, q.unplaced) :: unplacedSlots m := (rfl)

/-- A write goes to the same place whatever the positions in the records are. -/
theorem unplacedSlots_write (m : Memory) (i : Nat) (r : FrameRecord) :
    unplacedSlots (m.write i r) = Memory.write (unplacedSlots m) i r.unplaced := by
  induction m with
  | nil => rfl
  | cons e m ih =>
    obtain ⟨a, q⟩ := e
    rw [unplacedSlots_cons, Memory.write, Memory.write]
    split_ifs
    · rfl
    · rfl
    · rw [unplacedSlots_cons, ih]

theorem SameUnplacedQueue.enqueue {s t : State} (h : SameUnplacedQueue s t) (hcap : s.qCap = t.qCap)
    {r r' : FrameRecord} (hr : r.unplaced = r'.unplaced) : SameUnplacedQueue (s.enqueue r) (t.enqueue r') := by
  obtain ⟨hwr, hrd, hcount, hslots⟩ := h
  constructor
  · rw [State.enqueue_qWr, State.enqueue_qWr, hwr, hcap]
  · rw [State.enqueue_qRd, State.enqueue_qRd, hrd, hcount, hcap]
  · rw [State.enqueue_qCount, State.enqueue_qCount, hcount, hcap]
  · rw [State.enqueue_slots, State.enqueue_slots, unplacedSlots_write, unplacedSlots_write, hslots, hwr, hr]

theorem sameUnplacedQueue_keptByStages : KeptByStages SameUnplacedQueue where
  of_unmoved h hs ht := h.congr hs.queue ht.queue
  of_endSample h := h.congr (SameQueue.refl _) (SameQueue.refl _)
  of_bit {s t} hview h b n short := by
    obtain ⟨hs, ht⟩ | ⟨f, shift, reverse, hs, ht⟩ := bit_pushes_alike hview b _ _
    · exact h.congr hs ht
    · refine (h.enqueue (congrArg DecodeView.qCap hview) ?_).congr hs ht
      rw [shiftedRecord, shiftedRecord, makeRecord_unplaced, makeRecord_unplaced, makeRecord_view hview]

theorem setpos_sameDecoding {s t : State} {p : Position} (h : exec (.setpos p) s = .next t) :
    decodeView s = decodeView t ∧ SameQueue s t := by
  obtain ⟨-, he⟩ | ⟨-, he⟩ := exec_setpos_cases p s
  all_goals cases h.symm.trans he
  all_goals exact ⟨rfl, SameQueue.refl s⟩

/-- Settles O50: BIT keeps the queues the same but for positions, and nothing else in SAMPLE touches them. -/
theorem positionsDoNotDisturbDecoding : Obligations.PositionsDoNotDisturbDecoding := by
  refine ⟨fun s t vs hview hwr hrd hcount hslots => ?_, fun s t p => setpos_sameDecoding⟩
  obtain ⟨hview', hwr', hrd', hcount', hslots'⟩ :=
    sameUnplacedQueue_keptByStages.of_processAll hview ⟨hwr, hrd, hcount, hslots⟩ vs
  exact ⟨hview', hwr', hrd', hcount', hslots'⟩

/-! ### The queue's read side (POP) -/

/-- The positions are the same, and so is what PUSH writes of the queue besides its read side. -/
structure SameRecording (s t : State) : Prop where
  frameStart : s.frameStart = t.frameStart
  lastBitPos : s.lastBitPos = t.lastBitPos
  pos : s.pos = t.pos
  qWr : s.qWr = t.qWr
  slots : s.slots = t.slots

theorem SameRecording.of_bit {s t : State} (hview : decodeView s = decodeView t) (h : SameRecording s t) (b : Bool)
    (x : Position) : SameRecording (bit s b x) (bit t b x) := by
  obtain ⟨hstart, hlast, hpos, hwr, hslots⟩ := h
  have hcount : s.bitCnt = t.bitCnt := congrArg DecodeView.bitCnt hview
  have hvalid : s.lastBitValid = t.lastBitValid := congrArg DecodeView.lastBitValid hview
  have hperiod : s.period = t.period := congrArg DecodeView.period hview
  have hcap : s.qCap = t.qCap := congrArg DecodeView.qCap hview
  have hstart' : (bit s b x).frameStart = (bit t b x).frameStart := by
    rw [bit_frameStart_eq, bit_frameStart_eq, hcount, hvalid, hlast, hperiod, hstart]
  have hpos' : (bit s b x).pos = (bit t b x).pos := by rw [bit_pos, bit_pos, hpos]
  have hlast' : (bit s b x).lastBitPos = (bit t b x).lastBitPos := by rw [bit_lastBitPos, bit_lastBitPos]
  obtain ⟨⟨hwr₁, -, -, hslots₁⟩, ⟨hwr₂, -, -, hslots₂⟩⟩ |
    ⟨f, shift, reverse, ⟨hwr₁, -, -, hslots₁⟩, ⟨hwr₂, -, -, hslots₂⟩⟩ := bit_pushes_alike hview b x x
  · exact ⟨hstart', hlast', hpos', by rw [hwr₁, hwr₂, hwr], by rw [hslots₁, hslots₂, hslots]⟩
  · have hrecord : shiftedRecord s b x f shift reverse = shiftedRecord t b x f shift reverse := by
      rw [shiftedRecord, shiftedRecord, makeRecord_view hview, hstart']
    refine ⟨hstart', hlast', hpos', ?_, ?_⟩
    · rw [hwr₁, hwr₂, State.enqueue_qWr, State.enqueue_qWr, hwr, hcap]
    · rw [hslots₁, hslots₂, State.enqueue_slots, State.enqueue_slots, hslots, hwr, hrecord]

theorem sameRecording_keptByStages : KeptByStages SameRecording where
  of_unmoved {s t s' t'} h hs ht := by
    obtain ⟨hstart, hlast, hpos, hwr, hslots⟩ := h
    obtain ⟨hstart₁, hlast₁, hpos₁, hwr₁, -, -, hslots₁⟩ := hs
    obtain ⟨hstart₂, hlast₂, hpos₂, hwr₂, -, -, hslots₂⟩ := ht
    constructor
    · rw [hstart₁, hstart₂, hstart]
    · rw [hlast₁, hlast₂, hlast]
    · rw [hpos₁, hpos₂, hpos]
    · rw [hwr₁, hwr₂, hwr]
    · rw [hslots₁, hslots₂, hslots]
  of_bit {s t} hview h b n short := by
    have hperiod : s.period = t.period := congrArg DecodeView.period hview
    rw [h.pos, hperiod]
    exact h.of_bit hview b _
  of_endSample h := by
    obtain ⟨hstart, hlast, hpos, hwr, hslots⟩ := h
    exact ⟨hstart, hlast, congrArg (· + 1#64) hpos, hwr, hslots⟩

/-- Whatever POP answers, it writes the read side of the queue alone (R192, R214). -/
theorem pop_sameRecording {s t : State} (h : exec .pop s = .next t) :
    decodeView t = decodeView s ∧ SameRecording t s := by
  obtain ⟨-, -, he⟩ | ⟨-, -, r, -, he⟩ | ⟨-, -, -, he⟩ | ⟨-, he⟩ := exec_pop_cases s
  all_goals cases h.symm.trans he
  all_goals exact ⟨rfl, rfl, rfl, rfl, rfl, rfl⟩

/-- Settles O49: a POP writes nothing that PUSH reads, so BIT records the same in the same slot. -/
theorem popDoesNotDisturbDecoding : Obligations.PopDoesNotDisturbDecoding := by
  intro s t vs h a b
  obtain ⟨hview, hrecording⟩ := pop_sameRecording h
  obtain ⟨hview', hstart, hlast, hpos, hwr, hslots⟩ := sameRecording_keptByStages.of_processAll hview hrecording vs
  exact ⟨hview', hstart, hlast, hpos, hwr, hslots⟩

end Sys2Proof
end

section
/-! ## The host commands and the idle step (44_host_commands.md R210 to R215, R218) -/

namespace Sys2Proof

open Machine

/-- Settles O1: taking the word from the host is all that precedes its command. -/
theorem stepRunsDecodedCommand : Obligations.StepRunsDecodedCommand := fun _ _ _ _ => step_of_decode

/-- Settles O4: of the ways a step can end, the idle one is left when nothing is presented. -/
theorem idleStepChangesNoRegister : Obligations.IdleStepChangesNoRegister := by
  intro s hwf hnil
  obtain ⟨hill, -⟩ | ⟨-, -, hidle⟩ | ⟨-, rest, hreset, -⟩ | ⟨-, w, rest, hword, -⟩ := step_cases s
  · exact absurd hwf (Bool.eq_false_iff.mp hill)
  · exact hidle
  · cases hnil.symm.trans hreset
  · cases hnil.symm.trans hword

theorem seedRaw_eq (seed : BitVec 48) : seedRaw seed = BitVec.ofNat 64 seed.toNat :=
  (BitVec.ofNat_toNat ..).symm

theorem limitOf_seedRaw (seed : BitVec 48) : limitOf (seedRaw seed) = BitVec.ofNat 64 (3 * seed.toNat / 4) := by
  rw [limitOf, seedRaw_toNat]

/-- Settles O16: the operands decide between the two ends of INIT, each of which names every register. -/
theorem initCommand : Obligations.InitCommand := by
  intro s seed cap
  obtain ⟨⟨hseed, hpos, hmax⟩, hvalid⟩ | ⟨hbad, hfail⟩ := exec_init_cases seed cap s
  · refine ⟨fun _ _ _ => ?_, fun hbad => ?_⟩
    · rw [hvalid, ← limitOf_seedRaw, ← seedRaw_eq]
      rfl
    · obtain h | rfl | h := hbad
      · exact absurd h hseed
      · exact absurd hpos (by decide)
      · exact absurd hmax h.not_ge
  · refine ⟨fun hseed hpos hmax => ?_, fun _ => ⟨[], hfail⟩⟩
    obtain h | rfl | h := hbad
    · exact absurd h hseed
    · exact absurd hpos (by decide)
    · exact absurd hmax h.not_ge

/-- Settles O18: `setPos` and the response are all that SETPOS writes. -/
theorem setposCommand : Obligations.SetposCommand := by
  refine fun s p => ⟨fun hok => exec_setpos_of_ok hok p, fun hno => ?_⟩
  obtain ⟨-, hrefused, -⟩ := unconfiguredCommandsRefused s hno
  exact hrefused p

/-- Settles O20: the twelve opcodes are 0 and those from 5 on. -/
theorem reservedOpcodesRespondIllegal : Obligations.ReservedOpcodesRespondIllegal := by
  intro s x
  have hzero : exec (.illegalOp0 x) s = .next (s.respond .illegal none) := exec_of_reserved (.inl rfl) s
  have habove {i : Instr} (h : 5 ≤ (opcode i).toNat) : exec i s = .next (s.respond .illegal none) :=
    exec_of_reserved (.inr h) s
  refine ⟨hzero, ?_, ?_, ?_, ?_, ?_, ?_, ?_, ?_, ?_, ?_, ?_⟩
  all_goals
    refine habove ?_
    rw [opcode]
    decide

/-- A sample writes the slot at `q_wr` or none (R191). -/
theorem processSample_read_other {s : State} {a : Nat} (ha : a ≠ s.qWr.toNat) (v : Sample) :
    (processSample s v).slots.read a = s.slots.read a := by
  obtain hsame | ⟨-, -, -, r, hpush⟩ := sample_queue s v
  · rw [hsame.slots]
  · rw [hpush.slots, State.enqueue_slots, Memory.read_write_other _ ha]

/-- Settles O25: nothing in the pipeline writes what INIT owns, and a push writes one slot. -/
theorem sampleCompletes : Obligations.SampleCompletes := fun s v hok =>
  ⟨_, exec_sample_of_ok hok v, rfl, processSample_pos s v, processSample_cfg s v, processSample_inputs s v,
    (processSample_cfgOk s v).trans hok, processSample_cfgErr s v, processSample_qCap s v,
    fun _ ha => processSample_read_other ha v⟩

end Sys2Proof
end

section
/-! ## Volumes (45_volume_table.md R240 to R243)

From 1 on, the table's bit patterns fall (`volTable_falls`), so its two ends bound every pattern between them
(`volDb_bounds`), and bit patterns within these bounds are negative normal numbers (`negative_normal_of_bounds`). A record
carries the envelope its sample left, since no stage of SAMPLE after LEVEL writes the envelope (`Stamps`). -/

namespace Sys2Proof

open Machine

/-! ### The table (R241) -/

/-- As numbers, the bit patterns of entries 1 to 255 fall. -/
theorem volTable_falls : (volTable.tail.map BitVec.toNat).IsChain (· > ·) := by decide +kernel

theorem volTable_tail_length : volTable.tail.length = 255 := by decide +kernel

theorem volDb_succ (d : Nat) : volDb (d + 1) = volTable.tail.getD d volNegInf := (rfl)

theorem volDb_lt {d e : Nat} (hpos : 1 ≤ d) (hlt : d < e) (he : e ≤ 255) : (volDb e).toNat < (volDb d).toNat := by
  obtain ⟨i, rfl⟩ := Nat.exists_eq_add_of_le' hpos
  obtain ⟨j, rfl⟩ := Nat.exists_eq_add_of_le' (hpos.trans hlt.le)
  have hfalls := List.pairwise_iff_getElem.mp (List.isChain_iff_pairwise.mp volTable_falls) i j
  simp only [List.length_map, List.getElem_map, volTable_tail_length] at hfalls
  rw [volDb_succ, volDb_succ, List.getD_eq_getElem _ _ (by rw [volTable_tail_length]; omega),
    List.getD_eq_getElem _ _ (by rw [volTable_tail_length]; omega)]
  exact hfalls (by omega) (by omega) (by omega)

theorem volDb_one : volDb 1 = 0xC04810BE2C32BCDE#64 := by decide

theorem volDb_254 : volDb 254 = 0xBFA179647AEBA1BE#64 := by decide

theorem volDb_255 : volDb 255 = 0#64 := by decide

/-- Entries 1 to 254 lie between the table's two ends. -/
theorem volDb_bounds {d : Nat} (hpos : 1 ≤ d) (hle : d ≤ 254) :
    0xBFA179647AEBA1BE ≤ (volDb d).toNat ∧ (volDb d).toNat ≤ 0xC04810BE2C32BCDE := by
  have hlow : (volDb 254).toNat ≤ (volDb d).toNat := by
    obtain rfl | hlt := hle.eq_or_lt
    · exact Nat.le_refl _
    · exact (volDb_lt hpos hlt (by decide)).le
  have hhigh : (volDb d).toNat ≤ (volDb 1).toNat := by
    obtain rfl | hlt := hpos.eq_or_lt
    · exact Nat.le_refl _
    · exact (volDb_lt (Nat.le_refl 1) hlt (by omega)).le
  rw [volDb_254] at hlow
  rw [volDb_one] at hhigh
  exact ⟨hlow, hhigh⟩

/-- Between these bounds the sign bit is 1 and the exponent field is `0x3FA` to `0x404` (R244). -/
theorem negative_normal_of_bounds {x : BitVec 64} (hlow : 0xBFA179647AEBA1BE ≤ x.toNat)
    (hhigh : x.toNat ≤ 0xC04810BE2C32BCDE) :
    x.getLsbD 63 = true ∧ x.extractLsb' 52 11 ≠ 0x7FF#11 ∧ x.extractLsb' 52 11 ≠ 0#11 := by
  have hexp : (x.extractLsb' 52 11).toNat = x.toNat / 2 ^ 52 % 2 ^ 11 := by
    rw [BitVec.extractLsb'_toNat, Nat.shiftRight_eq_div_pow]
  refine ⟨?_, fun h => ?_, fun h => ?_⟩
  · rw [BitVec.getLsbD, Nat.testBit_eq_decide_div_mod_eq, decide_eq_true_eq]
    omega
  · rw [h, BitVec.toNat_ofNat] at hexp
    omega
  · rw [h, BitVec.toNat_ofNat] at hexp
    omega

/-- Settles O54: the table falls from 1 on, and its ends bound the rest. -/
theorem volumeTableShape : Obligations.VolumeTableShape := by
  refine ⟨by decide, volDb_255, volDb_one, volDb_254, fun d hpos hle => ?_, fun d hpos hle => ?_⟩
  · obtain ⟨hlow, hhigh⟩ := volDb_bounds hpos hle
    exact negative_normal_of_bounds hlow hhigh
  · exact volDb_lt hpos (Nat.lt_succ_self d) (by omega)

/-- The volume of an envelope that is not a single level is finite (R242). -/
theorem volDb_finite {d : Nat} (hpos : 1 ≤ d) (hle : d ≤ 255) : (volDb d).extractLsb' 52 11 ≠ 0x7FF#11 := by
  obtain rfl | hlt := hle.eq_or_lt
  · rw [volDb_255]
    decide
  · obtain ⟨hlow, hhigh⟩ := volDb_bounds hpos (Nat.le_of_lt_succ hlt)
    obtain ⟨-, hfinite, -⟩ := negative_normal_of_bounds hlow hhigh
    exact hfinite

/-! ### What a record carries (R191, R242) -/

/-- The record carries the envelope of `s` and its volume (R115, R191). -/
def CarriesEnvelope (s : State) (r : FrameRecord) : Prop :=
  r.sampleMin = s.envMin ∧ r.sampleMax = s.envMax ∧ r.volume = volume s.envMin s.envMax

/-- From `s` to `t` the envelope stands, and every record that came into the queue memory carries it. -/
structure Stamps (s t : State) : Prop where
  envMin : t.envMin = s.envMin
  envMax : t.envMax = s.envMax
  slots : ∀ a r, t.slots.read a = some r → s.slots.read a = some r ∨ CarriesEnvelope s r

theorem Stamps.of_slots_eq {s t : State} (hmin : t.envMin = s.envMin) (hmax : t.envMax = s.envMax)
    (hslots : t.slots = s.slots) : Stamps s t :=
  ⟨hmin, hmax, fun _ _ hr => .inl (hslots ▸ hr)⟩

theorem Stamps.trans {s t u : State} (hst : Stamps s t) (htu : Stamps t u) : Stamps s u := by
  refine ⟨htu.envMin.trans hst.envMin, htu.envMax.trans hst.envMax, fun a r hr => ?_⟩
  obtain hkept | hnew := htu.slots a r hr
  · exact hst.slots a r hkept
  · rw [CarriesEnvelope, hst.envMin, hst.envMax] at hnew
    exact .inr hnew

/-- What BIT publishes is built from the state it finds (R158, R159). -/
theorem bit_stamps (s : State) (b : Bool) (x : Position) : Stamps s (bit s b x) := by
  refine ⟨bit_envMin .., bit_envMax .., fun a r hr => ?_⟩
  obtain ⟨hsame, -⟩ | ⟨f, shift, reverse, hpush, -⟩ := bit_pushes_alike (s := s) (t := s) rfl b x x
  · exact .inl (hsame.slots ▸ hr)
  · rw [hpush.slots, State.enqueue_slots, Memory.read_write] at hr
    split at hr
    · obtain rfl := Option.some.inj hr
      exact .inr ⟨rfl, rfl, rfl⟩
    · exact .inl hr

theorem tick_stamps (s : State) (n : Nat) (short : Bool) : Stamps s (tick s n short) := by
  obtain ⟨⟨p, d⟩, hrow⟩ : ∃ row, parityStep s.level s.biphasePrev s.biphaseState = row := ⟨_, rfl⟩
  have hring : Stamps s (s.ringWrite.setParity p) := .of_slots_eq rfl rfl rfl
  cases d with
  | none =>
    rw [tick_of_no_bit hrow]
    exact hring.trans (.of_slots_eq rfl rfl rfl)
  | some b =>
    rw [tick_of_bit hrow]
    exact (hring.trans (bit_stamps ..)).trans (.of_slots_eq rfl rfl rfl)

theorem edgeTicks_stamps (s : State) (long : Bool) (n : Nat) : Stamps s (edgeTicks s long n) := by
  cases long with
  | false => exact tick_stamps s n true
  | true => exact (tick_stamps s n false).trans (tick_stamps _ n false)

theorem edge_stamps (s : State) : Stamps s (edge s) := by
  have hend (u : State) (n : Nat) : Stamps u (edgePeriod u n).endEdge :=
    .of_slots_eq (by simp) (by simp) (by simp)
  rw [edge_eq (s := s) rfl rfl]
  exact (edgeTicks_stamps ..).trans (hend ..)

/-- A record that a sample put into the queue memory carries the envelope the sample left (R213). -/
theorem processSample_carriesEnvelope {s : State} {v : Sample} {a : Nat} {r : FrameRecord}
    (hr : (processSample s v).slots.read a = some r) (hnew : (processSample s v).slots.read a ≠ s.slots.read a) :
    CarriesEnvelope (processSample s v) r := by
  have htracked : (s.trackEnvelope v).slots = s.slots := rfl
  cases hsignal : levelSignals s v with
  | false =>
    rw [processSample_quiet hsignal, State.endSample_slots, htracked] at hnew
    exact absurd rfl hnew
  | true =>
    rw [processSample_change hsignal, State.endSample_slots] at hr hnew
    have hstamps := edge_stamps (s.trackEnvelope v)
    obtain hkept | hcarries := hstamps.slots a r hr
    · exact absurd (hr.trans (htracked ▸ hkept).symm) hnew
    · rw [CarriesEnvelope, ← hstamps.envMin, ← hstamps.envMax] at hcarries
      rw [processSample_change hsignal, CarriesEnvelope, State.endSample_envMin, State.endSample_envMax]
      exact hcarries

/-- A sample that signals a change lies strictly on one side of the centre, so the envelope it leaves is not a single
level (R112, R114). -/
theorem envLow_lt_envHigh_of_changes {s : State} {v : Sample} (hc : Changes s v) : envLow s v < envHigh s v := by
  rw [envLow, envHigh, specEnvMin, specEnvMax]
  obtain ⟨-, habove⟩ | ⟨-, hbelow⟩ := hc
  · omega
  · omega

theorem processSample_envelope_lt {s : State} {v : Sample} (he : EnvelopeOk s) (hc : Changes s v) :
    (processSample s v).envMin.toNat < (processSample s v).envMax.toNat := by
  rw [processSample_envMin, processSample_envMax, envMinNext_toNat _ _ _ he.lo, envMaxNext_toNat _ _ _ he.hi]
  exact envLow_lt_envHigh_of_changes hc

/-- Settles O47: only a change publishes, a change leaves the extremes apart, and the record carries them. -/
theorem publishedVolumeFinite : Obligations.PublishedVolumeFinite := by
  intro s t v hinv ht a r hr hnew
  obtain ⟨-, hend⟩ | ⟨-, hend⟩ := exec_sample_cases v s
  · obtain rfl := Host.Outcome.next.inj (ht.symm.trans hend)
    rw [State.respond_slots] at hr hnew
    have hslot : a = s.qWr.toNat := by_contra fun hother => hnew (processSample_read_other hother v)
    have hchanges : Changes s v := by
      obtain hsame | ⟨hsignal, -⟩ := sample_queue s v
      · exact absurd (congrArg (·.read a) hsame.slots) hnew
      · exact (levelSignals_iff s v hinv.envelope).mp hsignal
    obtain ⟨hmin, hmax, hvolume⟩ := processSample_carriesEnvelope hr hnew
    have hlt : r.sampleMin.toNat < r.sampleMax.toNat := by
      rw [hmin, hmax]
      exact processSample_envelope_lt hinv.envelope hchanges
    rw [← hmin, ← hmax, volume_eq] at hvolume
    refine ⟨hslot, hmin, hmax, hlt, hvolume, ?_⟩
    rw [hvolume]
    have hbyte := r.sampleMax.isLt
    exact volDb_finite (by omega) (by omega)
  · obtain rfl := Host.Outcome.next.inj (ht.symm.trans hend)
    exact absurd rfl hnew

end Sys2Proof
end

section
/-! ## Exceptions (60_exceptions.md R250 to R259)

A command stops only at a POP of a slot without a record, which the queue invariant excludes (`QueueOk.exec_pop`). -/

namespace Sys2Proof

open Machine

/-! ### No run stops (R250, R259) -/

/-- The slot of the oldest unread record holds one (R43). -/
theorem QueueOk.exists_oldest {s : State} (h : QueueOk s) (hunread : s.qCount ≠ 0#16) :
    ∃ r, s.slots.read s.qRd.toNat = some r := by
  have hpos : 0 < s.qCount.toNat := Nat.pos_of_ne_zero fun hz => hunread ((qCount_eq_zero_iff s).mpr hz)
  have hslot := h.unread 0 hpos
  rw [Nat.add_zero, Nat.mod_eq_of_lt h.rd] at hslot
  exact Option.isSome_iff_exists.mp hslot

/-- Under the queue invariant a POP never meets a slot without a record (R192). -/
theorem QueueOk.exec_pop {s : State} (h : QueueOk s) (hok : s.cfgOk = true) :
    exec .pop s = .next (s.respond .empty none) ∨ ∃ r, exec .pop s = .next (s.dequeue.respond .ok (some r)) := by
  obtain hempty | hunread := eq_or_ne s.qCount 0#16
  · exact .inl (exec_pop_of_empty hok hempty)
  · obtain ⟨r, hslot⟩ := h.exists_oldest hunread
    exact .inr ⟨r, exec_pop_of_unread hok hunread hslot⟩

/-- Settles O15: a configured block has one end left for SAMPLE and for SETPOS, and two for POP. -/
theorem configuredCommandsSucceed : Obligations.ConfiguredCommandsSucceed := by
  intro s h hok
  refine ⟨fun v => ⟨_, exec_sample_of_ok hok v, rfl⟩, fun p => ⟨_, exec_setpos_of_ok hok p, rfl⟩, ?_⟩
  obtain hempty | ⟨r, hrecord⟩ := (h.queue hok).exec_pop hok
  · exact ⟨_, hempty, .inl rfl⟩
  · exact ⟨_, hrecord, .inr ⟨r, rfl⟩⟩

theorem Invariant.exec_goesOn {s : State} (h : Invariant s) (i : Instr) : ∃ t, exec i s = .next t := by
  obtain ⟨seed, cap, rfl⟩ | ⟨p, rfl⟩ | ⟨v, rfl⟩ | rfl | ⟨-, -, -, -, he, -⟩ := exec_cases i s
  · obtain ⟨-, he⟩ | ⟨-, he⟩ := exec_init_cases seed cap s
    all_goals exact ⟨_, he⟩
  · obtain ⟨-, he⟩ | ⟨-, he⟩ := exec_setpos_cases p s
    all_goals exact ⟨_, he⟩
  · obtain ⟨-, he⟩ | ⟨-, he⟩ := exec_sample_cases v s
    all_goals exact ⟨_, he⟩
  · cases hok : s.cfgOk with
    | false =>
      obtain ⟨-, -, hrefused⟩ := unconfiguredCommandsRefused s hok
      exact ⟨_, hrefused⟩
    | true =>
      obtain he | ⟨r, he⟩ := (h.queue hok).exec_pop hok
      all_goals exact ⟨_, he⟩
  · exact ⟨_, he⟩

theorem Invariant.step_goesOn {s : State} (h : Invariant s) : ∃ t, step s = .next t := by
  obtain ⟨hill, -⟩ | ⟨-, -, he⟩ | ⟨-, rest, -, he⟩ | ⟨-, w, rest, -, hword⟩ := step_cases s
  · exact absurd h.config (Bool.eq_false_iff.mp hill)
  · exact ⟨_, he⟩
  · exact ⟨_, he⟩
  · obtain ⟨i, -, he⟩ | ⟨-, -, he⟩ := hword
    · obtain ⟨t, ht⟩ := (h.withPort rest s.rsp).exec_goesOn i
      exact ⟨t, he.trans ht⟩
    · exact ⟨_, he⟩

theorem run_succ_of_step {M : Host.Core} {s t : M.State} (h : M.step s = .next t) (k : Nat) :
    M.run (k + 1) s = M.run k t := by
  rw [Host.Core.run, h]

/-- Settles O14: by induction on the length of the run. A step goes on from a state that meets the invariant, and the
state it gives meets it again. -/
theorem runsNeverStop : Obligations.RunsNeverStop := by
  intro k
  induction k with
  | zero => exact fun s h => ⟨s, rfl, h⟩
  | succ k ih =>
    intro s h
    obtain ⟨u, hu⟩ := h.step_goesOn
    obtain ⟨t, hrun, ht⟩ := ih u (stepKeepsInvariant s u h hu)
    exact ⟨t, (run_succ_of_step (M := core) hu k).trans hrun, ht⟩

/-! ### What an error leaves (R256) -/

/-- The ends of a command by the kind of its response: a refusal, which changes nothing else; the failed INIT; and the
commands that did their work, POP of an empty queue among them (R256, R257). -/
inductive CommandEnd (s : State) : State → Prop
  | refused (st : Status) (hst : st = .notConfigured ∨ st = .illegal) : CommandEnd s (s.respond st none)
  | failedInit : CommandEnd s (s.failInit.respond .configError none)
  | done (u : State) (st : Status) (r : Option FrameRecord) (hst : st = .ok ∨ st = .empty) :
      CommandEnd s (u.respond st r)

theorem exec_commandEnd {i : Instr} {s t : State} (h : exec i s = .next t) : CommandEnd s t := by
  have ends {u : State} (hu : CommandEnd s u) (he : exec i s = .next u) : CommandEnd s t :=
    Host.Outcome.next.inj (he.symm.trans h) ▸ hu
  have notConfigured := CommandEnd.refused (s := s) .notConfigured (.inl rfl)
  obtain ⟨seed, cap, rfl⟩ | ⟨p, rfl⟩ | ⟨v, rfl⟩ | rfl | ⟨-, -, -, -, he, -⟩ := exec_cases i s
  · obtain ⟨-, he⟩ | ⟨-, he⟩ := exec_init_cases seed cap s
    · exact ends (.done _ .ok none (.inl rfl)) he
    · exact ends .failedInit he
  · obtain ⟨-, he⟩ | ⟨-, he⟩ := exec_setpos_cases p s
    · exact ends (.done _ .ok none (.inl rfl)) he
    · exact ends notConfigured he
  · obtain ⟨-, he⟩ | ⟨-, he⟩ := exec_sample_cases v s
    · exact ends (.done _ .ok none (.inl rfl)) he
    · exact ends notConfigured he
  · obtain ⟨-, -, he⟩ | ⟨-, -, r, -, he⟩ | ⟨-, -, -, he⟩ | ⟨-, he⟩ := exec_pop_cases s
    · exact ends (.done _ .empty none (.inr rfl)) he
    · exact ends (.done _ .ok (some r) (.inl rfl)) he
    · cases h.symm.trans he
    · exact ends notConfigured he
  · exact ends (.refused .illegal (.inr rfl)) he

/-- Settles O22: the status tells which of the three ends the command had. -/
theorem errorsChangeNoState : Obligations.ErrorsChangeNoState := by
  intro i s t r h hrsp
  cases exec_commandEnd h with
  | refused st hst =>
    obtain rfl := Option.some.inj hrsp
    refine ⟨fun _ => rfl, fun hconfig : st = .configError => ?_⟩
    obtain rfl | rfl := hst <;> cases hconfig
  | failedInit =>
    obtain rfl := Option.some.inj hrsp
    exact ⟨nofun, fun _ => rfl⟩
  | done u st rec hst =>
    obtain rfl := Option.some.inj hrsp
    obtain rfl | rfl := hst <;> exact ⟨nofun, nofun⟩

end Sys2Proof
end

section
/-! ## Reset and hazards (70_reset_and_hazards.md R280 to R287)

A change counts at most two bits and no other sample counts any, so the changes among the samples (`changesIn`) bound both
`bit_cnt` and what can be published. -/

namespace Sys2Proof

open Machine

/-! ### Hard reset and INIT (R280 to R283) -/

/-- Settles O11: a closed statement about one state, whose parameters and registers evaluate. -/
theorem resetRegisters : Obligations.ResetRegisters := by
  unfold Obligations.ResetRegisters
  decide

/-- Settles O5: of the ways a step can end, the hard reset is left; the model's choice for the slots is that none has a
value. -/
theorem hardResetInput : Obligations.HardResetInput := by
  intro s rest hwf hin
  obtain ⟨hill, -⟩ | ⟨-, hnil, -⟩ | ⟨-, rest', hreset, he⟩ | ⟨-, w, rest', hword, -⟩ := step_cases s
  · exact absurd hwf (Bool.eq_false_iff.mp hill)
  · cases hin.symm.trans hnil
  · cases hin.symm.trans hreset
    exact ⟨[], he⟩
  · cases hin.symm.trans hword

theorem exec_init_of_initValid {s : State} {seed : BitVec 48} {cap : BitVec 16} (h : initValid s.cfg seed cap = true) :
    exec (.init seed cap) s = .next ((s.construct seed cap).respond .ok none) :=
  if_pos h

/-- An INIT that leaves the block configured was valid, and constructed the decoder (R211). -/
theorem exec_init_configures {s t : State} {seed : BitVec 48} {cap : BitVec 16} (h : exec (.init seed cap) s = .next t)
    (hok : t.cfgOk = true) : initValid s.cfg seed cap = true ∧ t = (s.construct seed cap).respond .ok none := by
  obtain ⟨hvalid, he⟩ | ⟨-, he⟩ := exec_init_cases seed cap s
  · exact ⟨(initValid_iff ..).mpr hvalid, Host.Outcome.next.inj (h.symm.trans he)⟩
  · obtain rfl := Host.Outcome.next.inj (h.symm.trans he)
    exact absurd hok Bool.false_ne_true

/-- What INIT constructs takes the parameters, the inputs and the slots from the state before, and nothing else (R283). -/
theorem construct_eq_of_cfg {s s' : State} (h : s.cfg = s'.cfg) (seed : BitVec 48) (cap : BitVec 16) :
    s.construct seed cap = { s'.construct seed cap with inputs := s.inputs, slots := s.slots } := by
  rw [State.construct, State.hardReset, h]
  rfl

/-- Settles O17: whether INIT is valid depends on the parameters alone, and so does what it constructs, but for the inputs
and the slots it carries over. -/
theorem initForgetsEarlierState : Obligations.InitForgetsEarlierState := by
  intro s s' t t' seed cap hcfg hok ht ht'
  obtain ⟨hvalid, rfl⟩ := exec_init_configures ht hok
  rw [hcfg] at hvalid
  obtain rfl := Host.Outcome.next.inj (ht'.symm.trans (exec_init_of_initValid hvalid))
  refine ⟨?_, rfl, rfl⟩
  rw [construct_eq_of_cfg hcfg]
  rfl

/-! ### Flat input (R287) -/

/-- The summand of `changesIn` for one sample, as a bound on the bits the sample counts (R131, R132). -/
theorem processSample_bitCnt_le (s : State) (v : Sample) :
    (processSample s v).bitCnt.val ≤ s.bitCnt.val + 2 * if levelSignals s v then 1 else 0 := by
  cases hsignal : levelSignals s v with
  | false => rw [processSample_quiet hsignal]; exact Nat.le_refl _
  | true => exact sample_bitCnt_le s v

theorem processAll_bitCnt_le (s : State) (vs : List Sample) :
    (processAll s vs).bitCnt.val ≤ s.bitCnt.val + 2 * changesIn s vs := by
  induction vs generalizing s with
  | nil => exact Nat.le_refl _
  | cons v vs ih =>
    have hfirst := processSample_bitCnt_le s v
    have hrest := ih (processSample s v)
    rw [processAll_cons, changesIn]
    omega

/-- Samples publish nothing while their changes cannot fill the register. -/
theorem processAll_sameQueue_of_few_changes {s : State} {vs : List Sample}
    (hfew : s.bitCnt.val + 2 * changesIn s vs < 80) : SameQueue s (processAll s vs) := by
  induction vs generalizing s with
  | nil => exact SameQueue.refl s
  | cons v vs ih =>
    rw [changesIn] at hfew
    have hkept : SameQueue s (processSample s v) := by
      obtain hsame | ⟨hsignal, hfull, -⟩ := sample_queue s v
      · exact hsame
      · rw [if_pos hsignal] at hfew
        omega
    have hfirst := processSample_bitCnt_le s v
    exact hkept.trans (ih (by omega))

/-- Settles O52: INIT leaves no bit counted and the envelope at the centre, from where a constant input signals at most one
change (R117). -/
theorem flatInputPublishesNothing : Obligations.FlatInputPublishesNothing := by
  intro s t seed cap v n ht hok
  obtain ⟨-, hinit, -⟩ := envelopeBound
  have hchanges : changesIn t (List.replicate n v) ≤ 1 := constantInputChangesOnce t v n (hinit s t seed cap ht)
  have hempty : t.bitCnt.val = 0 := by
    obtain ⟨-, rfl⟩ := exec_init_configures ht hok
    rfl
  have hbits := processAll_bitCnt_le t (List.replicate n v)
  exact ⟨processAll_sameQueue_of_few_changes (by omega), by omega⟩

end Sys2Proof
end
